-- ==== Sys2Proof/Word.lean ====
section
/-! DEFINITION. The word types of the D16 (00_scope.md R2, section 5.1): a word is 16 bits, an
address names a byte. -/

namespace Sys2Proof

/-- A 16 bit word: registers, the instruction pointer, addresses, instruction words. -/
abbrev Word := BitVec 16

/-- One byte of memory or of an 8 bit peripheral register. -/
abbrev Byte := BitVec 8

end Sys2Proof
end

