-- ==== Sys2Proof/Config.lean ====
section
/-! DEFINITION. The open parameters of the machine (00_scope.md R3), each with the settings that
rule gives it, and the opaque constants that stand for values no document determines. A machine's
parameters are held in State.cfg and no step changes them (log 1). -/

namespace Sys2Proof

/-- BYTE_ORDER (20_memory.md R62, D2). -/
inductive ByteOrder where
  | little
  | big
  deriving DecidableEq, Repr

/-- SUB_CARRY (10_state.md R23, D8): what C says after a subtraction. -/
inductive SubCarry where
  | borrow
  | notBorrow
  deriving DecidableEq, Repr

/-- V_RULE (10_state.md R22, D9): V after an addition. -/
inductive VRule where
  | signedOverflow
  | carry14AndNotCarry15
  deriving DecidableEq, Repr

/-- LS_EXPR (45_control.md R160, D28): the expression of condition LS. -/
inductive LsExpr where
  | conj
  | disj
  deriving DecidableEq, Repr

/-- SHIFT_CARRY (46_shift_rotate.md R181 to R183, D11): C after SHL, SHR and SAR. `other` is any
function of operation, old value, amount and old C: Config.shiftCarryBit (log 10). -/
inductive ShiftCarry where
  | lastBitOut
  | other
  deriving DecidableEq, Repr

/-- SHIFT_AMOUNT_GE16 (46_shift_rotate.md R180, R186, D10). -/
inductive ShiftAmountGe16 where
  | unspecified
  | full
  | low4
  deriving DecidableEq, Repr

/-- LDB_EXTEND (44_load_store.md R151, D14): the high byte of rD after LD.b. -/
inductive LdbExtend where
  | zero
  | sign
  | unspecifiedHighByte
  deriving DecidableEq, Repr

/-- MOVB_EXTEND (42_move.md R131, D15): the high byte of rD after the byte MOV. -/
inductive MovbExtend where
  | zero
  | sign
  deriving DecidableEq, Repr

/-- STACK_RS_FIELD (41_stack.md, before R120, D26): how PUSH and POP encode their pointer register. -/
inductive StackRsField where
  | direct
  | complemented
  deriving DecidableEq, Repr

/-- IFETCH_COHERENT (20_memory.md R60, D21). -/
inductive IfetchCoherent where
  | yes
  | refuseSelfModifying
  deriving DecidableEq, Repr

/-- UNIMPL_CR_READ (10_state.md R27, D25): LDCP of cr1 to cr15. -/
inductive UnimplCrRead where
  | anyValue
  | refuse
  deriving DecidableEq, Repr

/-- DMA_BUSY_ENCODING (60_exceptions.md R231, D32): bits 0-2 of DMA_CONTROL when read. -/
inductive DmaBusyEncoding where
  | nonzeroWhenBusy
  | unspecified
  deriving DecidableEq, Repr

/-- The operations whose carry SHIFT_CARRY determines. -/
inductive ShiftOp where
  | shl
  | shr
  | sar
  deriving DecidableEq, Repr

/-- One setting of the open parameters of 00_scope.md R3. F_CLK, EXT_DRAM and the general setting of
SHIFT_CARRY are the opaque constants below. -/
structure Config where
  byteOrder : ByteOrder
  resetPc : Word
  ramSize : Nat
  subCarry : SubCarry
  vRule : VRule
  lsExpr : LsExpr
  shiftCarry : ShiftCarry
  shiftAmountGe16 : ShiftAmountGe16
  ldbExtend : LdbExtend
  movbExtend : MovbExtend
  stackRsField : StackRsField
  ifetchCoherent : IfetchCoherent
  unimplCrRead : UnimplCrRead
  dmaBusyEncoding : DmaBusyEncoding
  deriving DecidableEq, Repr

namespace Config

/-- The default column of 00_scope.md R3 (log 2). -/
def standard : Config where
  byteOrder := .little
  resetPc := 0x0000
  ramSize := 0xFF00
  subCarry := .borrow
  vRule := .signedOverflow
  lsExpr := .conj
  shiftCarry := .lastBitOut
  shiftAmountGe16 := .unspecified
  ldbExtend := .zero
  movbExtend := .zero
  stackRsField := .direct
  ifetchCoherent := .yes
  unimplCrRead := .anyValue
  dmaBusyEncoding := .nonzeroWhenBusy

/-- The values 00_scope.md R3 admits: RESET_PC even; RAM_SIZE even (D22) and at most 0xFF00. -/
abbrev Wf (c : Config) : Prop :=
  c.resetPc.toNat % 2 = 0 ∧ c.ramSize % 2 = 0 ∧ c.ramSize ≤ 0xFF00

/-- A free 16 bit value, `unspecified(16)` of 00_scope.md R4: the n-th draw of the machine (log 7). -/
opaque freeWord : Nat → Word

/-- A free 8 bit value, `unspecified(8)`: the n-th draw of the machine (log 7). -/
opaque freeByte : Nat → Byte

/-- A free bit, `unspecified(1)`: the n-th draw of the machine (log 7). -/
opaque freeBit : Nat → Bool

/-- Which of the seven non-zero codes DMA_CONTROL bits 0-2 read as while a transfer runs
(60_exceptions.md R231: "some non-zero value"); the code is one more than this number (log 7). -/
opaque freeBusyCode : Nat → Fin 7

/-- The general setting of SHIFT_CARRY: a function of the operation, old rD, amount and old C (log 10). -/
opaque shiftCarryBit : ShiftOp → Word → Nat → Bool → Bool

/-- How many low-order bits an external byte address has below the upper 16 that DMA_REMOTE_ADDRESS
holds: with those 16, the address width of EXT_DRAM (60_exceptions.md R233, log 13). -/
opaque extLowBits : Nat

/-- The low-order bits of the external address a DMA_REMOTE_ADDRESS value stands for: what `ext_base` of
EXT_DRAM adds to it (60_exceptions.md R233, log 13). -/
opaque extLow : Word → BitVec extLowBits

/-- Which byte of the external DRAM, if any, an address past its last one reaches (log 13). -/
opaque extBeyond : Nat → Option (BitVec (16 + extLowBits))

/-- The content of the external DRAM at launch (10_state.md R32, log 13). -/
opaque extDram : Nat → Byte

/-- F_CLK, the master clock frequency in Hz (70_reset_and_hazards.md R275, log 16). -/
opaque fClk : Nat

end Config

end Sys2Proof
end

