-- ==== Sys2Proof/Syntax.lean ====
section
/-! DEFINITION. The D16's instructions as syntax: one constructor of Instr per row of
opcode_table.json (30_encoding.md R84, R90), in the table's order. -/

namespace Sys2Proof

/-- The general registers (10_state.md R10). -/
inductive Reg where
  | r0 | r1 | r2 | r3 | r4 | r5 | r6 | r7
  deriving DecidableEq, Repr

/-- The sixteen condition codes (45_control.md R160), in the order of their 4 bit encoding. -/
inductive Cond where
  | nv | eq | ne | os | oc | hi | ls | p | n | cs | cc | ge | g | le | l | al
  deriving DecidableEq, Repr

/-- Why an instruction word is Reserved (30_encoding.md R72, R86, R87). -/
inductive ReservedReason where
  /-- Bit 14 of the word is set (R72). -/
  | bit14
  /-- Opcode 0, 30 or 37 to 63 (R86). -/
  | opcode
  /-- A field the tables show as Reserved, or the source field of NOT and NEG, is not zero (R87). -/
  | reservedField
  /-- Bit 15 is set in an instruction with no immediate form (R87). -/
  | immediateBit
  /-- The register field an immediate form does not use is not zero (R87, the spec's tightening). -/
  | unusedField
  deriving DecidableEq, Repr

/-- One constructor per row of opcode_table.json. Suffix R: register form; I: immediate form; A:
address `[imm]`; D: address `[rS+imm]`; U: displacement flag without immediate flag (R154).
Operands stand in the order rD, rS, imm of the spec's fields. -/
inductive Instr where
  | addR (rD rS : Reg)
  | addI (rD : Reg) (imm : Word)
  | subR (rD rS : Reg)
  | subI (rD : Reg) (imm : Word)
  | pushR (rD rS : Reg)
  | pushI (rS : Reg) (imm : Word)
  | pop (rD rS : Reg)
  | movB0 (data : Byte)
  | movB1 (data : Byte)
  | movB2 (data : Byte)
  | movB3 (data : Byte)
  | movB4 (data : Byte)
  | movB5 (data : Byte)
  | movB6 (data : Byte)
  | movB7 (data : Byte)
  | movR (rD rS : Reg)
  | movI (rD : Reg) (imm : Word)
  | andR (rD rS : Reg)
  | andI (rD : Reg) (imm : Word)
  | orR (rD rS : Reg)
  | orI (rD : Reg) (imm : Word)
  | xorR (rD rS : Reg)
  | xorI (rD : Reg) (imm : Word)
  | notR (rD : Reg)
  | negR (rD : Reg)
  | ldR (rD rS : Reg)
  | ldA (rD : Reg) (imm : Word)
  | ldD (rD rS : Reg) (imm : Word)
  | ldbR (rD rS : Reg)
  | ldbA (rD : Reg) (imm : Word)
  | ldbD (rD rS : Reg) (imm : Word)
  | stR (rD rS : Reg)
  | stA (rD : Reg) (imm : Word)
  | stD (rD rS : Reg) (imm : Word)
  | stbR (rD rS : Reg)
  | stbA (rD : Reg) (imm : Word)
  | stbD (rD rS : Reg) (imm : Word)
  | ldU (rD rS : Reg)
  | ldbU (rD rS : Reg)
  | stU (rD rS : Reg)
  | stbU (rD rS : Reg)
  | cmpR (rD rS : Reg)
  | cmpI (rD : Reg) (imm : Word)
  | jmpR (cond : Cond) (rD : Reg)
  | jmpI (cond : Cond) (imm : Word)
  | callR (cond : Cond) (rD : Reg)
  | callI (cond : Cond) (imm : Word)
  | ret
  | shlR (rD rS : Reg)
  | shlI (rD : Reg) (imm : Word)
  | shrR (rD rS : Reg)
  | shrI (rD : Reg) (imm : Word)
  | rolR (rD rS : Reg)
  | rolI (rD : Reg) (imm : Word)
  | rclR (rD rS : Reg)
  | rclI (rD : Reg) (imm : Word)
  | ldcp (rD : Reg) (cr : Nat)
  | adcR (rD rS : Reg)
  | adcI (rD : Reg) (imm : Word)
  | sbbR (rD rS : Reg)
  | sbbI (rD : Reg) (imm : Word)
  | setCc (cond : Cond) (rD : Reg)
  | testR (rD rS : Reg)
  | testI (rD : Reg) (imm : Word)
  | pushLr
  | sarR (rD rS : Reg)
  | sarI (rD : Reg) (imm : Word)
  deriving DecidableEq, Repr

end Sys2Proof
end

