-- ==== Sys2Proof/Machine/State.lean ====
section
/-! DEFINITION. The state of the machine as plain data (10_state.md), its faults and refusals
(00_scope.md R4), and the state after reset (10_state.md R30, 70_reset_and_hazards.md R260). -/

namespace Sys2Proof.Machine

/-- The eight general registers (10_state.md R10). -/
structure RegFile where
  r0 : Word
  r1 : Word
  r2 : Word
  r3 : Word
  r4 : Word
  r5 : Word
  r6 : Word
  r7 : Word
  deriving DecidableEq, Repr

/-- The four flags (10_state.md R20). -/
structure Flags where
  z : Bool
  c : Bool
  s : Bool
  v : Bool
  deriving DecidableEq, Repr

/-- The frequency divisors of the four voices, 14 bits each (60_exceptions.md R225). -/
structure Sound where
  div0 : BitVec 14
  div1 : BitVec 14
  div2 : BitVec 14
  div3 : BitVec 14
  deriving DecidableEq, Repr

/-- The DMA types that are not reserved (60_exceptions.md R235). -/
inductive DmaDir where
  /-- 000 DMA_WRITE: local to external. -/
  | toExternal
  /-- 001 DMA_READ: external to local. -/
  | toLocal
  deriving DecidableEq, Repr

/-- A DMA transfer in progress (60_exceptions.md R236, R237): where it goes, what it was started with,
and the numbers of the bytes already copied, newest first. -/
structure Transfer where
  dir : DmaDir
  localStart : Word
  extStart : Nat
  count : Word
  copied : List Nat
  deriving DecidableEq, Repr

/-- The state behind the peripheral registers (10_state.md R29). -/
structure Periph where
  /-- LED latch (60_exceptions.md R211). -/
  led : Byte
  /-- UART Tx FIFO, head first (R213, R214). -/
  uartTx : List Byte
  /-- UART Rx FIFO, head first (R213, R215). -/
  uartRx : List Byte
  /-- A byte arrived while the Rx FIFO was full (R216). -/
  uartOverrun : Bool
  /-- Baud rate divisor (R217). -/
  uartBaud : Word
  /-- Timer count (R220). -/
  timer : Word
  sound : Sound
  /-- The type last written to DMA_CONTROL (R231). -/
  dmaType : BitVec 3
  dmaLocal : Word
  dmaRemote : Word
  dmaCount : Word
  /-- `dma_busy` and the transfer in flight (R230, R236). -/
  dmaTransfer : Option Transfer
  deriving DecidableEq, Repr

/-- One step of a peripheral agent (70_reset_and_hazards.md R263). DESIGN CHOICE: the outside world has no
move that changes the external DRAM while the machine runs; 60_exceptions.md R242 leaves open whether its
owner may (log 28). -/
inductive AgentMove where
  /-- A byte arrives at the UART receiver (60_exceptions.md R218). -/
  | uartReceive (b : Byte)
  /-- The UART transmitter sends the head of the Tx FIFO (R218). -/
  | uartTransmit
  /-- A millisecond passes for the timer (R221). -/
  | timerTick
  /-- The DMA controller copies byte `i` of its transfer (R237). -/
  | dmaCopy (i : Nat)
  /-- The DMA controller ends a transfer whose bytes are all copied (R238, R239). -/
  | dmaFinish
  deriving DecidableEq, Repr

/-- What the outside world observes (60_exceptions.md R242). -/
inductive Output where
  /-- A value written to the LEDs (R211). -/
  | led (v : Byte)
  /-- A byte sent by the UART transmitter (R218). -/
  | uart (b : Byte)
  /-- A value written to IO_SOUND_DATA (R226). -/
  | sound (v : Word)
  deriving DecidableEq, Repr

/-- Bytes by address, addresses strictly rising (see Memory.wf in Ops.lean). -/
abbrev Memory := List Host.Cell

/-- The machine. -/
structure State where
  /-- The model's own: the open parameters, fixed for a machine (00_scope.md R3, log 1). -/
  cfg : Config
  regs : RegFile
  /-- The instruction pointer (10_state.md R14). -/
  pc : Word
  /-- The link register (10_state.md R18). -/
  lr : Word
  flags : Flags
  /-- Local RAM: the bytes written since launch or placed by the loader (10_state.md R28). -/
  mem : Memory
  periph : Periph
  /-- The external DRAM: the bytes that differ from its launch content (60_exceptions.md R230). Only the
  machine's own transfers change it (log 28). -/
  ext : Memory
  /-- The model's own: RAM addresses the processor has written, kept only under IFETCH_COHERENT =
  refuse_self_modifying (20_memory.md R60, log 15). -/
  selfWritten : List Nat
  /-- The model's own: the agents' moves still to come, one list per step (log 8). -/
  agenda : List (List AgentMove)
  /-- The model's own: what the outside world has seen, oldest first (log 14). -/
  output : List Output
  /-- The model's own: how many free values have been drawn (log 7). -/
  draws : Nat
  deriving DecidableEq, Repr

/-- How a run goes wrong (00_scope.md R4): the manual calls the behaviour undefined or illegal, or says
nothing of it and the spec raises Undefined. Every one of them is safe: no later state is claimed. -/
inductive Fault where
  /-- A word access at an odd address (20_memory.md R50). Raised by LD, ST, PUSH, POP, PUSHLR. Safe. -/
  | misalignedAccess
  /-- A fetch at an odd address (20_memory.md R48). Raised by the fetch. Safe. -/
  | misalignedFetch
  /-- A taken JMP or CALL to an odd address, or RET with an odd LR (45_control.md R161 to R163). Safe. -/
  | misalignedTarget
  /-- A fetch from 0xFF00..0xFFFF (20_memory.md R48). Raised by the fetch. Safe. -/
  | fetchFromPeripheral
  /-- An access between RAM_SIZE and 0xFEFF (20_memory.md R41). Raised by any access, and by the start
  of a DMA transfer that reaches there. Safe. -/
  | noMemory
  /-- A read of a RAM byte that nothing has written (10_state.md R31). Raised by fetches and reads. Safe. -/
  | neverWritten
  /-- An access to 0xFF01 or 0xFF12..0xFFFF (20_memory.md R44). Raised by any data access. Safe. -/
  | noPeripheralRegister
  /-- Illegal: a byte access to a 16 bit peripheral register (20_memory.md R45). Safe. -/
  | byteAccessToWordRegister
  /-- Illegal: a word access to an 8 bit peripheral register (20_memory.md R45). Safe. -/
  | wordAccessToByteRegister
  /-- A write to IO_UART_STATUS (60_exceptions.md R210, R216). Safe. -/
  | writeToReadOnly
  /-- A write to IO_UART_DATA with the Tx FIFO full (60_exceptions.md R214). Safe. -/
  | uartTxFull
  /-- A reserved type written to DMA_CONTROL (60_exceptions.md R235). Safe. -/
  | dmaReservedType
  /-- A DMA register written during a transfer (60_exceptions.md R236). Safe. -/
  | dmaWriteWhileBusy
  /-- A transfer started with an odd local address (60_exceptions.md R236). Safe. -/
  | dmaOddLocal
  /-- A transfer started with a count of zero or an odd count (60_exceptions.md R234). Safe. -/
  | dmaBadCount
  /-- A transfer whose local range reaches the peripheral region or wraps (60_exceptions.md R237). Safe. -/
  | dmaBadRange
  /-- LD or ST with the displacement flag set and the immediate flag clear (44_load_store.md R154). Safe. -/
  | displacementWithoutImmediate
  deriving DecidableEq, Repr

/-- What the model has no meaning for (00_scope.md R4, `Reserved`). All safe. -/
inductive Refusal where
  /-- The instruction has no meaning in this model yet. Raised by exec's arms only. Safe. -/
  | notModelled (mnemonic : String)
  /-- A reserved instruction word (30_encoding.md R72, R86, R87). Raised by step's decoding. Safe. -/
  | reserved (r : ReservedReason)
  /-- LDCP of cr1..cr15 under UNIMPL_CR_READ = refuse (10_state.md R27). Raised by LDCP. Safe. -/
  | unimplementedCoprocessorRegister
  /-- A fetched byte was written by the processor, under IFETCH_COHERENT = refuse_self_modifying
  (20_memory.md R60). Raised by the fetch. Safe. -/
  | selfModified
  deriving DecidableEq, Repr

/-- The answer of an operation that yields a value, or stops as a step does. -/
abbrev Result (α : Type) := Host.Outcome α Fault Refusal

/-- Right after reset of a machine with parameters `c` (70_reset_and_hazards.md R260): pc at RESET_PC,
both FIFOs empty, no overrun, no transfer (launch premises, 10_state.md R30), no RAM byte written. Every
other register is zero by DESIGN CHOICE (log 3, log 4). -/
def State.launch (c : Config) : State where
  cfg := c
  regs := { r0 := 0, r1 := 0, r2 := 0, r3 := 0, r4 := 0, r5 := 0, r6 := 0, r7 := 0 }
  pc := c.resetPc
  lr := 0
  flags := { z := false, c := false, s := false, v := false }
  mem := []
  periph :=
    { led := 0, uartTx := [], uartRx := [], uartOverrun := false, uartBaud := 0, timer := 0,
      sound := { div0 := 0, div1 := 0, div2 := 0, div3 := 0 },
      dmaType := 0, dmaLocal := 0, dmaRemote := 0, dmaCount := 0, dmaTransfer := none }
  ext := []
  selfWritten := []
  agenda := []
  output := []
  draws := 0

/-- Right after reset, with the standard parameters (log 2). -/
def State.reset : State := State.launch Config.standard

end Sys2Proof.Machine
end

