-- ==== Sys2Proof/Machine/Ops.lean ====
section
/-! DEFINITION. The named operations over registers, local RAM, the external DRAM and free values. The
hardware has no exceptions, traps or interrupts (60_exceptions.md R200, R202, R204), so there is no
operation that takes one and none that returns from one. -/

namespace Sys2Proof.Machine

/-! ### Sequencing -/

/-- Go on with what `x` yields; a fault or a refusal of `x` is the answer (60_exceptions.md R201). -/
def andThen {α β : Type} (x : Result α) (f : α → Result β) : Result β :=
  match x with
  | .next a => f a
  | .fault r => .fault r
  | .refused r => .refused r

/-! ### Registers -/

/-- The register's value. -/
def RegFile.get (f : RegFile) : Reg → Word
  | .r0 => f.r0 | .r1 => f.r1 | .r2 => f.r2 | .r3 => f.r3
  | .r4 => f.r4 | .r5 => f.r5 | .r6 => f.r6 | .r7 => f.r7

/-- The file with one register replaced. No register is hard-wired (10_state.md R10). -/
def RegFile.set (f : RegFile) (r : Reg) (v : Word) : RegFile :=
  match r with
  | .r0 => { f with r0 := v }
  | .r1 => { f with r1 := v }
  | .r2 => { f with r2 := v }
  | .r3 => { f with r3 := v }
  | .r4 => { f with r4 := v }
  | .r5 => { f with r5 := v }
  | .r6 => { f with r6 := v }
  | .r7 => { f with r7 := v }

/-- `x[r]`. -/
def State.reg (s : State) (r : Reg) : Word := s.regs.get r

/-- `x[r] <- v`. -/
def State.setReg (s : State) (r : Reg) (v : Word) : State := { s with regs := s.regs.set r v }

/-- `pc <- v`. -/
def State.setPc (s : State) (v : Word) : State := { s with pc := v }

/-- `LR <- v`. -/
def State.setLr (s : State) (v : Word) : State := { s with lr := v }

/-- Z, C, S, V all written. -/
def State.setFlags (s : State) (f : Flags) : State := { s with flags := f }

/-- The peripheral state replaced. -/
def State.setPeriph (s : State) (p : Periph) : State := { s with periph := p }

/-- `pc <- next_pc` for an instruction of `size` bytes, modulo 65536 (10_state.md R15, R17). -/
def State.advance (s : State) (size : Word) : State := s.setPc (s.pc + size)

/-- One more thing seen by the outside world. -/
def State.emit (s : State) (o : Output) : State := { s with output := s.output ++ [o] }

/-- `n` free values have been drawn (log 7). -/
def State.drawn (s : State) (n : Nat) : State := { s with draws := s.draws + n }

/-! ### Bytes by address -/

/-- The byte listed at an address. -/
def Memory.read : Memory → Nat → Option Byte
  | [], _ => none
  | (k, v) :: rest, a => if k = a then some v else Memory.read rest a

/-- The memory with `b` listed at `a`. -/
def Memory.write : Memory → Nat → Byte → Memory
  | [], a, b => [(a, b)]
  | (k, v) :: rest, a, b =>
    if a < k then (a, b) :: (k, v) :: rest
    else if a = k then (a, b) :: rest
    else (k, v) :: Memory.write rest a b

/-- The memory with nothing listed at `a`. -/
def Memory.erase : Memory → Nat → Memory
  | [], _ => []
  | (k, v) :: rest, a => if a = k then Memory.erase rest a else (k, v) :: Memory.erase rest a

/-- The canonical form: addresses strictly rising. In local RAM an unlisted byte has no value, so no
entry can equal what an unlisted byte reads as (log 5). -/
abbrev Memory.wf (m : Memory) : Prop := m.Pairwise (fun x y => x.1 < y.1)

/-! ### Local RAM (20_memory.md R41, R46, R47) -/

/-- What a byte of local RAM reads as: what was last written there, or nothing (log 5). -/
def State.ramByte (s : State) (a : Nat) : Option Byte := Memory.read s.mem a

/-- An address put into a rising list without repeats. -/
def noteAddress : List Nat → Nat → List Nat
  | [], a => [a]
  | k :: rest, a => if a < k then a :: k :: rest else if a = k then k :: rest else k :: noteAddress rest a

/-- A byte of local RAM written by an agent that is not the processor. -/
def State.setRam (s : State) (a : Nat) (b : Byte) : State := { s with mem := Memory.write s.mem a b }

/-- A byte of local RAM written by the processor; IFETCH_COHERENT = refuse_self_modifying needs to know
where (20_memory.md R60). -/
def State.storeRam (s : State) (a : Nat) (b : Byte) : State :=
  match s.cfg.ifetchCoherent with
  | .yes => s.setRam a b
  | .refuseSelfModifying => { s.setRam a b with selfWritten := noteAddress s.selfWritten a }

/-! ### The external DRAM (60_exceptions.md R230, R233, R237) -/

/-- The address width of EXT_DRAM: the 16 bits of DMA_REMOTE_ADDRESS and those below (R233). -/
def extWidth : Nat := 16 + Config.extLowBits

/-- `ext_base(dma_remote)`: `dma_remote` followed by the low-order bits (R233). -/
def extBase (v : Word) : Nat := (v ++ Config.extLow v).toNat

/-- The byte of the external DRAM that an address of a transfer reaches: itself, if it has no more bits
than the address width; past that, open (log 13). -/
def extAddress (a : Nat) : Option Nat :=
  if a < 2 ^ extWidth then some a else (Config.extBeyond a).map fun k => k.toNat

/-- What a byte of the external DRAM reads as: what was last written, or its launch content. -/
def State.extByte (s : State) (a : Nat) : Byte :=
  match Memory.read s.ext a with
  | some b => b
  | none => Config.extDram a

/-- A byte of the external DRAM written; the launch content is not listed. -/
def State.setExt (s : State) (a : Nat) (b : Byte) : State :=
  { s with ext := if b = Config.extDram a then Memory.erase s.ext a else Memory.write s.ext a b }

/-- A byte that a transfer writes at an external address, where there is memory. -/
def State.storeExt (s : State) (a : Nat) (b : Byte) : State :=
  match extAddress a with
  | some k => s.setExt k b
  | none => s

/-- The canonical form of the external DRAM: rising addresses, no entry equal to the launch content. -/
abbrev Memory.extWf (m : Memory) : Prop := Memory.wf m ∧ ∀ c ∈ m, c.2 ≠ Config.extDram c.1

end Sys2Proof.Machine
end

