-- ==== Sys2Proof/Machine/Flags.lean ====
section
/-! DEFINITION. The flag computations (10_state.md R20 to R24; 46_shift_rotate.md) and the condition
codes (45_control.md R160). -/

namespace Sys2Proof.Machine

/-- A 16 bit result and the flags it leaves. -/
structure AluResult where
  value : Word
  flags : Flags
  deriving DecidableEq, Repr

/-- One bit as a number. -/
def bitNat (b : Bool) : Nat := if b then 1 else 0

/-- `ZS(r)` (R21) with C and V as given. -/
def withZS (r : Word) (c v : Bool) : AluResult :=
  { value := r, flags := { z := decide (r = 0), c := c, s := r.getLsbD 15, v := v } }

/-- `AddFlags(a, b, cin)` (R22). -/
def addFlags (cfg : Config) (a b : Word) (cin : Bool) : AluResult :=
  let t := a.toNat + b.toNat + bitNat cin
  let c15 := t.testBit 16
  let c14 := (a.toNat % 32768 + b.toNat % 32768 + bitNat cin).testBit 15
  withZS (BitVec.ofNat 16 t) c15
    (match cfg.vRule with
     | .signedOverflow => c14 ^^ c15
     | .carry14AndNotCarry15 => c14 && !c15)

/-- C of a subtraction from whether a borrow occurred, and a borrow-in from C: SUB_CARRY (R23). -/
def borrowBit (cfg : Config) (b : Bool) : Bool :=
  match cfg.subCarry with
  | .borrow => b
  | .notBorrow => !b

/-- Whether an integer is a signed 16 bit number. -/
def fitsSigned (t : Int) : Bool := decide (-32768 ≤ t ∧ t ≤ 32767)

/-- `SubFlags(a, b, bin)` (R23), `bin` being a borrow whatever SUB_CARRY says. -/
def subFlags (cfg : Config) (a b : Word) (bin : Bool) : AluResult :=
  let t : Int := (a.toNat : Int) - b.toNat - bitNat bin
  withZS (BitVec.ofInt 16 t) (borrowBit cfg (decide (t < 0)))
    (!fitsSigned (a.toInt - b.toInt - bitNat bin))

/-- `LogicFlags(r)` (R24). -/
def logicFlags (r : Word) : AluResult := withZS r false false

/-! ### Shifts (46_shift_rotate.md) -/

/-- The number of positions SHL, SHR, SAR and RCL move by, or none where SHIFT_AMOUNT_GE16 leaves the
outcome unspecified (R180, R186). -/
def shiftAmount (cfg : Config) (op2 : Word) : Option Nat :=
  if op2.toNat < 16 then some op2.toNat
  else match cfg.shiftAmountGe16 with
    | .unspecified => none
    | .full => some op2.toNat
    | .low4 => some (op2.toNat % 16)

/-- The result of a shift by `n` (R181, R182, R183; for larger `n` R186). -/
def shiftValue (op : ShiftOp) (x : Word) (n : Nat) : Word :=
  match op with
  | .shl => BitVec.ofNat 16 (x.toNat <<< n)
  | .shr => BitVec.ofNat 16 (x.toNat >>> n)
  | .sar => BitVec.ofInt 16 (x.toInt / 2 ^ n)

/-- The last bit shifted out, 0 when nothing is shifted (R181, R182, R183, R186). -/
def lastBitOut (op : ShiftOp) (x : Word) (n : Nat) : Bool :=
  match op with
  | .shl => (x.toNat <<< n).testBit 16
  | .shr => if n = 0 then false else x.toNat.testBit (n - 1)
  | .sar => if n = 0 then false else x.getLsbD (min (n - 1) 15)

/-- SHIFT_CARRY (D11). -/
def shiftCarry (cfg : Config) (op : ShiftOp) (x : Word) (n : Nat) (c : Bool) : Bool :=
  match cfg.shiftCarry with
  | .lastBitOut => lastBitOut op x n
  | .other => Config.shiftCarryBit op x n c

/-- SHL, SHR, SAR by `n`: Z, S from the result, V cleared. -/
def shiftFlags (cfg : Config) (op : ShiftOp) (x : Word) (n : Nat) (c : Bool) : AluResult :=
  withZS (shiftValue op x n) (shiftCarry cfg op x n c) false

/-- ROL (R184): only the amount modulo 16 matters. -/
def rolValue (x op2 : Word) : Word := x.rotateLeft (op2.toNat % 16)

/-- RCL (R185): the 17 bits of C above x, rotated left by `n` modulo 17 (R186). -/
def rclFlags (x : Word) (n : Nat) (c : Bool) : AluResult :=
  let t : BitVec 17 := (BitVec.ofBool c ++ x).rotateLeft (n % 17)
  withZS (t.extractLsb' 0 16) (t.getLsbD 16) false

/-! ### cr0 and the condition codes -/

/-- cr0 as a word: bits 15..4 zero, then V, S, C, Z (R20, R26). -/
def Flags.toWord (f : Flags) : Word :=
  0#12 ++ BitVec.ofBool f.v ++ BitVec.ofBool f.s ++ BitVec.ofBool f.c ++ BitVec.ofBool f.z

/-- `cond(cc)` (45_control.md R160): the Expression column, LS by LS_EXPR. -/
def condHolds (cfg : Config) (cond : Cond) (f : Flags) : Bool :=
  match cond with
  | .nv => false
  | .eq => f.z
  | .ne => !f.z
  | .os => f.v
  | .oc => !f.v
  | .hi => f.c && !f.z
  | .ls =>
    match cfg.lsExpr with
    | .conj => !f.c && f.z
    | .disj => !f.c || f.z
  | .p => !f.s
  | .n => f.s
  | .cs => f.c
  | .cc => !f.c
  | .ge => f.s == f.v
  | .g => f.s == f.v && !f.z
  | .le => f.z || f.s != f.v
  | .l => f.s != f.v
  | .al => true

end Sys2Proof.Machine
end

