-- ==== Sys2Proof/Machine/Operands.lean ====
section
/-! DEFINITION. The operand forms: `op2` (30_encoding.md R76) and the addressing modes of LD and ST
(44_load_store.md R155). -/

namespace Sys2Proof.Machine

/-- A register or the immediate word: `op2`, the value of PUSH, the target of JMP and CALL. -/
inductive Operand where
  | reg (r : Reg)
  | imm (w : Word)
  deriving DecidableEq, Repr

/-- The operand's 16 bit value; the immediate word is used as it stands (R76). -/
def Operand.value (o : Operand) (s : State) : Word :=
  match o with
  | .reg r => s.reg r
  | .imm w => w

/-- Bytes of the instruction: the immediate form has a second word (R74). -/
def Operand.size : Operand → Word
  | .reg _ => 2
  | .imm _ => 4

/-- The memory operand of LD and ST. -/
inductive Address where
  /-- `[rS]` -/
  | reg (r : Reg)
  /-- `[immediate]` -/
  | abs (imm : Word)
  /-- `[rS+immediate]` -/
  | disp (r : Reg) (imm : Word)
  deriving DecidableEq, Repr

/-- The effective address EA, modulo 65536 (R155; 20_memory.md R52). -/
def Address.value (a : Address) (s : State) : Word :=
  match a with
  | .reg r => s.reg r
  | .abs imm => imm
  | .disp r imm => s.reg r + imm

/-- Bytes of the instruction (R155). -/
def Address.size : Address → Word
  | .reg _ => 2
  | .abs _ => 4
  | .disp _ _ => 4

end Sys2Proof.Machine
end

