-- ==== Sys2Proof/Machine/Arithmetic.lean ====
section
/-! DEFINITION. The arithmetic instructions (40_arithmetic.md R100 to R106). -/

namespace Sys2Proof.Machine

/-- A result and its flags written back, then the next instruction (40_arithmetic.md, template). -/
def writeResult (s : State) (rD : Reg) (a : AluResult) (size : Word) : State :=
  ((s.setReg rD a.value).setFlags a.flags).advance size

/-- Only the flags written, then the next instruction (R105; 43_logic.md R144). -/
def writeFlags (s : State) (a : AluResult) (size : Word) : State :=
  (s.setFlags a.flags).advance size

/-- ADD (R100). -/
def opAdd (rD : Reg) (op2 : Operand) (s : State) : Result State :=
  .next (writeResult s rD (addFlags s.cfg (s.reg rD) (op2.value s) false) op2.size)

/-- SUB (R101). -/
def opSub (rD : Reg) (op2 : Operand) (s : State) : Result State :=
  .next (writeResult s rD (subFlags s.cfg (s.reg rD) (op2.value s) false) op2.size)

/-- ADC (R102): the old C is the carry-in. -/
def opAdc (rD : Reg) (op2 : Operand) (s : State) : Result State :=
  .next (writeResult s rD (addFlags s.cfg (s.reg rD) (op2.value s) s.flags.c) op2.size)

/-- SBB (R103): the borrow-in is the old C, or its complement under SUB_CARRY = not_borrow. -/
def opSbb (rD : Reg) (op2 : Operand) (s : State) : Result State :=
  .next (writeResult s rD
    (subFlags s.cfg (s.reg rD) (op2.value s) (borrowBit s.cfg s.flags.c)) op2.size)

/-- CMP (R105): SUB's flags, no register written. -/
def opCmp (rD : Reg) (op2 : Operand) (s : State) : Result State :=
  .next (writeFlags s (subFlags s.cfg (s.reg rD) (op2.value s) false) op2.size)

/-- ADD rD, rS (R100). -/
def execAddR (rD rS : Reg) (s : State) : Result State := opAdd rD (.reg rS) s

/-- ADD rD, imm (R100). -/
def execAddI (rD : Reg) (imm : Word) (s : State) : Result State := opAdd rD (.imm imm) s

/-- SUB rD, rS (R101). -/
def execSubR (rD rS : Reg) (s : State) : Result State := opSub rD (.reg rS) s

/-- SUB rD, imm (R101). -/
def execSubI (rD : Reg) (imm : Word) (s : State) : Result State := opSub rD (.imm imm) s

/-- ADC rD, rS (R102). -/
def execAdcR (rD rS : Reg) (s : State) : Result State := opAdc rD (.reg rS) s

/-- ADC rD, imm (R102). -/
def execAdcI (rD : Reg) (imm : Word) (s : State) : Result State := opAdc rD (.imm imm) s

/-- SBB rD, rS (R103). -/
def execSbbR (rD rS : Reg) (s : State) : Result State := opSbb rD (.reg rS) s

/-- SBB rD, imm (R103). -/
def execSbbI (rD : Reg) (imm : Word) (s : State) : Result State := opSbb rD (.imm imm) s

/-- CMP rD, rS (R105). -/
def execCmpR (rD rS : Reg) (s : State) : Result State := opCmp rD (.reg rS) s

/-- CMP rD, imm (R105). -/
def execCmpI (rD : Reg) (imm : Word) (s : State) : Result State := opCmp rD (.imm imm) s

/-- NEG rD (R104): the subtraction 0 - rD. -/
def execNegR (rD : Reg) (s : State) : Result State :=
  .next (writeResult s rD (subFlags s.cfg 0 (s.reg rD) false) 2)

end Sys2Proof.Machine
end

