-- ==== Sys2Proof/Machine/Control.lean ====
section
/-! DEFINITION. Control transfer (45_control.md R161 to R163). -/

namespace Sys2Proof.Machine

/-- `pc <- target`, which must be even (10_state.md R16). -/
def jumpTo (target : Word) (s : State) : Result State :=
  if target.toNat % 2 = 1 then .fault .misalignedTarget else .next (s.setPc target)

/-- JMP (R161). -/
def opJmp (cond : Cond) (target : Operand) (s : State) : Result State :=
  if condHolds s.cfg cond s.flags then jumpTo (target.value s) s else .next (s.advance target.size)

/-- CALL (R162): LR gets the address of the instruction after the CALL (D6). -/
def opCall (cond : Cond) (target : Operand) (s : State) : Result State :=
  if condHolds s.cfg cond s.flags then jumpTo (target.value s) (s.setLr (s.pc + target.size))
  else .next (s.advance target.size)

/-- JMP.cc rD (R161). -/
def execJmpR (cond : Cond) (rD : Reg) (s : State) : Result State := opJmp cond (.reg rD) s

/-- JMP.cc imm (R161). -/
def execJmpI (cond : Cond) (imm : Word) (s : State) : Result State := opJmp cond (.imm imm) s

/-- CALL.cc rD (R162). -/
def execCallR (cond : Cond) (rD : Reg) (s : State) : Result State := opCall cond (.reg rD) s

/-- CALL.cc imm (R162). -/
def execCallI (cond : Cond) (imm : Word) (s : State) : Result State := opCall cond (.imm imm) s

/-- RET (R163). -/
def execRet (s : State) : Result State := jumpTo s.lr s

end Sys2Proof.Machine
end

