-- ==== Sys2Proof/WellFormed.lean ====
section
/-! DEFINITION. Which instruction terms an encoding exists for. Register numbers, condition codes and
immediates cannot be out of range by their types; the coprocessor register number can: the manual
speaks of 32 special registers, the field of LDCP selects cr0 to cr15 only (10_state.md R25,
30_encoding.md R82, 90_conflicts.md C1). -/

namespace Sys2Proof

/-- LDCP names one of cr0 to cr15; every other instruction is well formed as it stands. -/
def Instr.wellFormed : Instr → Bool
  | .ldcp _ cr => decide (cr < 16)
  | .addR .. | .addI .. | .subR .. | .subI .. | .pushR .. | .pushI .. | .pop .. | .movB0 ..
  | .movB1 .. | .movB2 .. | .movB3 .. | .movB4 .. | .movB5 .. | .movB6 .. | .movB7 .. | .movR ..
  | .movI .. | .andR .. | .andI .. | .orR .. | .orI .. | .xorR .. | .xorI .. | .notR ..
  | .negR .. | .ldR .. | .ldA .. | .ldD .. | .ldbR .. | .ldbA .. | .ldbD .. | .stR .. | .stA ..
  | .stD .. | .stbR .. | .stbA .. | .stbD .. | .ldU .. | .ldbU .. | .stU .. | .stbU ..
  | .cmpR .. | .cmpI .. | .jmpR .. | .jmpI .. | .callR .. | .callI .. | .ret | .shlR ..
  | .shlI .. | .shrR .. | .shrI .. | .rolR .. | .rolI .. | .rclR .. | .rclI .. | .adcR ..
  | .adcI .. | .sbbR .. | .sbbI .. | .setCc .. | .testR .. | .testI .. | .pushLr | .sarR ..
  | .sarI .. => true

end Sys2Proof
end

