-- ==== Sys2Proof/Decode.lean ====
section
/-! DEFINITION. Bytes to instructions and back (30_encoding.md). The decoder is total and refuses by
reason; the encoder is written from the same formats (R77 to R82, R92). -/

namespace Sys2Proof

/-! ### Byte order (20_memory.md R46, R47, R62) -/

/-- The word whose byte at the lower address is `b0` and at the next `b1`. -/
def wordOfBytes (o : ByteOrder) (b0 b1 : Byte) : Word :=
  match o with
  | .little => b1 ++ b0
  | .big => b0 ++ b1

/-- The byte of `w` that stands at the lower address. -/
def firstByte (o : ByteOrder) (w : Word) : Byte :=
  match o with
  | .little => w.extractLsb' 0 8
  | .big => w.extractLsb' 8 8

/-- The byte of `w` that stands at the higher address. -/
def secondByte (o : ByteOrder) (w : Word) : Byte :=
  match o with
  | .little => w.extractLsb' 8 8
  | .big => w.extractLsb' 0 8

/-- A word as it lies in memory, lower address first. -/
def wordBytes (o : ByteOrder) (w : Word) : List Byte := [firstByte o w, secondByte o w]

/-! ### Extension of a byte to a word (00_scope.md section 5.1) -/

/-- `zext_16`. -/
def zext (b : Byte) : Word := b.zeroExtend 16

/-- `sext_16`. -/
def sext (b : Byte) : Word := b.signExtend 16

/-! ### Register numbers and condition codes -/

/-- The register a 3 bit field selects (10_state.md R10). -/
def Reg.ofBits (b : BitVec 3) : Reg :=
  match b.toNat with
  | 0 => .r0 | 1 => .r1 | 2 => .r2 | 3 => .r3 | 4 => .r4 | 5 => .r5 | 6 => .r6 | _ => .r7

/-- The 3 bit field of a register. -/
def Reg.toBits : Reg → BitVec 3
  | .r0 => 0 | .r1 => 1 | .r2 => 2 | .r3 => 3 | .r4 => 4 | .r5 => 5 | .r6 => 6 | .r7 => 7

/-- The condition a 4 bit field names (45_control.md R160). -/
def Cond.ofBits (b : BitVec 4) : Cond :=
  match b.toNat with
  | 0 => .nv | 1 => .eq | 2 => .ne | 3 => .os | 4 => .oc | 5 => .hi | 6 => .ls | 7 => .p
  | 8 => .n | 9 => .cs | 10 => .cc | 11 => .ge | 12 => .g | 13 => .le | 14 => .l | _ => .al

/-- The 4 bit field of a condition. -/
def Cond.toBits : Cond → BitVec 4
  | .nv => 0 | .eq => 1 | .ne => 2 | .os => 3 | .oc => 4 | .hi => 5 | .ls => 6 | .p => 7
  | .n => 8 | .cs => 9 | .cc => 10 | .ge => 11 | .g => 12 | .le => 13 | .l => 14 | .al => 15

/-- The pointer register's field of PUSH and POP under STACK_RS_FIELD (41_stack.md, before R120). -/
def stackField (c : Config) (b : BitVec 3) : BitVec 3 :=
  match c.stackRsField with
  | .direct => b
  | .complemented => ~~~b

/-! ### Fields of the instruction word (R71) -/

/-- Bit 15, `Imm`: an immediate word follows (R74). -/
def immBit (w : Word) : Bool := w.getLsbD 15

/-- Bits 13..8, the opcode. -/
def opcodeOf (w : Word) : Nat := (w.extractLsb' 8 6).toNat

/-- Bits 2..0, the register rD. -/
def rDOf (w : Word) : Reg := Reg.ofBits (w.extractLsb' 0 3)

/-- Bits 5..3 as they stand. -/
def rSField (w : Word) : BitVec 3 := w.extractLsb' 3 3

/-- Bits 5..3, the register rS. -/
def rSOf (w : Word) : Reg := Reg.ofBits (rSField w)

/-- Bits 6..3, the condition code (R80). -/
def ccOf (w : Word) : Cond := Cond.ofBits (w.extractLsb' 3 4)

/-- Bits 7..0 (R78). -/
def dataOf (w : Word) : Byte := w.extractLsb' 0 8

/-! ### Decoding the first word -/

/-- What the first word says: refused, a whole instruction, or an instruction still in need of its
immediate word (R74). -/
inductive Head where
  | reserved (r : ReservedReason)
  | short (i : Instr)
  | long (k : Word → Instr)

/-- Format RR with a register and an immediate form (R77). -/
def headRR (w : Word) (short : Reg → Reg → Instr) (long : Reg → Word → Instr) : Head :=
  if w.extractLsb' 6 2 ≠ 0 then .reserved .reservedField
  else if immBit w then
    if rSField w ≠ 0 then .reserved .unusedField else .long (long (rDOf w))
  else .short (short (rDOf w) (rSOf w))

/-- PUSH: format RR whose immediate form leaves rD unused (R77, R87; 41_stack.md R120). -/
def headPush (c : Config) (w : Word) : Head :=
  let ptr := Reg.ofBits (stackField c (rSField w))
  if w.extractLsb' 6 2 ≠ 0 then .reserved .reservedField
  else if immBit w then
    if w.extractLsb' 0 3 ≠ 0 then .reserved .unusedField else .long (.pushI ptr)
  else .short (.pushR (rDOf w) ptr)

/-- POP: format RR without an immediate form (R87; 41_stack.md R121). -/
def headPop (c : Config) (w : Word) : Head :=
  if immBit w then .reserved .immediateBit
  else if w.extractLsb' 6 2 ≠ 0 then .reserved .reservedField
  else .short (.pop (rDOf w) (Reg.ofBits (stackField c (rSField w))))

/-- NOT and NEG: format RR, source field 000, no immediate form (R77, R87). -/
def headR (w : Word) (short : Reg → Instr) : Head :=
  if immBit w then .reserved .immediateBit
  else if w.extractLsb' 3 5 ≠ 0 then .reserved .reservedField
  else .short (short (rDOf w))

/-- Format B, the byte MOV (R78). -/
def headB (w : Word) (short : Byte → Instr) : Head :=
  if immBit w then .reserved .immediateBit else .short (short (dataOf w))

/-- Format M (R79) of one width: the four combinations of `imm` and `disp` (44_load_store.md R155, R154). -/
def headM (w : Word) (reg : Reg → Reg → Instr) (abs : Reg → Word → Instr)
    (disp : Reg → Reg → Word → Instr) (undef : Reg → Reg → Instr) : Head :=
  if immBit w then
    if w.getLsbD 6 then .long (disp (rDOf w) (rSOf w))
    else if rSField w ≠ 0 then .reserved .unusedField else .long (abs (rDOf w))
  else if w.getLsbD 6 then .short (undef (rDOf w) (rSOf w))
  else .short (reg (rDOf w) (rSOf w))

/-- LD and LD.b: the byte flag is bit 7 (R79). -/
def headLd (w : Word) : Head :=
  if w.getLsbD 7 then headM w .ldbR .ldbA .ldbD .ldbU else headM w .ldR .ldA .ldD .ldU

/-- ST and ST.b: the byte flag is bit 7 (R79). -/
def headSt (w : Word) : Head :=
  if w.getLsbD 7 then headM w .stbR .stbA .stbD .stbU else headM w .stR .stA .stD .stU

/-- Format C of JMP and CALL (R80, R87). -/
def headC (w : Word) (short : Cond → Reg → Instr) (long : Cond → Word → Instr) : Head :=
  if w.getLsbD 7 then .reserved .reservedField
  else if immBit w then
    if w.extractLsb' 0 3 ≠ 0 then .reserved .unusedField else .long (long (ccOf w))
  else .short (short (ccOf w) (rDOf w))

/-- SET: format C without an immediate form (R80, R87). -/
def headSet (w : Word) : Head :=
  if immBit w then .reserved .immediateBit
  else if w.getLsbD 7 then .reserved .reservedField
  else .short (.setCc (ccOf w) (rDOf w))

/-- LDCP: format P (R82, R87). -/
def headP (w : Word) : Head :=
  if immBit w then .reserved .immediateBit
  else if w.getLsbD 7 then .reserved .reservedField
  else .short (.ldcp (rDOf w) (w.extractLsb' 3 4).toNat)

/-- RET and PUSHLR: format N (R81, R87). -/
def headN (w : Word) (i : Instr) : Head :=
  if immBit w then .reserved .immediateBit
  else if dataOf w ≠ 0 then .reserved .reservedField
  else .short i

/-- Decoding the first word, by the opcode map (R84, R85). -/
def decodeHead (c : Config) (w : Word) : Head :=
  if w.getLsbD 14 then .reserved .bit14
  else match opcodeOf w with
  | 1 => headRR w .addR .addI
  | 2 => headRR w .subR .subI
  | 3 => headPush c w
  | 4 => headPop c w
  | 5 => headB w .movB0
  | 6 => headB w .movB1
  | 7 => headB w .movB2
  | 8 => headB w .movB3
  | 9 => headB w .movB4
  | 10 => headB w .movB5
  | 11 => headB w .movB6
  | 12 => headB w .movB7
  | 13 => headRR w .movR .movI
  | 14 => headRR w .andR .andI
  | 15 => headRR w .orR .orI
  | 16 => headRR w .xorR .xorI
  | 17 => headR w .notR
  | 18 => headR w .negR
  | 19 => headLd w
  | 20 => headSt w
  | 21 => headRR w .cmpR .cmpI
  | 22 => headC w .jmpR .jmpI
  | 23 => headC w .callR .callI
  | 24 => headN w .ret
  | 25 => headRR w .shlR .shlI
  | 26 => headRR w .shrR .shrI
  | 27 => headRR w .rolR .rolI
  | 28 => headRR w .rclR .rclI
  | 29 => headP w
  | 31 => headRR w .adcR .adcI
  | 32 => headRR w .sbbR .sbbI
  | 33 => headSet w
  | 34 => headRR w .testR .testI
  | 35 => headN w .pushLr
  | 36 => headRR w .sarR .sarI
  | _ => .reserved .opcode

/-! ### Decoding bytes -/

/-- The decoder's answer: an instruction and the bytes after it, a refusal by reason, or too few bytes. -/
inductive Decoded where
  | ok (i : Instr) (rest : List Byte)
  | reserved (r : ReservedReason)
  | truncated
  deriving DecidableEq, Repr

/-- The instruction at the front of a list of bytes, lower address first (R73, R74, R85). -/
def decode (c : Config) : List Byte → Decoded
  | b0 :: b1 :: rest =>
    match decodeHead c (wordOfBytes c.byteOrder b0 b1) with
    | .reserved r => .reserved r
    | .short i => .ok i rest
    | .long k =>
      match rest with
      | b2 :: b3 :: rest' => .ok (k (wordOfBytes c.byteOrder b2 b3)) rest'
      | _ => .truncated
  | _ => .truncated

/-! ### Encoding -/

/-- Format RR (R77). -/
def wordRR (imm : Bool) (opcode : Nat) (rS rD : BitVec 3) : Word :=
  BitVec.ofBool imm ++ 0#1 ++ BitVec.ofNat 6 opcode ++ 0#2 ++ rS ++ rD

/-- Format B (R78): the opcode is 5 plus the register number. -/
def wordB (rD : Nat) (data : Byte) : Word :=
  0#1 ++ 0#1 ++ BitVec.ofNat 6 (5 + rD) ++ data

/-- Format M (R79). -/
def wordM (imm : Bool) (opcode : Nat) (byte disp : Bool) (rS rD : BitVec 3) : Word :=
  BitVec.ofBool imm ++ 0#1 ++ BitVec.ofNat 6 opcode ++ BitVec.ofBool byte ++ BitVec.ofBool disp ++ rS ++ rD

/-- Format C (R80). -/
def wordC (imm : Bool) (opcode : Nat) (cc : BitVec 4) (rD : BitVec 3) : Word :=
  BitVec.ofBool imm ++ 0#1 ++ BitVec.ofNat 6 opcode ++ 0#1 ++ cc ++ rD

/-- Format P (R82). -/
def wordP (opcode : Nat) (cr : BitVec 4) (rD : BitVec 3) : Word :=
  0#1 ++ 0#1 ++ BitVec.ofNat 6 opcode ++ 0#1 ++ cr ++ rD

/-- Format N (R81). -/
def wordN (opcode : Nat) : Word := 0#1 ++ 0#1 ++ BitVec.ofNat 6 opcode ++ 0#8

/-- The one or two words of an instruction (R84, R92). -/
def encodeWords (c : Config) : Instr → List Word
  | .addR d s => [wordRR false 1 s.toBits d.toBits]
  | .addI d imm => [wordRR true 1 0 d.toBits, imm]
  | .subR d s => [wordRR false 2 s.toBits d.toBits]
  | .subI d imm => [wordRR true 2 0 d.toBits, imm]
  | .pushR d s => [wordRR false 3 (stackField c s.toBits) d.toBits]
  | .pushI s imm => [wordRR true 3 (stackField c s.toBits) 0, imm]
  | .pop d s => [wordRR false 4 (stackField c s.toBits) d.toBits]
  | .movB0 b => [wordB 0 b]
  | .movB1 b => [wordB 1 b]
  | .movB2 b => [wordB 2 b]
  | .movB3 b => [wordB 3 b]
  | .movB4 b => [wordB 4 b]
  | .movB5 b => [wordB 5 b]
  | .movB6 b => [wordB 6 b]
  | .movB7 b => [wordB 7 b]
  | .movR d s => [wordRR false 13 s.toBits d.toBits]
  | .movI d imm => [wordRR true 13 0 d.toBits, imm]
  | .andR d s => [wordRR false 14 s.toBits d.toBits]
  | .andI d imm => [wordRR true 14 0 d.toBits, imm]
  | .orR d s => [wordRR false 15 s.toBits d.toBits]
  | .orI d imm => [wordRR true 15 0 d.toBits, imm]
  | .xorR d s => [wordRR false 16 s.toBits d.toBits]
  | .xorI d imm => [wordRR true 16 0 d.toBits, imm]
  | .notR d => [wordRR false 17 0 d.toBits]
  | .negR d => [wordRR false 18 0 d.toBits]
  | .ldR d s => [wordM false 19 false false s.toBits d.toBits]
  | .ldA d imm => [wordM true 19 false false 0 d.toBits, imm]
  | .ldD d s imm => [wordM true 19 false true s.toBits d.toBits, imm]
  | .ldbR d s => [wordM false 19 true false s.toBits d.toBits]
  | .ldbA d imm => [wordM true 19 true false 0 d.toBits, imm]
  | .ldbD d s imm => [wordM true 19 true true s.toBits d.toBits, imm]
  | .stR d s => [wordM false 20 false false s.toBits d.toBits]
  | .stA d imm => [wordM true 20 false false 0 d.toBits, imm]
  | .stD d s imm => [wordM true 20 false true s.toBits d.toBits, imm]
  | .stbR d s => [wordM false 20 true false s.toBits d.toBits]
  | .stbA d imm => [wordM true 20 true false 0 d.toBits, imm]
  | .stbD d s imm => [wordM true 20 true true s.toBits d.toBits, imm]
  | .ldU d s => [wordM false 19 false true s.toBits d.toBits]
  | .ldbU d s => [wordM false 19 true true s.toBits d.toBits]
  | .stU d s => [wordM false 20 false true s.toBits d.toBits]
  | .stbU d s => [wordM false 20 true true s.toBits d.toBits]
  | .cmpR d s => [wordRR false 21 s.toBits d.toBits]
  | .cmpI d imm => [wordRR true 21 0 d.toBits, imm]
  | .jmpR cond d => [wordC false 22 cond.toBits d.toBits]
  | .jmpI cond imm => [wordC true 22 cond.toBits 0, imm]
  | .callR cond d => [wordC false 23 cond.toBits d.toBits]
  | .callI cond imm => [wordC true 23 cond.toBits 0, imm]
  | .ret => [wordN 24]
  | .shlR d s => [wordRR false 25 s.toBits d.toBits]
  | .shlI d imm => [wordRR true 25 0 d.toBits, imm]
  | .shrR d s => [wordRR false 26 s.toBits d.toBits]
  | .shrI d imm => [wordRR true 26 0 d.toBits, imm]
  | .rolR d s => [wordRR false 27 s.toBits d.toBits]
  | .rolI d imm => [wordRR true 27 0 d.toBits, imm]
  | .rclR d s => [wordRR false 28 s.toBits d.toBits]
  | .rclI d imm => [wordRR true 28 0 d.toBits, imm]
  | .ldcp d cr => [wordP 29 (BitVec.ofNat 4 cr) d.toBits]
  | .adcR d s => [wordRR false 31 s.toBits d.toBits]
  | .adcI d imm => [wordRR true 31 0 d.toBits, imm]
  | .sbbR d s => [wordRR false 32 s.toBits d.toBits]
  | .sbbI d imm => [wordRR true 32 0 d.toBits, imm]
  | .setCc cond d => [wordC false 33 cond.toBits d.toBits]
  | .testR d s => [wordRR false 34 s.toBits d.toBits]
  | .testI d imm => [wordRR true 34 0 d.toBits, imm]
  | .pushLr => [wordN 35]
  | .sarR d s => [wordRR false 36 s.toBits d.toBits]
  | .sarI d imm => [wordRR true 36 0 d.toBits, imm]

/-- An instruction as it lies in memory, lower address first (R73). -/
def encode (c : Config) (i : Instr) : List Byte :=
  (encodeWords c i).flatMap (wordBytes c.byteOrder)

/-! ### The host's numbering of an instruction's bits -/

/-- An instruction whose bits are `w` (bit 0 the least significant bit of the first word, the second
word above it, every bit from `nbits` on 0), as four bytes in memory order. -/
def tableBytes (o : ByteOrder) (nbits w : Nat) : List Byte :=
  let v := w % 2 ^ nbits
  wordBytes o (BitVec.ofNat 16 v) ++ wordBytes o (BitVec.ofNat 16 (v / 65536))

/-- What the decoder reads from the instruction whose bits are `w`, laid out by the byte order of the
standard parameters. -/
def decodeTableWord (nbits w : Nat) : Option Instr :=
  match decode Config.standard (tableBytes Config.standard.byteOrder nbits w) with
  | .ok i _ => some i
  | .reserved _ => none
  | .truncated => none

end Sys2Proof
end

