-- ==== Sys2Proof/Machine/Periph.lean ====
section
/-! DEFINITION. The peripheral registers (60_exceptions.md Part B; 20_memory.md R43 to R45) and the
steps the peripheral agents take on their own (70_reset_and_hazards.md R263). -/

namespace Sys2Proof.Machine

/-! ### Which register an address names (20_memory.md R43, R44) -/

/-- The 8 bit registers. -/
inductive ByteReg where
  | ledData | uartData | uartStatus
  deriving DecidableEq, Repr

/-- The 16 bit registers. -/
inductive WordReg where
  | uartBaud | timerData | soundData | dmaControl | dmaLocal | dmaRemote | dmaCount
  deriving DecidableEq, Repr

/-- What an address of the peripheral region belongs to. -/
inductive PeriphAt where
  | byteReg (r : ByteReg)
  | wordReg (r : WordReg)
  | nothing
  deriving DecidableEq, Repr

/-- The address map; a 16 bit register covers its address and the next (R43; 60_exceptions.md R210). -/
def periphAt (a : Word) : PeriphAt :=
  if a = 0xFF00 then .byteReg .ledData
  else if a = 0xFF02 then .byteReg .uartData
  else if a = 0xFF03 then .byteReg .uartStatus
  else if a = 0xFF04 ∨ a = 0xFF05 then .wordReg .uartBaud
  else if a = 0xFF06 ∨ a = 0xFF07 then .wordReg .timerData
  else if a = 0xFF08 ∨ a = 0xFF09 then .wordReg .soundData
  else if a = 0xFF0A ∨ a = 0xFF0B then .wordReg .dmaControl
  else if a = 0xFF0C ∨ a = 0xFF0D then .wordReg .dmaLocal
  else if a = 0xFF0E ∨ a = 0xFF0F then .wordReg .dmaRemote
  else if a = 0xFF10 ∨ a = 0xFF11 then .wordReg .dmaCount
  else .nothing

/-! ### UART -/

/-- IO_UART_STATUS (R216): bits 0 to 3, with bits 4-7 and an overrun once set left free (D31). -/
def uartStatusValue (s : State) : Byte :=
  (Config.freeByte s.draws).extractLsb' 0 4
    ++ BitVec.ofBool (s.periph.uartOverrun && Config.freeBit s.draws)
    ++ BitVec.ofBool (!s.periph.uartRx.isEmpty)
    ++ BitVec.ofBool s.periph.uartTx.isEmpty
    ++ BitVec.ofBool (decide (s.periph.uartTx.length < 8))

/-! ### Sound -/

/-- `div[k] <- d` (R225). -/
def Sound.setDiv (x : Sound) (k : BitVec 2) (d : BitVec 14) : Sound :=
  match k.toNat with
  | 0 => { x with div0 := d }
  | 1 => { x with div1 := d }
  | 2 => { x with div2 := d }
  | _ => { x with div3 := d }

/-- `div[k]` (R225). -/
def Sound.div (x : Sound) (k : BitVec 2) : BitVec 14 :=
  match k.toNat with
  | 0 => x.div0
  | 1 => x.div1
  | 2 => x.div2
  | _ => x.div3

/-- The frequency of voice `k` as numerator and denominator in Hz, F_CLK / (64 * div[k]) (R226); none
for a divisor of 0, whose output is not stated (D38). -/
def voiceFrequency (s : State) (k : BitVec 2) : Option (Nat × Nat) :=
  if s.periph.sound.div k = 0 then none else some (Config.fClk, 64 * (s.periph.sound.div k).toNat)

/-! ### DMA -/

/-- The types that start a transfer (R235). -/
def dmaDirOf (ty : BitVec 3) : Option DmaDir :=
  if ty = 0 then some .toExternal else if ty = 1 then some .toLocal else none

/-- A write to DMA_CONTROL (R231, R234 to R237). Bits 15..3 have no effect (log 12). -/
def startDma (s : State) (v : Word) : Result State :=
  let p := s.periph
  if p.dmaTransfer.isSome then .fault .dmaWriteWhileBusy
  else match dmaDirOf (v.extractLsb' 0 3) with
    | none => .fault .dmaReservedType
    | some dir =>
      if p.dmaLocal.toNat % 2 = 1 then .fault .dmaOddLocal
      else if p.dmaCount.toNat = 0 ∨ p.dmaCount.toNat % 2 = 1 then .fault .dmaBadCount
      else if 0xFF00 < p.dmaLocal.toNat + p.dmaCount.toNat then .fault .dmaBadRange
      else if s.cfg.ramSize < p.dmaLocal.toNat + p.dmaCount.toNat then .fault .noMemory
      else .next (s.setPeriph { p with
        dmaType := v.extractLsb' 0 3
        dmaTransfer := some
          { dir := dir, localStart := p.dmaLocal, extStart := extBase p.dmaRemote,
            count := p.dmaCount, copied := [] } })

/-- Bits 0-2 of DMA_CONTROL when read: DMA_BUSY_ENCODING (R231, D32). -/
def dmaStatusBits (s : State) : BitVec 3 :=
  match s.cfg.dmaBusyEncoding with
  | .nonzeroWhenBusy =>
    if s.periph.dmaTransfer.isSome then BitVec.ofNat 3 ((Config.freeBusyCode s.draws).val + 1) else 0
  | .unspecified => (Config.freeByte s.draws).extractLsb' 0 3

/-- A register whose content is open while a transfer runs (20_memory.md R54, log 11). -/
def dmaHeld (s : State) (v : Word) : Word × State :=
  if s.periph.dmaTransfer.isSome then (Config.freeWord s.draws, s.drawn 1) else (v, s)

/-- A write to one of the three DMA registers that hold the parameters (R232 to R234, R236). -/
def setDmaRegister (s : State) (p : Periph) : Result State :=
  if s.periph.dmaTransfer.isSome then .fault .dmaWriteWhileBusy else .next (s.setPeriph p)

/-! ### Reading and writing a register at its own size -/

/-- The read rules of the 8 bit registers: LED (R211), UART data (R215), UART status (R216). -/
def readByteReg (s : State) : ByteReg → Byte × State
  | .ledData => (s.periph.led, s)
  | .uartData =>
    match s.periph.uartRx with
    | [] => (Config.freeByte s.draws, s.drawn 1)
    | b :: rest => (b, s.setPeriph { s.periph with uartRx := rest })
  | .uartStatus => (uartStatusValue s, s.drawn 1)

/-- The write rules of the 8 bit registers: LED (R211), UART data (R214), UART status (R210, R216). -/
def writeByteReg (s : State) (r : ByteReg) (v : Byte) : Result State :=
  match r with
  | .ledData => .next ((s.setPeriph { s.periph with led := v }).emit (.led v))
  | .uartData =>
    if s.periph.uartTx.length < 8 then
      .next (s.setPeriph { s.periph with uartTx := s.periph.uartTx ++ [v] })
    else .fault .uartTxFull
  | .uartStatus => .fault .writeToReadOnly

/-- The read rules of the 16 bit registers: R217, R220, R225, R231 to R234. -/
def readWordReg (s : State) : WordReg → Word × State
  | .uartBaud => (s.periph.uartBaud, s)
  | .timerData => (s.periph.timer, s)
  | .soundData => (Config.freeWord s.draws, s.drawn 1)
  | .dmaControl => ((Config.freeWord s.draws).extractLsb' 0 13 ++ dmaStatusBits s, s.drawn 1)
  | .dmaLocal => dmaHeld s s.periph.dmaLocal
  | .dmaRemote => dmaHeld s s.periph.dmaRemote
  | .dmaCount => (Config.freeWord s.draws, s.drawn 1)

/-- The write rules of the 16 bit registers: R217, R220, R225, R231 to R234. -/
def writeWordReg (s : State) (r : WordReg) (v : Word) : Result State :=
  match r with
  | .uartBaud => .next (s.setPeriph { s.periph with uartBaud := v })
  | .timerData => .next (s.setPeriph { s.periph with timer := v })
  | .soundData =>
    .next ((s.setPeriph { s.periph with
      sound := s.periph.sound.setDiv (v.extractLsb' 14 2) (v.extractLsb' 0 14) }).emit (.sound v))
  | .dmaControl => startDma s v
  | .dmaLocal => setDmaRegister s { s.periph with dmaLocal := v }
  | .dmaRemote => setDmaRegister s { s.periph with dmaRemote := v }
  | .dmaCount => setDmaRegister s { s.periph with dmaCount := v }

/-! ### Access dispatch (60_exceptions.md R210; 20_memory.md R44, R45) -/

/-- `PeriphRead(addr, 1)`. -/
def periphReadByte (s : State) (a : Word) : Result (Byte × State) :=
  match periphAt a with
  | .byteReg r => .next (readByteReg s r)
  | .wordReg _ => .fault .byteAccessToWordRegister
  | .nothing => .fault .noPeripheralRegister

/-- `PeriphWrite(addr, 1, v)`. -/
def periphWriteByte (s : State) (a : Word) (v : Byte) : Result State :=
  match periphAt a with
  | .byteReg r => writeByteReg s r v
  | .wordReg _ => .fault .byteAccessToWordRegister
  | .nothing => .fault .noPeripheralRegister

/-- `PeriphRead(addr, 2)`, `addr` even. -/
def periphReadWord (s : State) (a : Word) : Result (Word × State) :=
  match periphAt a with
  | .byteReg _ => .fault .wordAccessToByteRegister
  | .wordReg r => .next (readWordReg s r)
  | .nothing => .fault .noPeripheralRegister

/-- `PeriphWrite(addr, 2, v)`, `addr` even. -/
def periphWriteWord (s : State) (a : Word) (v : Word) : Result State :=
  match periphAt a with
  | .byteReg _ => .fault .wordAccessToByteRegister
  | .wordReg r => writeWordReg s r v
  | .nothing => .fault .noPeripheralRegister

/-! ### The agents' own steps -/

/-- The UART receiver gets a byte: appended, or `overrun` set if the FIFO is full (R218, log 9). -/
def uartReceive (s : State) (b : Byte) : State :=
  if s.periph.uartRx.length < 8 then
    s.setPeriph { s.periph with uartRx := s.periph.uartRx ++ [b] }
  else s.setPeriph { s.periph with uartOverrun := true }

/-- The UART transmitter sends the head of the Tx FIFO (R218). -/
def uartTransmit (s : State) : State :=
  match s.periph.uartTx with
  | [] => s
  | b :: rest => (s.setPeriph { s.periph with uartTx := rest }).emit (.uart b)

/-- The timer counts down, and stays at 0 (R221, D30). -/
def timerTick (s : State) : State :=
  if s.periph.timer = 0 then s else s.setPeriph { s.periph with timer := s.periph.timer - 1 }

/-- The DMA controller moves byte `i` of transfer `t` (R237). A local byte nothing has written is
copied out as a free value (log 11), and one is copied in where the DRAM has no byte (log 13). -/
def dmaMoveByte (s : State) (t : Transfer) (i : Nat) : State :=
  match t.dir with
  | .toExternal =>
    match s.ramByte (t.localStart.toNat + i) with
    | some b => s.storeExt (t.extStart + i) b
    | none => (s.storeExt (t.extStart + i) (Config.freeByte s.draws)).drawn 1
  | .toLocal =>
    match extAddress (t.extStart + i) with
    | some k => s.setRam (t.localStart.toNat + i) (s.extByte k)
    | none => (s.setRam (t.localStart.toNat + i) (Config.freeByte s.draws)).drawn 1

/-- The DMA controller copies byte `i`, if a transfer is in progress that still has it to copy (R237). -/
def dmaCopy (s : State) (i : Nat) : State :=
  match s.periph.dmaTransfer with
  | none => s
  | some t =>
    if i < t.count.toNat ∧ i ∉ t.copied then
      (dmaMoveByte s t i).setPeriph
        { s.periph with dmaTransfer := some { t with copied := i :: t.copied } }
    else s

/-- The DMA controller ends a transfer whose bytes are all copied (R238, R239). -/
def dmaFinish (s : State) : State :=
  match s.periph.dmaTransfer with
  | none => s
  | some t =>
    if t.copied.length = t.count.toNat then
      (s.setPeriph { s.periph with
        dmaLocal := t.localStart + t.count
        dmaRemote := Config.freeWord s.draws
        dmaCount := Config.freeWord (s.draws + 1)
        dmaTransfer := none }).drawn 2
    else s

/-- One move of a peripheral agent. -/
def agentMove (s : State) : AgentMove → State
  | .uartReceive b => uartReceive s b
  | .uartTransmit => uartTransmit s
  | .timerTick => timerTick s
  | .dmaCopy i => dmaCopy s i
  | .dmaFinish => dmaFinish s

/-- Several moves, in order. -/
def agentMoves (s : State) : List AgentMove → State
  | [] => s
  | m :: ms => agentMoves (agentMove s m) ms

/-- What the agents do between one instruction and the next: the moves the agenda lists first (log 8). -/
def runAgents (s : State) : State :=
  match s.agenda with
  | [] => s
  | ms :: later => agentMoves { s with agenda := later } ms

end Sys2Proof.Machine
end

