-- ==== Sys2Proof/Machine/Access.lean ====
section
/-! DEFINITION. Memory accesses of the processor: MemRead, MemWrite and Fetch (20_memory.md R46, R47,
R48), with the checks in the order of 60_exceptions.md R203. -/

namespace Sys2Proof.Machine

/-- `MemRead(addr, 1)` (R46). -/
def readByte (s : State) (a : Word) : Result (Byte × State) :=
  if 0xFF00 ≤ a.toNat then periphReadByte s a
  else if s.cfg.ramSize ≤ a.toNat then .fault .noMemory
  else match s.ramByte a.toNat with
    | some b => .next (b, s)
    | none => .fault .neverWritten

/-- The word at an even address of local RAM, if both bytes have been written (R46, R62). -/
def ramWord (s : State) (a : Word) : Option Word :=
  match s.ramByte a.toNat, s.ramByte (a.toNat + 1) with
  | some b0, some b1 => some (wordOfBytes s.cfg.byteOrder b0 b1)
  | _, _ => none

/-- `MemRead(addr, 2)` (R46, R50). -/
def readWord (s : State) (a : Word) : Result (Word × State) :=
  if a.toNat % 2 = 1 then .fault .misalignedAccess
  else if 0xFF00 ≤ a.toNat then periphReadWord s a
  else if s.cfg.ramSize ≤ a.toNat then .fault .noMemory
  else match ramWord s a with
    | some w => .next (w, s)
    | none => .fault .neverWritten

/-- `MemWrite(addr, 1, v)` (R47). -/
def writeByte (s : State) (a : Word) (v : Byte) : Result State :=
  if 0xFF00 ≤ a.toNat then periphWriteByte s a v
  else if s.cfg.ramSize ≤ a.toNat then .fault .noMemory
  else .next (s.storeRam a.toNat v)

/-- A word stored at an even address of local RAM (R47, R62). -/
def storeRamWord (s : State) (a : Word) (v : Word) : State :=
  (s.storeRam a.toNat (firstByte s.cfg.byteOrder v)).storeRam (a.toNat + 1) (secondByte s.cfg.byteOrder v)

/-- `MemWrite(addr, 2, v)` (R47, R50). -/
def writeWord (s : State) (a : Word) (v : Word) : Result State :=
  if a.toNat % 2 = 1 then .fault .misalignedAccess
  else if 0xFF00 ≤ a.toNat then periphWriteWord s a v
  else if s.cfg.ramSize ≤ a.toNat then .fault .noMemory
  else .next (storeRamWord s a v)

/-- Whether IFETCH_COHERENT lets the word at `a` be fetched (R60). -/
def fetchCoherent (s : State) (a : Word) : Bool :=
  match s.cfg.ifetchCoherent with
  | .yes => true
  | .refuseSelfModifying => !(s.selfWritten.contains a.toNat || s.selfWritten.contains (a.toNat + 1))

/-- `Fetch(addr)` (R48, R60). -/
def fetchWord (s : State) (a : Word) : Result Word :=
  if a.toNat % 2 = 1 then .fault .misalignedFetch
  else if 0xFF00 ≤ a.toNat then .fault .fetchFromPeripheral
  else if s.cfg.ramSize ≤ a.toNat then .fault .noMemory
  else match ramWord s a with
    | some w => if fetchCoherent s a then .next w else .refused .selfModified
    | none => .fault .neverWritten

end Sys2Proof.Machine
end

