-- ==== Sys2Proof/Machine/LoadStore.lean ====
section
/-! DEFINITION. The load and store instructions (44_load_store.md R150 to R155). -/

namespace Sys2Proof.Machine

/-- LD (R150). -/
def opLd (rD : Reg) (a : Address) (s : State) : Result State :=
  andThen (readWord s (a.value s)) fun vt => .next ((vt.2.setReg rD vt.1).advance a.size)

/-- The word LD.b makes of a byte: LDB_EXTEND (R151, D14). -/
def ldbValue (s : State) (b : Byte) : Word × State :=
  match s.cfg.ldbExtend with
  | .zero => (zext b, s)
  | .sign => (sext b, s)
  | .unspecifiedHighByte => (Config.freeByte s.draws ++ b, s.drawn 1)

/-- LD.b (R151). -/
def opLdb (rD : Reg) (a : Address) (s : State) : Result State :=
  andThen (readByte s (a.value s)) fun bt =>
    let vt := ldbValue bt.2 bt.1
    .next ((vt.2.setReg rD vt.1).advance a.size)

/-- ST (R152). -/
def opSt (rD : Reg) (a : Address) (s : State) : Result State :=
  andThen (writeWord s (a.value s) (s.reg rD)) fun t => .next (t.advance a.size)

/-- ST.b (R153): the least significant 8 bits of rD. -/
def opStb (rD : Reg) (a : Address) (s : State) : Result State :=
  andThen (writeByte s (a.value s) ((s.reg rD).extractLsb' 0 8)) fun t => .next (t.advance a.size)

/-- LD rD, [rS] (R150, R155). -/
def execLdR (rD rS : Reg) (s : State) : Result State := opLd rD (.reg rS) s

/-- LD rD, [imm] (R150, R155). -/
def execLdA (rD : Reg) (imm : Word) (s : State) : Result State := opLd rD (.abs imm) s

/-- LD rD, [rS+imm] (R150, R155). -/
def execLdD (rD rS : Reg) (imm : Word) (s : State) : Result State := opLd rD (.disp rS imm) s

/-- LD.b rD, [rS] (R151, R155). -/
def execLdbR (rD rS : Reg) (s : State) : Result State := opLdb rD (.reg rS) s

/-- LD.b rD, [imm] (R151, R155). -/
def execLdbA (rD : Reg) (imm : Word) (s : State) : Result State := opLdb rD (.abs imm) s

/-- LD.b rD, [rS+imm] (R151, R155). -/
def execLdbD (rD rS : Reg) (imm : Word) (s : State) : Result State := opLdb rD (.disp rS imm) s

/-- ST [rS], rD (R152, R155). -/
def execStR (rD rS : Reg) (s : State) : Result State := opSt rD (.reg rS) s

/-- ST [imm], rD (R152, R155). -/
def execStA (rD : Reg) (imm : Word) (s : State) : Result State := opSt rD (.abs imm) s

/-- ST [rS+imm], rD (R152, R155). -/
def execStD (rD rS : Reg) (imm : Word) (s : State) : Result State := opSt rD (.disp rS imm) s

/-- ST.b [rS], rD (R153, R155). -/
def execStbR (rD rS : Reg) (s : State) : Result State := opStb rD (.reg rS) s

/-- ST.b [imm], rD (R153, R155). -/
def execStbA (rD : Reg) (imm : Word) (s : State) : Result State := opStb rD (.abs imm) s

/-- ST.b [rS+imm], rD (R153, R155). -/
def execStbD (rD rS : Reg) (imm : Word) (s : State) : Result State := opStb rD (.disp rS imm) s

/-- LD with the displacement flag set and the immediate flag clear: undefined (R154). -/
def execLdU (_rD _rS : Reg) (_s : State) : Result State := .fault .displacementWithoutImmediate

/-- LD.b with the displacement flag set and the immediate flag clear: undefined (R154). -/
def execLdbU (_rD _rS : Reg) (_s : State) : Result State := .fault .displacementWithoutImmediate

/-- ST with the displacement flag set and the immediate flag clear: undefined (R154). -/
def execStU (_rD _rS : Reg) (_s : State) : Result State := .fault .displacementWithoutImmediate

/-- ST.b with the displacement flag set and the immediate flag clear: undefined (R154). -/
def execStbU (_rD _rS : Reg) (_s : State) : Result State := .fault .displacementWithoutImmediate

end Sys2Proof.Machine
end

