-- ==== Sys2Proof/Machine/Logic.lean ====
section
/-! DEFINITION. The logic instructions (43_logic.md R140 to R144). -/

namespace Sys2Proof.Machine

/-- AND (R140). -/
def opAnd (rD : Reg) (op2 : Operand) (s : State) : Result State :=
  .next (writeResult s rD (logicFlags (s.reg rD &&& op2.value s)) op2.size)

/-- OR (R141). -/
def opOr (rD : Reg) (op2 : Operand) (s : State) : Result State :=
  .next (writeResult s rD (logicFlags (s.reg rD ||| op2.value s)) op2.size)

/-- XOR (R142). -/
def opXor (rD : Reg) (op2 : Operand) (s : State) : Result State :=
  .next (writeResult s rD (logicFlags (s.reg rD ^^^ op2.value s)) op2.size)

/-- TEST (R144): AND's flags, no register written. -/
def opTest (rD : Reg) (op2 : Operand) (s : State) : Result State :=
  .next (writeFlags s (logicFlags (s.reg rD &&& op2.value s)) op2.size)

/-- AND rD, rS (R140). -/
def execAndR (rD rS : Reg) (s : State) : Result State := opAnd rD (.reg rS) s

/-- AND rD, imm (R140). -/
def execAndI (rD : Reg) (imm : Word) (s : State) : Result State := opAnd rD (.imm imm) s

/-- OR rD, rS (R141). -/
def execOrR (rD rS : Reg) (s : State) : Result State := opOr rD (.reg rS) s

/-- OR rD, imm (R141). -/
def execOrI (rD : Reg) (imm : Word) (s : State) : Result State := opOr rD (.imm imm) s

/-- XOR rD, rS (R142). -/
def execXorR (rD rS : Reg) (s : State) : Result State := opXor rD (.reg rS) s

/-- XOR rD, imm (R142). -/
def execXorI (rD : Reg) (imm : Word) (s : State) : Result State := opXor rD (.imm imm) s

/-- TEST rD, rS (R144). -/
def execTestR (rD rS : Reg) (s : State) : Result State := opTest rD (.reg rS) s

/-- TEST rD, imm (R144). -/
def execTestI (rD : Reg) (imm : Word) (s : State) : Result State := opTest rD (.imm imm) s

/-- NOT rD (R143): the bitwise complement. -/
def execNotR (rD : Reg) (s : State) : Result State :=
  .next (writeResult s rD (logicFlags (~~~ s.reg rD)) 2)

end Sys2Proof.Machine
end

