-- ==== Sys2Proof/Machine/Move.lean ====
section
/-! DEFINITION. The move instructions (42_move.md R130 to R134). -/

namespace Sys2Proof.Machine

/-- A register written, then the next instruction; no flag changes. -/
def opMove (rD : Reg) (v : Word) (size : Word) (s : State) : Result State :=
  .next ((s.setReg rD v).advance size)

/-- MOV rD, rS (R130). -/
def execMovR (rD rS : Reg) (s : State) : Result State := opMove rD (s.reg rS) 2 s

/-- MOV rD, imm, general encoding (R130). -/
def execMovI (rD : Reg) (imm : Word) (s : State) : Result State := opMove rD imm 4 s

/-- The value of the byte MOV: MOVB_EXTEND (R131, D15). -/
def movbValue (cfg : Config) (data : Byte) : Word :=
  match cfg.movbExtend with
  | .zero => zext data
  | .sign => sext data

/-- MOV r0, byte immediate (R131). -/
def execMovB0 (data : Byte) (s : State) : Result State := opMove .r0 (movbValue s.cfg data) 2 s

/-- MOV r1, byte immediate (R131). -/
def execMovB1 (data : Byte) (s : State) : Result State := opMove .r1 (movbValue s.cfg data) 2 s

/-- MOV r2, byte immediate (R131). -/
def execMovB2 (data : Byte) (s : State) : Result State := opMove .r2 (movbValue s.cfg data) 2 s

/-- MOV r3, byte immediate (R131). -/
def execMovB3 (data : Byte) (s : State) : Result State := opMove .r3 (movbValue s.cfg data) 2 s

/-- MOV r4, byte immediate (R131). -/
def execMovB4 (data : Byte) (s : State) : Result State := opMove .r4 (movbValue s.cfg data) 2 s

/-- MOV r5, byte immediate (R131). -/
def execMovB5 (data : Byte) (s : State) : Result State := opMove .r5 (movbValue s.cfg data) 2 s

/-- MOV r6, byte immediate (R131). -/
def execMovB6 (data : Byte) (s : State) : Result State := opMove .r6 (movbValue s.cfg data) 2 s

/-- MOV r7, byte immediate (R131). -/
def execMovB7 (data : Byte) (s : State) : Result State := opMove .r7 (movbValue s.cfg data) 2 s

/-- LDCP rD, cr (R133): cr0 is the flags (10_state.md R26); any other is unimplemented, UNIMPL_CR_READ
(R27, D25). -/
def execLdcp (rD : Reg) (cr : Nat) (s : State) : Result State :=
  if cr = 0 then opMove rD s.flags.toWord 2 s
  else match s.cfg.unimplCrRead with
    | .anyValue => opMove rD (Config.freeWord s.draws) 2 (s.drawn 1)
    | .refuse => .refused .unimplementedCoprocessorRegister

/-- SET.cc rD (R134): always writes, 1 or 0. -/
def execSetCc (cond : Cond) (rD : Reg) (s : State) : Result State :=
  opMove rD (if condHolds s.cfg cond s.flags then 1 else 0) 2 s

end Sys2Proof.Machine
end

