-- ==== Sys2Proof/Machine/Shift.lean ====
section
/-! DEFINITION. The shift and rotate instructions (46_shift_rotate.md R180 to R186). -/

namespace Sys2Proof.Machine

/-- What SHL, SHR, SAR and RCL leave when SHIFT_AMOUNT_GE16 leaves the outcome unspecified: a free
result, free Z, S and C, V cleared (R180). -/
def freeShift (s : State) : AluResult :=
  { value := Config.freeWord s.draws
    flags :=
      { z := Config.freeBit s.draws, c := Config.freeBit (s.draws + 2),
        s := Config.freeBit (s.draws + 1), v := false } }

/-- SHL, SHR, SAR (R181, R182, R183). -/
def opShift (op : ShiftOp) (rD : Reg) (op2 : Operand) (s : State) : Result State :=
  match shiftAmount s.cfg (op2.value s) with
  | some n => .next (writeResult s rD (shiftFlags s.cfg op (s.reg rD) n s.flags.c) op2.size)
  | none => .next ((writeResult s rD (freeShift s) op2.size).drawn 3)

/-- ROL (R184). -/
def opRol (rD : Reg) (op2 : Operand) (s : State) : Result State :=
  .next (writeResult s rD (logicFlags (rolValue (s.reg rD) (op2.value s))) op2.size)

/-- RCL (R185). -/
def opRcl (rD : Reg) (op2 : Operand) (s : State) : Result State :=
  match shiftAmount s.cfg (op2.value s) with
  | some n => .next (writeResult s rD (rclFlags (s.reg rD) n s.flags.c) op2.size)
  | none => .next ((writeResult s rD (freeShift s) op2.size).drawn 3)

/-- SHL rD, rS (R181). -/
def execShlR (rD rS : Reg) (s : State) : Result State := opShift .shl rD (.reg rS) s

/-- SHL rD, imm (R181). -/
def execShlI (rD : Reg) (imm : Word) (s : State) : Result State := opShift .shl rD (.imm imm) s

/-- SHR rD, rS (R182). -/
def execShrR (rD rS : Reg) (s : State) : Result State := opShift .shr rD (.reg rS) s

/-- SHR rD, imm (R182). -/
def execShrI (rD : Reg) (imm : Word) (s : State) : Result State := opShift .shr rD (.imm imm) s

/-- SAR rD, rS (R183). -/
def execSarR (rD rS : Reg) (s : State) : Result State := opShift .sar rD (.reg rS) s

/-- SAR rD, imm (R183). -/
def execSarI (rD : Reg) (imm : Word) (s : State) : Result State := opShift .sar rD (.imm imm) s

/-- ROL rD, rS (R184). -/
def execRolR (rD rS : Reg) (s : State) : Result State := opRol rD (.reg rS) s

/-- ROL rD, imm (R184). -/
def execRolI (rD : Reg) (imm : Word) (s : State) : Result State := opRol rD (.imm imm) s

/-- RCL rD, rS (R185). -/
def execRclR (rD rS : Reg) (s : State) : Result State := opRcl rD (.reg rS) s

/-- RCL rD, imm (R185). -/
def execRclI (rD : Reg) (imm : Word) (s : State) : Result State := opRcl rD (.imm imm) s

end Sys2Proof.Machine
end

