-- ==== Sys2Proof/Machine/Stack.lean ====
section
/-! DEFINITION. The stack instructions (41_stack.md R120 to R122): full descending, through a pointer
register. -/

namespace Sys2Proof.Machine

/-- `x[rS] <- x[rS] - 2` (R120). -/
def pushPointer (rS : Reg) (s : State) : State := s.setReg rS (s.reg rS - 2)

/-- `MemWrite(x[rS], 2, v)`, `s` being the state after the pointer's update. -/
def pushStore (rS : Reg) (v : Word) (size : Word) (s : State) : Result State :=
  andThen (writeWord s (s.reg rS) v) fun t => .next (t.advance size)

/-- PUSH (R120): the value is read after the pointer's update, as the manual orders it (log 18). -/
def opPush (v : Operand) (rS : Reg) (s : State) : Result State :=
  let t := pushPointer rS s
  pushStore rS (v.value t) v.size t

/-- PUSH rD, rS (R120). -/
def execPushR (rD rS : Reg) (s : State) : Result State := opPush (.reg rD) rS s

/-- PUSH imm, rS (R120). -/
def execPushI (rS : Reg) (imm : Word) (s : State) : Result State := opPush (.imm imm) rS s

/-- POP rD, rS (R121): rD is written first, then the pointer is read and advanced (log 18). -/
def execPop (rD rS : Reg) (s : State) : Result State :=
  andThen (readWord s (s.reg rS)) fun vt =>
    let t := vt.2.setReg rD vt.1
    .next ((t.setReg rS (t.reg rS + 2)).advance 2)

/-- PUSHLR (R122): LR pushed through r7. -/
def execPushLr (s : State) : Result State :=
  let t := pushPointer .r7 s
  pushStore .r7 t.lr 2 t

end Sys2Proof.Machine
end

