-- ==== Sys2Proof/Machine/Dispatch.lean ====
section
/-! DEFINITION. One arm per instruction. -/

namespace Sys2Proof.Machine

def exec (i : Instr) (s : State) : Host.Outcome State Fault Refusal :=
  match i with
  | .addR rD rS => Sys2Proof.Machine.execAddR rD rS s
  | .addI rD imm => Sys2Proof.Machine.execAddI rD imm s
  | .subR rD rS => Sys2Proof.Machine.execSubR rD rS s
  | .subI rD imm => Sys2Proof.Machine.execSubI rD imm s
  | .pushR rD rS => Sys2Proof.Machine.execPushR rD rS s
  | .pushI rS imm => Sys2Proof.Machine.execPushI rS imm s
  | .pop rD rS => Sys2Proof.Machine.execPop rD rS s
  | .movB0 data => Sys2Proof.Machine.execMovB0 data s
  | .movB1 data => Sys2Proof.Machine.execMovB1 data s
  | .movB2 data => Sys2Proof.Machine.execMovB2 data s
  | .movB3 data => Sys2Proof.Machine.execMovB3 data s
  | .movB4 data => Sys2Proof.Machine.execMovB4 data s
  | .movB5 data => Sys2Proof.Machine.execMovB5 data s
  | .movB6 data => Sys2Proof.Machine.execMovB6 data s
  | .movB7 data => Sys2Proof.Machine.execMovB7 data s
  | .movR rD rS => Sys2Proof.Machine.execMovR rD rS s
  | .movI rD imm => Sys2Proof.Machine.execMovI rD imm s
  | .andR rD rS => Sys2Proof.Machine.execAndR rD rS s
  | .andI rD imm => Sys2Proof.Machine.execAndI rD imm s
  | .orR rD rS => Sys2Proof.Machine.execOrR rD rS s
  | .orI rD imm => Sys2Proof.Machine.execOrI rD imm s
  | .xorR rD rS => Sys2Proof.Machine.execXorR rD rS s
  | .xorI rD imm => Sys2Proof.Machine.execXorI rD imm s
  | .notR rD => Sys2Proof.Machine.execNotR rD s
  | .negR rD => Sys2Proof.Machine.execNegR rD s
  | .ldR rD rS => Sys2Proof.Machine.execLdR rD rS s
  | .ldA rD imm => Sys2Proof.Machine.execLdA rD imm s
  | .ldD rD rS imm => Sys2Proof.Machine.execLdD rD rS imm s
  | .ldbR rD rS => Sys2Proof.Machine.execLdbR rD rS s
  | .ldbA rD imm => Sys2Proof.Machine.execLdbA rD imm s
  | .ldbD rD rS imm => Sys2Proof.Machine.execLdbD rD rS imm s
  | .stR rD rS => Sys2Proof.Machine.execStR rD rS s
  | .stA rD imm => Sys2Proof.Machine.execStA rD imm s
  | .stD rD rS imm => Sys2Proof.Machine.execStD rD rS imm s
  | .stbR rD rS => Sys2Proof.Machine.execStbR rD rS s
  | .stbA rD imm => Sys2Proof.Machine.execStbA rD imm s
  | .stbD rD rS imm => Sys2Proof.Machine.execStbD rD rS imm s
  | .ldU rD rS => Sys2Proof.Machine.execLdU rD rS s
  | .ldbU rD rS => Sys2Proof.Machine.execLdbU rD rS s
  | .stU rD rS => Sys2Proof.Machine.execStU rD rS s
  | .stbU rD rS => Sys2Proof.Machine.execStbU rD rS s
  | .cmpR rD rS => Sys2Proof.Machine.execCmpR rD rS s
  | .cmpI rD imm => Sys2Proof.Machine.execCmpI rD imm s
  | .jmpR cond rD => Sys2Proof.Machine.execJmpR cond rD s
  | .jmpI cond imm => Sys2Proof.Machine.execJmpI cond imm s
  | .callR cond rD => Sys2Proof.Machine.execCallR cond rD s
  | .callI cond imm => Sys2Proof.Machine.execCallI cond imm s
  | .ret => Sys2Proof.Machine.execRet s
  | .shlR rD rS => Sys2Proof.Machine.execShlR rD rS s
  | .shlI rD imm => Sys2Proof.Machine.execShlI rD imm s
  | .shrR rD rS => Sys2Proof.Machine.execShrR rD rS s
  | .shrI rD imm => Sys2Proof.Machine.execShrI rD imm s
  | .rolR rD rS => Sys2Proof.Machine.execRolR rD rS s
  | .rolI rD imm => Sys2Proof.Machine.execRolI rD imm s
  | .rclR rD rS => Sys2Proof.Machine.execRclR rD rS s
  | .rclI rD imm => Sys2Proof.Machine.execRclI rD imm s
  | .ldcp rD cr => Sys2Proof.Machine.execLdcp rD cr s
  | .adcR rD rS => Sys2Proof.Machine.execAdcR rD rS s
  | .adcI rD imm => Sys2Proof.Machine.execAdcI rD imm s
  | .sbbR rD rS => Sys2Proof.Machine.execSbbR rD rS s
  | .sbbI rD imm => Sys2Proof.Machine.execSbbI rD imm s
  | .setCc cond rD => Sys2Proof.Machine.execSetCc cond rD s
  | .testR rD rS => Sys2Proof.Machine.execTestR rD rS s
  | .testI rD imm => Sys2Proof.Machine.execTestI rD imm s
  | .pushLr => Sys2Proof.Machine.execPushLr s
  | .sarR rD rS => Sys2Proof.Machine.execSarR rD rS s
  | .sarI rD imm => Sys2Proof.Machine.execSarI rD imm s

end Sys2Proof.Machine
end

