-- ==== Sys2Proof/Machine/Step.lean ====
section
/-! DEFINITION. One step of the machine (70_reset_and_hazards.md R263) and where a program comes from. -/

namespace Sys2Proof.Machine

/-- Fetch, decode and execute one instruction (R263), checking in the order of 60_exceptions.md R203. -/
def instruction (s : State) : Host.Outcome State Fault Refusal :=
  andThen (fetchWord s s.pc) fun w =>
    match decodeHead s.cfg w with
    | .reserved r => .refused (.reserved r)
    | .short i => exec i s
    | .long k => andThen (fetchWord s (s.pc + 2)) fun imm => exec (k imm) s

/-- One step: an instruction, then the moves the peripheral agents take before the next one (R263, log 8). -/
def step (s : State) : Host.Outcome State Fault Refusal :=
  andThen (instruction s) fun t => .next (runAgents t)

/-- Bytes placed in local RAM from outside, from address `a` up, where there is RAM; they do not count
as written by the processor (20_memory.md R60: "after launch"). -/
def State.load (s : State) (a : Nat) : List Byte → State
  | [] => s
  | b :: rest =>
    let t := if a < s.cfg.ramSize then
        { s.setRam a b with selfWritten := s.selfWritten.filter (· ≠ a) }
      else s
    State.load t (a + 1) rest

/-- `s` with the instruction whose bits are `w` placed at `pc` (log 17). -/
def State.withFetchWord (s : State) (nbits w : Nat) : State :=
  s.load s.pc.toNat (tableBytes s.cfg.byteOrder nbits w)

end Sys2Proof.Machine
end

