-- ==== Sys2Proof/Safety.lean ====
section
/-! DEFINITION. The terms claims about the machine are made in: instructions by operand form, what an
instruction leaves unchanged, results and flags as integers, the invariant, and the end of a run. None
of it is used by the machine. -/

namespace Sys2Proof.Machine

/-! ### Instructions by operand form -/

/-- The fourteen instructions with a register and an immediate form whose `op2` is their source. -/
inductive TwoOp where
  | add | sub | adc | sbb | cmp | and | or | xor | test | shl | shr | sar | rol | rcl
  deriving DecidableEq, Repr

/-- The instruction `k rD, rS` or `k rD, imm`. -/
def twoOp (k : TwoOp) (rD : Reg) (op2 : Operand) : Instr :=
  match k, op2 with
  | .add, .reg r => .addR rD r | .add, .imm w => .addI rD w
  | .sub, .reg r => .subR rD r | .sub, .imm w => .subI rD w
  | .adc, .reg r => .adcR rD r | .adc, .imm w => .adcI rD w
  | .sbb, .reg r => .sbbR rD r | .sbb, .imm w => .sbbI rD w
  | .cmp, .reg r => .cmpR rD r | .cmp, .imm w => .cmpI rD w
  | .and, .reg r => .andR rD r | .and, .imm w => .andI rD w
  | .or, .reg r => .orR rD r | .or, .imm w => .orI rD w
  | .xor, .reg r => .xorR rD r | .xor, .imm w => .xorI rD w
  | .test, .reg r => .testR rD r | .test, .imm w => .testI rD w
  | .shl, .reg r => .shlR rD r | .shl, .imm w => .shlI rD w
  | .shr, .reg r => .shrR rD r | .shr, .imm w => .shrI rD w
  | .sar, .reg r => .sarR rD r | .sar, .imm w => .sarI rD w
  | .rol, .reg r => .rolR rD r | .rol, .imm w => .rolI rD w
  | .rcl, .reg r => .rclR rD r | .rcl, .imm w => .rclI rD w

/-- MOV rD, rS or MOV rD, imm (general encoding). -/
def movAt (rD : Reg) : Operand → Instr
  | .reg r => .movR rD r
  | .imm w => .movI rD w

/-- MOV rD, byte immediate: one of the eight byte encodings. -/
def movbAt (rD : Reg) (data : Byte) : Instr :=
  match rD with
  | .r0 => .movB0 data | .r1 => .movB1 data | .r2 => .movB2 data | .r3 => .movB3 data
  | .r4 => .movB4 data | .r5 => .movB5 data | .r6 => .movB6 data | .r7 => .movB7 data

/-- LD rD by address form. -/
def ldAt (rD : Reg) : Address → Instr
  | .reg r => .ldR rD r | .abs w => .ldA rD w | .disp r w => .ldD rD r w

/-- LD.b rD by address form. -/
def ldbAt (rD : Reg) : Address → Instr
  | .reg r => .ldbR rD r | .abs w => .ldbA rD w | .disp r w => .ldbD rD r w

/-- ST by address form, data register rD. -/
def stAt (rD : Reg) : Address → Instr
  | .reg r => .stR rD r | .abs w => .stA rD w | .disp r w => .stD rD r w

/-- ST.b by address form, data register rD. -/
def stbAt (rD : Reg) : Address → Instr
  | .reg r => .stbR rD r | .abs w => .stbA rD w | .disp r w => .stbD rD r w

/-- The effective address and the length in bytes of the address forms, as 44_load_store.md R155 lists
them: `[rS]`, `[immediate]`, `[rS+immediate]`. -/
inductive EffectiveAddress (s : State) : Address → Word → Word → Prop where
  | reg (r : Reg) : EffectiveAddress s (.reg r) (s.reg r) 2
  | abs (imm : Word) : EffectiveAddress s (.abs imm) imm 4
  | disp (r : Reg) (imm ea : Word) (h : ea.toNat = ((s.reg r).toNat + imm.toNat) % 65536) :
      EffectiveAddress s (.disp r imm) ea 4

/-- PUSH of a register or an immediate through pointer rS. -/
def pushAt (rS : Reg) : Operand → Instr
  | .reg r => .pushR r rS | .imm w => .pushI rS w

/-- JMP to a register or an immediate. -/
def jmpAt (cond : Cond) : Operand → Instr
  | .reg r => .jmpR cond r | .imm w => .jmpI cond w

/-- CALL of a register or an immediate. -/
def callAt (cond : Cond) : Operand → Instr
  | .reg r => .callR cond r | .imm w => .callI cond w

/-! ### What each instruction touches (10_state.md R13; 20_memory.md R49) -/

/-- The address of the word data access an instruction makes, as the state before it gives it. -/
def wordAddress (s : State) : Instr → Option Word
  | .ldR _ r => some (s.reg r)
  | .ldA _ w => some w
  | .ldD _ r w => some (s.reg r + w)
  | .stR _ r => some (s.reg r)
  | .stA _ w => some w
  | .stD _ r w => some (s.reg r + w)
  | .pushR _ r => some (s.reg r - 2)
  | .pushI r _ => some (s.reg r - 2)
  | .pop _ r => some (s.reg r)
  | .pushLr => some (s.reg .r7 - 2)
  | _ => none

/-- The address of the byte data access an instruction makes. -/
def byteAddress (s : State) : Instr → Option Word
  | .ldbR _ r => some (s.reg r)
  | .ldbA _ w => some w
  | .ldbD _ r w => some (s.reg r + w)
  | .stbR _ r => some (s.reg r)
  | .stbA _ w => some w
  | .stbD _ r w => some (s.reg r + w)
  | _ => none

/-- The instruction loads: its data access is a read. -/
def isLoad : Instr → Bool
  | .ldR .. | .ldA .. | .ldD .. | .ldbR .. | .ldbA .. | .ldbD .. | .pop .. => true
  | _ => false

/-- The bytes an instruction stores to: first address and number of bytes. -/
def storedBytes (s : State) (i : Instr) : Option (Word × Nat) :=
  if isLoad i then none
  else match wordAddress s i, byteAddress s i with
    | some p, _ => some (p, 2)
    | none, some p => some (p, 1)
    | none, none => none

/-- The general registers an instruction may write (10_state.md R13). -/
def writtenRegs : Instr → List Reg
  | .addR d _ | .addI d _ | .subR d _ | .subI d _ | .adcR d _ | .adcI d _ | .sbbR d _ | .sbbI d _
  | .andR d _ | .andI d _ | .orR d _ | .orI d _ | .xorR d _ | .xorI d _ | .notR d | .negR d
  | .shlR d _ | .shlI d _ | .shrR d _ | .shrI d _ | .sarR d _ | .sarI d _ | .rolR d _ | .rolI d _
  | .rclR d _ | .rclI d _ | .movR d _ | .movI d _ | .ldcp d _ | .setCc _ d
  | .ldR d _ | .ldA d _ | .ldD d _ _ | .ldbR d _ | .ldbA d _ | .ldbD d _ _ => [d]
  | .movB0 _ => [.r0] | .movB1 _ => [.r1] | .movB2 _ => [.r2] | .movB3 _ => [.r3]
  | .movB4 _ => [.r4] | .movB5 _ => [.r5] | .movB6 _ => [.r6] | .movB7 _ => [.r7]
  | .pushR _ r | .pushI r _ => [r]
  | .pop d r => [d, r]
  | .pushLr => [.r7]
  | _ => []

/-- The instruction writes flags (10_state.md, index of flag writers). -/
def writesFlags : Instr → Bool
  | .addR .. | .addI .. | .subR .. | .subI .. | .adcR .. | .adcI .. | .sbbR .. | .sbbI ..
  | .cmpR .. | .cmpI .. | .andR .. | .andI .. | .orR .. | .orI .. | .xorR .. | .xorI .. | .notR .. | .negR ..
  | .testR .. | .testI .. | .shlR .. | .shlI .. | .shrR .. | .shrI .. | .sarR .. | .sarI ..
  | .rolR .. | .rolI .. | .rclR .. | .rclI .. => true
  | _ => false

/-- The instruction is a CALL, the only writer of LR (10_state.md R18). -/
def isCall : Instr → Bool
  | .callR .. | .callI .. => true
  | _ => false

/-- The words 30_encoding.md R87 lists, row by row, as numbers: documented opcode, undocumented word. -/
def ReservedByR87 (w : Nat) : Prop :=
  let op := w / 256 % 64
  (op ∈ [1, 2, 3, 4, 13, 14, 15, 16, 17, 18, 21, 25, 26, 27, 28, 31, 32, 34, 36] ∧ w / 64 % 4 ≠ 0) ∨
  (op ∈ [22, 23, 29, 33] ∧ w / 128 % 2 ≠ 0) ∨
  (op ∈ [24, 35] ∧ w % 256 ≠ 0) ∨
  (op ∈ [17, 18] ∧ w / 8 % 8 ≠ 0) ∨
  (op ∈ [4, 17, 18, 33] ∧ w / 32768 = 1) ∨
  (op ∈ [5, 6, 7, 8, 9, 10, 11, 12, 24, 29, 35] ∧ w / 32768 = 1) ∨
  (op ∈ [1, 2, 13, 14, 15, 16, 21, 25, 26, 27, 28, 31, 32, 34, 36] ∧ w / 32768 = 1 ∧ w / 8 % 8 ≠ 0) ∨
  (op ∈ [3, 22, 23] ∧ w / 32768 = 1 ∧ w % 8 ≠ 0) ∨
  (op ∈ [19, 20] ∧ w / 32768 = 1 ∧ w / 64 % 2 = 0 ∧ w / 8 % 8 ≠ 0)

/-! ### What is left unchanged -/

/-- Everything that is neither a general register, LR, a flag, the pc nor RAM is as before: the
peripherals, the external DRAM, the parameters, the agents' moves to come, what the outside has seen. -/
structure WorldKept (s t : State) : Prop where
  periph : t.periph = s.periph
  ext : ∀ a, t.extByte a = s.extByte a
  cfg : t.cfg = s.cfg
  agenda : t.agenda = s.agenda
  output : t.output = s.output

/-- Of registers, RAM and world only the registers `rs` may differ. The flags and the pc are not spoken of. -/
structure OnlyRegisters (rs : List Reg) (s t : State) : Prop where
  regs : ∀ r, r ∉ rs → t.reg r = s.reg r
  lr : t.lr = s.lr
  ram : ∀ a, t.ramByte a = s.ramByte a
  selfWritten : t.selfWritten = s.selfWritten
  world : WorldKept s t

/-- Of registers, flags, RAM and world only the registers `rs` and the `n` bytes of RAM from `p` may differ. -/
structure OnlyRegistersAndRam (rs : List Reg) (p n : Nat) (s t : State) : Prop where
  regs : ∀ r, r ∉ rs → t.reg r = s.reg r
  flags : t.flags = s.flags
  lr : t.lr = s.lr
  ram : ∀ a, a < p ∨ p + n ≤ a → t.ramByte a = s.ramByte a
  world : WorldKept s t

/-- Of registers, flags, RAM and world only the register `rs` and the peripherals with what the outside
sees of them may differ. -/
structure OnlyRegistersAndDevices (rs : List Reg) (s t : State) : Prop where
  regs : ∀ r, r ∉ rs → t.reg r = s.reg r
  flags : t.flags = s.flags
  lr : t.lr = s.lr
  ram : ∀ a, t.ramByte a = s.ramByte a
  selfWritten : t.selfWritten = s.selfWritten
  ext : ∀ a, t.extByte a = s.extByte a
  cfg : t.cfg = s.cfg
  agenda : t.agenda = s.agenda

/-! ### Results and flags as integers -/

/-- Z and S as 10_state.md R21 says them of the result, C and V as given. -/
def FlagsSay (f : Flags) (r : Word) (c v : Prop) : Prop :=
  (f.z = true ↔ r.toNat = 0) ∧ (f.s = true ↔ 32768 ≤ r.toNat) ∧ (f.c = true ↔ c) ∧ (f.v = true ↔ v)

/-- A signed integer outside the 16 bit range. -/
def OutOfRange (t : Int) : Prop := t < -32768 ∨ 32767 < t

/-- V of an addition under either V_RULE (10_state.md R22). -/
def AddOverflows (cfg : Config) (a b : Word) (cin : Nat) : Prop :=
  match cfg.vRule with
  | .signedOverflow => OutOfRange (a.toInt + b.toInt + cin)
  | .carry14AndNotCarry15 =>
    32768 ≤ a.toNat % 32768 + b.toNat % 32768 + cin ∧ a.toNat + b.toNat + cin < 65536

/-- `r` and `f` are the sum and its flags (10_state.md R21, R22). -/
def SumIs (cfg : Config) (a b : Word) (cin : Nat) (r : Word) (f : Flags) : Prop :=
  r.toNat = (a.toNat + b.toNat + cin) % 65536 ∧
  FlagsSay f r (65536 ≤ a.toNat + b.toNat + cin) (AddOverflows cfg a b cin)

/-- C of a subtraction under either SUB_CARRY (10_state.md R23). -/
def CarrySaysBorrow (cfg : Config) (borrowed : Prop) : Prop :=
  match cfg.subCarry with
  | .borrow => borrowed
  | .notBorrow => ¬ borrowed

/-- `r` and `f` are the difference and its flags (10_state.md R21, R23); `bin` is a borrow. -/
def DifferenceIs (cfg : Config) (a b : Word) (bin : Nat) (r : Word) (f : Flags) : Prop :=
  (r.toNat : Int) = ((a.toNat : Int) - b.toNat - bin) % 65536 ∧
  FlagsSay f r (CarrySaysBorrow cfg (a.toNat < b.toNat + bin)) (OutOfRange (a.toInt - b.toInt - bin))

/-- The borrow-in of SBB (40_arithmetic.md R103). -/
def borrowIn (s : State) : Nat :=
  match s.cfg.subCarry with
  | .borrow => if s.flags.c then 1 else 0
  | .notBorrow => if s.flags.c then 0 else 1

/-- The Expression column of 45_control.md R160, LS by LS_EXPR. -/
def CondExpr (cfg : Config) (f : Flags) : Cond → Prop
  | .nv => False
  | .eq => f.z = true
  | .ne => f.z = false
  | .os => f.v = true
  | .oc => f.v = false
  | .hi => f.c = true ∧ f.z = false
  | .ls =>
    match cfg.lsExpr with
    | .conj => f.c = false ∧ f.z = true
    | .disj => f.c = false ∨ f.z = true
  | .p => f.s = false
  | .n => f.s = true
  | .cs => f.c = true
  | .cc => f.c = false
  | .ge => f.s = f.v
  | .g => f.s = f.v ∧ f.z = false
  | .le => f.z = true ∨ f.s ≠ f.v
  | .l => f.s ≠ f.v
  | .al => True

/-! ### Addresses -/

/-- A byte address where RAM is fitted (20_memory.md R41). -/
def InRam (s : State) (a : Word) : Prop := a.toNat < s.cfg.ramSize ∧ a.toNat < 0xFF00

/-- A word address where RAM is fitted (20_memory.md R41, R50). -/
def WordInRam (s : State) (a : Word) : Prop := a.toNat % 2 = 0 ∧ InRam s a

/-- `r` is what LD.b leaves of byte `b`: the byte in bits 7..0, the high byte by LDB_EXTEND, free under
its third setting (44_load_store.md R151). -/
def ByteLoaded (cfg : Config) (r : Word) (b : Byte) : Prop :=
  r.extractLsb' 0 8 = b ∧ (cfg.ldbExtend = .zero → r.toNat = b.toNat) ∧
    (cfg.ldbExtend = .sign → r.toInt = b.toInt)

/-- The bytes at `p` and `p + 1` hold `v` in the machine's byte order (20_memory.md R47). -/
def HoldsWord (s : State) (p : Word) (v : Word) : Prop :=
  match s.cfg.byteOrder with
  | .little => s.ramByte p.toNat = some (v.extractLsb' 0 8) ∧ s.ramByte (p.toNat + 1) = some (v.extractLsb' 8 8)
  | .big => s.ramByte p.toNat = some (v.extractLsb' 8 8) ∧ s.ramByte (p.toNat + 1) = some (v.extractLsb' 0 8)

/-- What IFETCH_COHERENT makes of the fetch of word `v` that the processor stored at `p`: as stored, or
refused (20_memory.md R60). -/
def FetchesStored (t : State) (p v : Word) : Prop :=
  match t.cfg.ifetchCoherent with
  | .yes => fetchWord t p = .next v
  | .refuseSelfModifying => fetchWord t p = .refused .selfModified

/-- The written bytes of fitted RAM from address `a` up, at most `n`. -/
def codeBytes (s : State) (a : Nat) : Nat → List Byte
  | 0 => []
  | n + 1 =>
    if a < s.cfg.ramSize then
      match s.ramByte a with
      | some b => b :: codeBytes s (a + 1) n
      | none => []
    else []

/-! ### The invariant -/

/-- A transfer in flight is one 60_exceptions.md R233, R234, R236 and R237 allow, and no byte was copied twice. -/
structure TransferOk (s : State) (t : Transfer) : Prop where
  start_even : t.localStart.toNat % 2 = 0
  count_even : t.count.toNat % 2 = 0
  count_pos : 0 < t.count.toNat
  in_ram : t.localStart.toNat + t.count.toNat ≤ s.cfg.ramSize
  ext_start : t.extStart < 2 ^ extWidth
  nodup : t.copied.Nodup
  copied_lt : ∀ i ∈ t.copied, i < t.count.toNat

/-- What every state a run passes through satisfies. -/
structure StateInv (s : State) : Prop where
  /-- The parameters are values 00_scope.md R3 admits. -/
  cfg : s.cfg.Wf
  /-- The instruction pointer is word aligned (10_state.md R16; 20_memory.md R51). -/
  pc_even : s.pc.toNat % 2 = 0
  /-- LR is word aligned (45_control.md R163). -/
  lr_even : s.lr.toNat % 2 = 0
  /-- RAM is in canonical form and lies below RAM_SIZE (20_memory.md R41). -/
  mem_wf : Memory.wf s.mem
  mem_in_ram : ∀ c ∈ s.mem, c.1 < s.cfg.ramSize
  /-- The external DRAM is in canonical form. -/
  ext_wf : Memory.extWf s.ext
  /-- It lies within its address width (60_exceptions.md R233). -/
  ext_in_dram : ∀ c ∈ s.ext, c.1 < 2 ^ extWidth
  /-- The FIFOs hold at most 8 bytes (60_exceptions.md R213). -/
  tx_bound : s.periph.uartTx.length ≤ 8
  rx_bound : s.periph.uartRx.length ≤ 8
  /-- The transfer in flight, if any, is a legal one. -/
  transfer : ∀ t, s.periph.dmaTransfer = some t → TransferOk s t

/-! ### Runs -/

/-- The bytes the UART has sent, oldest first (60_exceptions.md R218). -/
def uartSent (s : State) : List Byte :=
  s.output.filterMap fun o =>
    match o with
    | .uart b => some b
    | .led _ => none
    | .sound _ => none


/-- The processor stands at a JMP.AL to its own address: the run has ended well
(70_reset_and_hazards.md R266). -/
def atSelfJump (s : State) : Bool :=
  match fetchWord s s.pc with
  | .next w =>
    match decodeHead s.cfg w with
    | .reserved _ => false
    | .short i =>
      match i with
      | .jmpR .al r => decide (s.reg r = s.pc)
      | _ => false
    | .long k =>
      match fetchWord s (s.pc + 2) with
      | .next imm => decide (k imm = .jmpI .al s.pc)
      | _ => false
  | _ => false

end Sys2Proof.Machine
end

