-- ==== Sys2Proof/Certificates/Slice0/Obligations.lean ====
section
/-! DEFINITION. The statements for the provers. The terms they are made in are in Safety.lean. -/

open Sys2Proof Sys2Proof.Machine

/-! ### Encoding -/

/-- A few words written out from the formats of 30_encoding.md R77 to R82 and R92 decode; the word 0, of an
undocumented opcode (R86), and one with bit 14 set (R72) do not. Rests on the spec's decisions D1, D18 and
logs 23, 24. -/
def Obligations.SampleWordsDecode : Prop :=
  decodeTableWord 16 0b0000000100010001 = some (.addR .r1 .r2) ∧
  decodeTableWord 32 0x12348101 = some (.addI .r1 0x1234) ∧
  decodeTableWord 16 0b0000001100111011 = some (.pushR .r3 .r7) ∧
  decodeTableWord 16 0b0000100000101010 = some (.movB3 0x2A) ∧
  decodeTableWord 32 0x00049351 = some (.ldD .r1 .r2 4) ∧
  decodeTableWord 32 0xFF009481 = some (.stbA .r1 0xFF00) ∧
  decodeTableWord 16 0b0001011000001011 = some (.jmpR .eq .r3) ∧
  decodeTableWord 16 0b0001110100000011 = some (.ldcp .r3 0) ∧
  decodeTableWord 16 0b0010000101110000 = some (.setCc .l .r0) ∧
  decodeTableWord 16 0b0001100000000000 = some .ret ∧
  decodeTableWord 16 0 = none ∧ decodeTableWord 16 0x4111 = none

/-- Decoding the encoding of any well-formed instruction gives it back, whatever bytes follow and whatever
the parameters. Rests on the spec's decisions D1, D18, D26. -/
def Obligations.DecodeInvertsEncode : Prop :=
  ∀ (c : Config) (i : Instr) (rest : List Byte), i.wellFormed = true →
    decode c (encode c i ++ rest) = .ok i rest

/-- Bytes that decode are exactly the encoding of the instruction they decode to, which is well formed:
every word has one meaning. Rests on the spec's decisions D1, D18, D26. -/
def Obligations.EncodeInvertsDecode : Prop :=
  ∀ (c : Config) (bytes : List Byte) (i : Instr) (rest : List Byte),
    decode c bytes = .ok i rest → i.wellFormed = true ∧ encode c i ++ rest = bytes

/-- A word with bit 14 set (30_encoding.md R72) and a word of an undocumented opcode (R86) are refused.
Rests on the spec's decisions D1, D18. -/
def Obligations.UndocumentedWordsAreRefused : Prop :=
  ∀ (s : State) (w : Word), fetchWord s s.pc = .next w →
    (w.toNat / 16384 % 2 = 1 → step s = .refused (.reserved .bit14)) ∧
    (w.toNat / 16384 % 2 = 0 →
      (w.toNat / 256 % 64 = 0 ∨ w.toNat / 256 % 64 = 30 ∨ 37 ≤ w.toNat / 256 % 64) →
      step s = .refused (.reserved .opcode))

/-- Every word 30_encoding.md R87 lists is refused. Rests on the spec's decision D18. -/
def Obligations.ReservedFieldsAreRefused : Prop :=
  ∀ (s : State) (w : Word), fetchWord s s.pc = .next w → ReservedByR87 w.toNat →
    ∃ r, step s = .refused (.reserved r)

/-! ### A step -/

/-- Where the bytes at the pc decode to an instruction, a step is that instruction's meaning, then the
moves the agents make before the next one. Rests on the spec's decisions D4, D20, D21 and log 8. -/
def Obligations.StepRunsTheDecodedInstruction : Prop :=
  ∀ (s : State) (i : Instr) (rest : List Byte), s.cfg.Wf → s.pc.toNat % 2 = 0 →
    decode s.cfg (codeBytes s s.pc.toNat 4) = .ok i rest →
    (s.cfg.ifetchCoherent = .yes ∨ ∀ k, k < (encode s.cfg i).length → s.pc.toNat + k ∉ s.selfWritten) →
    step s = andThen (exec i s) fun t => .next (runAgents t)

/-- Under IFETCH_COHERENT = yes a fetch gives the word RAM holds, whoever stored it; so a word stored by ST
(three address forms), PUSH or PUSHLR is fetched as stored. Under refuse_self_modifying the fetch of such a
word is refused (20_memory.md R60). Rests on the spec's decisions D2, D21, D24, D35 and logs 15, 18. -/
def Obligations.StoredWordsAreFetched : Prop :=
  (∀ (s : State) (a v : Word), WordInRam s a → HoldsWord s a v → s.cfg.ifetchCoherent = .yes →
    fetchWord s a = .next v) ∧
  (∀ (s t : State) (d : Reg) (a : Address) (ea n : Word), EffectiveAddress s a ea n → WordInRam s ea →
    exec (stAt d a) s = .next t → FetchesStored t ea (s.reg d)) ∧
  (∀ (s t : State) (r : Reg) (o : Operand) (p : Word), p.toNat = ((s.reg r).toNat + 65534) % 65536 →
    WordInRam s p → exec (pushAt r o) s = .next t →
    (∀ w, o = .imm w → FetchesStored t p w) ∧
    (∀ d, o = .reg d → d ≠ r → FetchesStored t p (s.reg d)) ∧
    (o = .reg r → FetchesStored t p p)) ∧
  ∀ (s t : State) (p : Word), p.toNat = ((s.reg .r7).toNat + 65534) % 65536 → WordInRam s p →
    exec .pushLr s = .next t → FetchesStored t p s.lr

/-- At a JMP.AL to its own address the processor makes no progress: only the agents act
(70_reset_and_hazards.md R266). Rests on the spec's decision D33 and log 8. -/
def Obligations.SelfJumpMakesNoProgress : Prop :=
  ∀ s : State, atSelfJump s = true → step s = .next (runAgents s)

/-! ### Reset and the invariant -/

/-- Reset leaves, for every setting of the parameters, what 10_state.md R30 and 70_reset_and_hazards.md
R260 say of the pc, the FIFOs, the overrun bit, the DMA controller and cr0 bits 15..4. That the parameters
are R3's default column is the model's choice (log 2), and so is that no RAM byte holds a value (log 5).
Rests on the spec's decisions D5, D31, D32 and logs 2, 5. -/
def Obligations.ResetLeavesTheLaunchState : Prop :=
  (∀ c : Config, (State.launch c).pc = c.resetPc ∧ (State.launch c).cfg = c ∧
    (State.launch c).periph.uartTx = [] ∧ (State.launch c).periph.uartRx = [] ∧
    (State.launch c).periph.uartOverrun = false ∧ (State.launch c).periph.dmaTransfer = none ∧
    (State.launch c).flags.toWord.extractLsb' 4 12 = 0 ∧ ∀ a, (State.launch c).ramByte a = none) ∧
  State.reset = State.launch Config.standard ∧ State.reset.pc = 0x0000

/-- The invariant holds right after reset, for every admitted setting of the parameters. That LR is even
there is the model's choice (log 3): 10_state.md R30 leaves LR unspecified. Rests on the spec's decisions
D5, D22, D31, D32 and logs 1, 3, 5, 13. -/
def Obligations.ResetMeetsTheInvariant : Prop :=
  StateInv State.reset ∧ ∀ c : Config, c.Wf → StateInv (State.launch c)

/-- Every step keeps the invariant, from every state that satisfies it. Rests on the spec's decisions D16,
D22, D32 and logs 1, 5, 8, 13. -/
def Obligations.EveryStepKeepsTheInvariant : Prop :=
  ∀ s t : State, StateInv s → step s = .next t → StateInv t

/-! ### Whole-machine frames -/

/-- An instruction that is not a flag writer leaves Z, C, S and V as they are. Rests on the spec's decision
D7. -/
def Obligations.OnlyFlagWritersChangeFlags : Prop :=
  ∀ (i : Instr) (s t : State), exec i s = .next t → writesFlags i = false → t.flags = s.flags

/-- What an instruction leaves unchanged: the general registers it does not write, LR unless it is a CALL,
every byte of RAM outside the bytes it stores to, the external DRAM, the parameters and the agents' moves
to come. Rests on logs 1, 8. -/
def Obligations.InstructionsChangeOnlyWhatTheyName : Prop :=
  ∀ (i : Instr) (s t : State), exec i s = .next t →
    (∀ r, r ∉ writtenRegs i → t.reg r = s.reg r) ∧
    (isCall i = false → t.lr = s.lr) ∧
    (∀ a, (∀ p n, storedBytes s i = some (p, n) → a < p.toNat ∨ p.toNat + n ≤ a) →
      t.ramByte a = s.ramByte a) ∧
    (∀ a, t.extByte a = s.extByte a) ∧ t.cfg = s.cfg ∧ t.agenda = s.agenda

/-! ### Arithmetic -/

/-- ADD and ADC: the sum modulo 65536 with Z, S of it, C its carry, V under each setting of V_RULE; nothing
else changes (10_state.md R22). Rests on the spec's decisions D9, D29 and log 21. -/
def Obligations.AddAndAdcComputeTheSum : Prop :=
  ∀ (s : State) (d : Reg) (o : Operand),
    (∃ t, exec (twoOp .add d o) s = .next t ∧
      SumIs s.cfg (s.reg d) (o.value s) 0 (t.reg d) t.flags ∧
      t.pc = s.pc + o.size ∧ OnlyRegisters [d] s t) ∧
    (∃ t, exec (twoOp .adc d o) s = .next t ∧
      SumIs s.cfg (s.reg d) (o.value s) (if s.flags.c then 1 else 0) (t.reg d) t.flags ∧
      t.pc = s.pc + o.size ∧ OnlyRegisters [d] s t)

/-- SUB and SBB: the difference modulo 65536 with Z, S of it, C by SUB_CARRY, V its signed overflow;
nothing else changes. Rests on the spec's decisions D8, D9, D29. -/
def Obligations.SubAndSbbComputeTheDifference : Prop :=
  ∀ (s : State) (d : Reg) (o : Operand),
    (∃ t, exec (twoOp .sub d o) s = .next t ∧
      DifferenceIs s.cfg (s.reg d) (o.value s) 0 (t.reg d) t.flags ∧
      t.pc = s.pc + o.size ∧ OnlyRegisters [d] s t) ∧
    (∃ t, exec (twoOp .sbb d o) s = .next t ∧
      DifferenceIs s.cfg (s.reg d) (o.value s) (borrowIn s) (t.reg d) t.flags ∧
      t.pc = s.pc + o.size ∧ OnlyRegisters [d] s t)

/-- NEG: the subtraction 0 - rD with its flags; in particular V exactly for 0x8000 and, under SUB_CARRY =
borrow, C exactly for a non-zero rD. Rests on the spec's decisions D8, D29. -/
def Obligations.NegSubtractsFromZero : Prop :=
  ∀ (s : State) (d : Reg), ∃ t, exec (.negR d) s = .next t ∧
    DifferenceIs s.cfg 0 (s.reg d) 0 (t.reg d) t.flags ∧
    (t.flags.v = true ↔ s.reg d = 0x8000) ∧
    (s.cfg.subCarry = .borrow → (t.flags.c = true ↔ s.reg d ≠ 0)) ∧
    t.pc = s.pc + 2 ∧ OnlyRegisters [d] s t

/-- CMP sets exactly SUB's flags, which are those of the difference (40_arithmetic.md R105), and TEST
exactly AND's, which are those of the bitwise and with C and V clear (43_logic.md R144); neither writes a
register. Rests on the spec's decisions D8, D9, D27 and logs 20, 21. -/
def Obligations.CmpAndTestOnlySetFlags : Prop :=
  ∀ (s : State) (d : Reg) (o : Operand),
    (∃ t u, exec (twoOp .cmp d o) s = .next t ∧ exec (twoOp .sub d o) s = .next u ∧
      t.flags = u.flags ∧ DifferenceIs s.cfg (s.reg d) (o.value s) 0 (u.reg d) t.flags ∧
      t.pc = s.pc + o.size ∧ OnlyRegisters [] s t) ∧
    (∃ t u, exec (twoOp .test d o) s = .next t ∧ exec (twoOp .and d o) s = .next u ∧
      t.flags = u.flags ∧
      (∀ k, k < 16 → (u.reg d).getLsbD k = ((s.reg d).getLsbD k && (o.value s).getLsbD k)) ∧
      FlagsSay t.flags (u.reg d) False False ∧ t.pc = s.pc + o.size ∧ OnlyRegisters [] s t)

/-- ADD then ADC adds two 32 bit numbers, SUB then SBB subtracts them: C and V of the pair are those of the
32 bit operation, S and Z those of the high word (40_arithmetic.md R107). Rests on the spec's decisions D8,
D9. -/
def Obligations.MultiWordArithmetic : Prop :=
  ∀ (s : State) (dl dh sl sh : Reg), dh ≠ dl → sh ≠ dl →
    (∃ t u, exec (.addR dl sl) s = .next t ∧ exec (.adcR dh sh) t = .next u ∧
      (u.reg dh).toNat * 65536 + (u.reg dl).toNat =
        ((s.reg dh).toNat * 65536 + (s.reg dl).toNat + ((s.reg sh).toNat * 65536 + (s.reg sl).toNat))
          % 4294967296 ∧
      (u.flags.c = true ↔ 4294967296 ≤
        (s.reg dh).toNat * 65536 + (s.reg dl).toNat + ((s.reg sh).toNat * 65536 + (s.reg sl).toNat)) ∧
      (s.cfg.vRule = .signedOverflow →
        (u.flags.v = true ↔
          ¬ (-2147483648 ≤ (s.reg dh).toInt * 65536 + (s.reg dl).toNat + ((s.reg sh).toInt * 65536 + (s.reg sl).toNat) ∧
            (s.reg dh).toInt * 65536 + (s.reg dl).toNat + ((s.reg sh).toInt * 65536 + (s.reg sl).toNat) ≤ 2147483647))) ∧
      (u.flags.z = true ↔ u.reg dh = 0) ∧ (u.flags.s = true ↔ (u.reg dh).toInt < 0)) ∧
    (∃ t u, exec (.subR dl sl) s = .next t ∧ exec (.sbbR dh sh) t = .next u ∧
      ((u.reg dh).toNat * 65536 + (u.reg dl).toNat : Int) =
        (((s.reg dh).toNat * 65536 + (s.reg dl).toNat : Int) - ((s.reg sh).toNat * 65536 + (s.reg sl).toNat))
          % 4294967296 ∧
      (u.flags.c = true ↔ CarrySaysBorrow s.cfg
        ((s.reg dh).toNat * 65536 + (s.reg dl).toNat < (s.reg sh).toNat * 65536 + (s.reg sl).toNat)) ∧
      (u.flags.v = true ↔
        ¬ (-2147483648 ≤ (s.reg dh).toInt * 65536 + (s.reg dl).toNat - ((s.reg sh).toInt * 65536 + (s.reg sl).toNat) ∧
          (s.reg dh).toInt * 65536 + (s.reg dl).toNat - ((s.reg sh).toInt * 65536 + (s.reg sl).toNat) ≤ 2147483647)) ∧
      (u.flags.z = true ↔ u.reg dh = 0) ∧ (u.flags.s = true ↔ (u.reg dh).toInt < 0))

/-! ### Logic -/

/-- AND, OR, XOR and NOT act bit by bit, set Z and S of the result and clear C and V (43_logic.md R140 to
R143); ROL's flags are of the same kind (10_state.md R24). -/
def Obligations.LogicActsBitByBit : Prop :=
  ∀ (s : State) (d : Reg) (o : Operand),
    (∃ t, exec (twoOp .and d o) s = .next t ∧
      (∀ k, k < 16 → (t.reg d).getLsbD k = ((s.reg d).getLsbD k && (o.value s).getLsbD k)) ∧
      FlagsSay t.flags (t.reg d) False False ∧ t.pc = s.pc + o.size ∧ OnlyRegisters [d] s t) ∧
    (∃ t, exec (twoOp .or d o) s = .next t ∧
      (∀ k, k < 16 → (t.reg d).getLsbD k = ((s.reg d).getLsbD k || (o.value s).getLsbD k)) ∧
      FlagsSay t.flags (t.reg d) False False ∧ t.pc = s.pc + o.size ∧ OnlyRegisters [d] s t) ∧
    (∃ t, exec (twoOp .xor d o) s = .next t ∧
      (∀ k, k < 16 → (t.reg d).getLsbD k = ((s.reg d).getLsbD k != (o.value s).getLsbD k)) ∧
      FlagsSay t.flags (t.reg d) False False ∧ t.pc = s.pc + o.size ∧ OnlyRegisters [d] s t) ∧
    (∃ t, exec (.notR d) s = .next t ∧
      (∀ k, k < 16 → (t.reg d).getLsbD k = !(s.reg d).getLsbD k) ∧
      FlagsSay t.flags (t.reg d) False False ∧ t.pc = s.pc + 2 ∧ OnlyRegisters [d] s t) ∧
    (∃ t, exec (twoOp .rol d o) s = .next t ∧ FlagsSay t.flags (t.reg d) False False ∧
      t.pc = s.pc + o.size ∧ OnlyRegisters [d] s t)

/-- After AND, OR, XOR, NOT or TEST: HI, CS and OS are false, CC and OC true, GE is P, L is N, G is "S
clear and Z clear", LE is "Z set or S set" (43_logic.md R145). Rests on the spec's decisions D27, D28. -/
def Obligations.ConditionsAfterLogic : Prop :=
  ∀ (s t : State) (d : Reg) (o : Operand) (i : Instr),
    i ∈ [twoOp .and d o, twoOp .or d o, twoOp .xor d o, twoOp .test d o, .notR d] → exec i s = .next t →
    ¬ CondExpr t.cfg t.flags .hi ∧ ¬ CondExpr t.cfg t.flags .cs ∧ CondExpr t.cfg t.flags .cc ∧
    ¬ CondExpr t.cfg t.flags .os ∧ CondExpr t.cfg t.flags .oc ∧
    (CondExpr t.cfg t.flags .ge ↔ CondExpr t.cfg t.flags .p) ∧
    (CondExpr t.cfg t.flags .l ↔ CondExpr t.cfg t.flags .n) ∧
    (CondExpr t.cfg t.flags .g ↔ t.flags.s = false ∧ t.flags.z = false) ∧
    (CondExpr t.cfg t.flags .le ↔ t.flags.z = true ∨ t.flags.s = true)

/-! ### Shifts and rotates -/

/-- SHL and SHR by 0 to 15 positions: result, Z, S, V clear, and C the last bit shifted out under the
default SHIFT_CARRY (46_shift_rotate.md R181, R182). Rests on the spec's decision D11 and log 10. -/
def Obligations.ShlAndShrByLessThanSixteen : Prop :=
  ∀ (s : State) (d : Reg) (o : Operand), (o.value s).toNat < 16 →
    (∃ t, exec (twoOp .shl d o) s = .next t ∧
      (t.reg d).toNat = (s.reg d).toNat * 2 ^ (o.value s).toNat % 65536 ∧
      FlagsSay t.flags (t.reg d) (t.flags.c = true) False ∧
      (s.cfg.shiftCarry = .lastBitOut →
        (t.flags.c = true ↔ (s.reg d).toNat * 2 ^ (o.value s).toNat / 65536 % 2 = 1)) ∧
      t.pc = s.pc + o.size ∧ OnlyRegisters [d] s t) ∧
    (∃ t, exec (twoOp .shr d o) s = .next t ∧
      (t.reg d).toNat = (s.reg d).toNat / 2 ^ (o.value s).toNat ∧
      FlagsSay t.flags (t.reg d) (t.flags.c = true) False ∧
      (s.cfg.shiftCarry = .lastBitOut →
        (t.flags.c = true ↔ 1 ≤ (o.value s).toNat ∧ (s.reg d).toNat / 2 ^ ((o.value s).toNat - 1) % 2 = 1)) ∧
      t.pc = s.pc + o.size ∧ OnlyRegisters [d] s t)

/-- SAR by 0 to 15 positions: signed division by a power of two rounding toward minus infinity, flags as
SHR's (46_shift_rotate.md R183). Rests on the spec's decisions D11, D12 and log 10. -/
def Obligations.SarDividesRoundingDown : Prop :=
  ∀ (s : State) (d : Reg) (o : Operand), (o.value s).toNat < 16 →
    ∃ t, exec (twoOp .sar d o) s = .next t ∧
      (t.reg d).toInt = (s.reg d).toInt / 2 ^ (o.value s).toNat ∧
      FlagsSay t.flags (t.reg d) (t.flags.c = true) False ∧
      (t.flags.s = true ↔ (s.reg d).toInt < 0) ∧
      (s.cfg.shiftCarry = .lastBitOut →
        (t.flags.c = true ↔ 1 ≤ (o.value s).toNat ∧ (s.reg d).getLsbD ((o.value s).toNat - 1) = true)) ∧
      t.pc = s.pc + o.size ∧ OnlyRegisters [d] s t

/-- ROL by any amount: bit k goes to bit (k + amount) mod 16; Z, S of the result, C and V clear
(46_shift_rotate.md R184). -/
def Obligations.RolRotatesSixteenBits : Prop :=
  ∀ (s : State) (d : Reg) (o : Operand), ∃ t, exec (twoOp .rol d o) s = .next t ∧
    (∀ k, k < 16 → (t.reg d).getLsbD ((k + (o.value s).toNat) % 16) = (s.reg d).getLsbD k) ∧
    FlagsSay t.flags (t.reg d) False False ∧ t.pc = s.pc + o.size ∧ OnlyRegisters [d] s t

/-- RCL by 0 to 15 positions: in the 17 bits of C above rD, bit k goes to bit (k + amount) mod 17; Z, S of
the result, V clear (46_shift_rotate.md R185). Rests on the spec's decision D13. -/
def Obligations.RclRotatesSeventeenBits : Prop :=
  ∀ (s : State) (d : Reg) (o : Operand), (o.value s).toNat < 16 →
    ∃ t, exec (twoOp .rcl d o) s = .next t ∧
      (∀ k, k < 17 →
        (if (k + (o.value s).toNat) % 17 = 16 then t.flags.c
          else (t.reg d).getLsbD ((k + (o.value s).toNat) % 17)) =
        if k = 16 then s.flags.c else (s.reg d).getLsbD k) ∧
      FlagsSay t.flags (t.reg d) (t.flags.c = true) False ∧
      t.pc = s.pc + o.size ∧ OnlyRegisters [d] s t

/-- SHL, SHR, SAR and RCL by 16 or more under the default SHIFT_AMOUNT_GE16: the instruction completes, V
is 0, nothing but rD, the other flags and the pc changes; the values the rule leaves unspecified are free
(46_shift_rotate.md R180). Rests on the spec's decision D10 and log 7. -/
def Obligations.ShiftBySixteenOrMoreCompletes : Prop :=
  ∀ (s : State) (d : Reg) (o : Operand) (k : TwoOp), k ∈ [.shl, .shr, .sar, .rcl] →
    16 ≤ (o.value s).toNat → s.cfg.shiftAmountGe16 = .unspecified →
    ∃ t, exec (twoOp k d o) s = .next t ∧ t.flags.v = false ∧ t.pc = s.pc + o.size ∧
      OnlyRegisters [d] s t

/-- What the other settings of SHIFT_AMOUNT_GE16 give for 16 or more (46_shift_rotate.md R186), the C of
SHL, SHR and SAR under the default SHIFT_CARRY. Rests on the spec's decisions D10, D11, D12, D13 and log
10. -/
def Obligations.ShiftBySixteenOrMoreFullOrLow4 : Prop :=
  ∀ (s : State) (d : Reg) (o : Operand), 16 ≤ (o.value s).toNat →
    (s.cfg.shiftAmountGe16 = .full →
      (∃ t, exec (twoOp .shl d o) s = .next t ∧ t.reg d = 0 ∧
        FlagsSay t.flags (t.reg d) (t.flags.c = true) False ∧
        (s.cfg.shiftCarry = .lastBitOut →
          (t.flags.c = true ↔ (o.value s).toNat = 16 ∧ (s.reg d).getLsbD 0 = true)) ∧
        t.pc = s.pc + o.size ∧ OnlyRegisters [d] s t) ∧
      (∃ t, exec (twoOp .shr d o) s = .next t ∧ t.reg d = 0 ∧
        FlagsSay t.flags (t.reg d) (t.flags.c = true) False ∧
        (s.cfg.shiftCarry = .lastBitOut →
          (t.flags.c = true ↔ (o.value s).toNat = 16 ∧ (s.reg d).getLsbD 15 = true)) ∧
        t.pc = s.pc + o.size ∧ OnlyRegisters [d] s t) ∧
      (∃ t, exec (twoOp .sar d o) s = .next t ∧
        t.reg d = (if (s.reg d).getLsbD 15 then 0xFFFF else 0) ∧
        FlagsSay t.flags (t.reg d) (t.flags.c = true) False ∧
        (s.cfg.shiftCarry = .lastBitOut → (t.flags.c = true ↔ (s.reg d).getLsbD 15 = true)) ∧
        t.pc = s.pc + o.size ∧ OnlyRegisters [d] s t) ∧
      (∃ t, exec (twoOp .rcl d o) s = .next t ∧
        (∀ k, k < 17 →
          (if (k + (o.value s).toNat) % 17 = 16 then t.flags.c
            else (t.reg d).getLsbD ((k + (o.value s).toNat) % 17)) =
          if k = 16 then s.flags.c else (s.reg d).getLsbD k) ∧
        FlagsSay t.flags (t.reg d) (t.flags.c = true) False ∧
        t.pc = s.pc + o.size ∧ OnlyRegisters [d] s t)) ∧
    (s.cfg.shiftAmountGe16 = .low4 → ∀ k ∈ [TwoOp.shl, .shr, .sar, .rcl],
      ∃ t u, exec (twoOp k d o) s = .next t ∧
        exec (twoOp k d (.imm (BitVec.ofNat 16 ((o.value s).toNat % 16)))) s = .next u ∧
        t.reg d = u.reg d ∧ t.flags = u.flags ∧ t.pc = s.pc + o.size ∧ OnlyRegisters [d] s t)

/-- SHL lo, 1 then RCL hi, 1 shifts the 32 bit value left by one, under the default SHIFT_CARRY
(46_shift_rotate.md R187). Rests on the spec's decisions D11, D13. -/
def Obligations.MultiWordShiftLeft : Prop :=
  ∀ (s : State) (lo hi : Reg), hi ≠ lo → s.cfg.shiftCarry = .lastBitOut →
    ∃ t u, exec (.shlI lo 1) s = .next t ∧ exec (.rclI hi 1) t = .next u ∧
      (u.reg hi).toNat * 65536 + (u.reg lo).toNat =
        ((s.reg hi).toNat * 65536 + (s.reg lo).toNat) * 2 % 4294967296 ∧
      (u.flags.c = true ↔ 32768 ≤ (s.reg hi).toNat)

/-! ### Moves and conditions -/

/-- MOV in both encodings: rD gets op2 or the byte by MOVB_EXTEND, no flag changes (42_move.md R130, R131).
Rests on the spec's decision D15. -/
def Obligations.MovCopiesItsOperand : Prop :=
  ∀ (s : State) (d : Reg) (o : Operand) (b : Byte),
    (∃ t, exec (movAt d o) s = .next t ∧ t.reg d = o.value s ∧ t.flags = s.flags ∧
      t.pc = s.pc + o.size ∧ OnlyRegisters [d] s t) ∧
    (∃ t, exec (movbAt d b) s = .next t ∧
      (s.cfg.movbExtend = .zero → (t.reg d).toNat = b.toNat) ∧
      (s.cfg.movbExtend = .sign → (t.reg d).toInt = b.toInt) ∧
      t.flags = s.flags ∧ t.pc = s.pc + 2 ∧ OnlyRegisters [d] s t)

/-- The byte MOV and the general MOV of the same value leave the same state but for the pc, 2 bytes apart
(42_move.md R132). Rests on the spec's decision D15. -/
def Obligations.MovEncodingsAgree : Prop :=
  ∀ (s : State) (d : Reg) (w : Word), w.toNat < 256 → s.cfg.movbExtend = .zero →
    ∃ t u, exec (movbAt d (w.extractLsb' 0 8)) s = .next t ∧ exec (.movI d w) s = .next u ∧
      u.pc = t.pc + 2 ∧ u.setPc t.pc = t

/-- LDCP: cr0 reads as Z, C, S, V in bits 0 to 3 with zeros above; cr1 to cr15 read as any value, or are
refused, by UNIMPL_CR_READ (42_move.md R133; 10_state.md R26, R27). Rests on the spec's decisions D7, D25
and log 7. -/
def Obligations.LdcpReadsTheFlags : Prop :=
  ∀ (s : State) (d : Reg),
    (∃ t, exec (.ldcp d 0) s = .next t ∧
      (t.reg d).toNat = (if s.flags.z then 1 else 0) + (if s.flags.c then 2 else 0)
        + (if s.flags.s then 4 else 0) + (if s.flags.v then 8 else 0) ∧
      t.flags = s.flags ∧ t.pc = s.pc + 2 ∧ OnlyRegisters [d] s t) ∧
    (∀ cr, 1 ≤ cr → cr ≤ 15 →
      (s.cfg.unimplCrRead = .anyValue → ∃ t, exec (.ldcp d cr) s = .next t ∧
        t.flags = s.flags ∧ t.pc = s.pc + 2 ∧ OnlyRegisters [d] s t) ∧
      (s.cfg.unimplCrRead = .refuse →
        exec (.ldcp d cr) s = .refused .unimplementedCoprocessorRegister))

/-- SET always writes rD: 1 if the Expression column of the condition table holds, else 0 (42_move.md R134,
45_control.md R160). Rests on the spec's decisions D7, D28. -/
def Obligations.SetMaterialisesTheCondition : Prop :=
  ∀ (s : State) (cond : Cond) (d : Reg), ∃ t, exec (.setCc cond d) s = .next t ∧
    (CondExpr s.cfg s.flags cond → t.reg d = 1) ∧ (¬ CondExpr s.cfg s.flags cond → t.reg d = 0) ∧
    t.flags = s.flags ∧ t.pc = s.pc + 2 ∧ OnlyRegisters [d] s t

/-- What each condition says after CMP a, b: under the default parameters (45_control.md R164), and for HI
and LS under SUB_CARRY = not_borrow too (R160). Rests on the spec's decisions D8, D9, D28 and log 20. -/
def Obligations.ConditionsAfterCmp : Prop :=
  ∀ (s : State) (d : Reg) (o : Operand), ∃ t, exec (twoOp .cmp d o) s = .next t ∧
    (CondExpr t.cfg t.flags .eq ↔ s.reg d = o.value s) ∧
    (CondExpr t.cfg t.flags .ne ↔ s.reg d ≠ o.value s) ∧
    (s.cfg.subCarry = .borrow →
      (CondExpr t.cfg t.flags .cs ↔ (s.reg d).toNat < (o.value s).toNat) ∧
      (CondExpr t.cfg t.flags .cc ↔ (o.value s).toNat ≤ (s.reg d).toNat) ∧
      (CondExpr t.cfg t.flags .hi ↔ (s.reg d).toNat < (o.value s).toNat) ∧
      (s.cfg.lsExpr = .conj → (CondExpr t.cfg t.flags .ls ↔ s.reg d = o.value s))) ∧
    (s.cfg.subCarry = .notBorrow →
      (CondExpr t.cfg t.flags .hi ↔ (o.value s).toNat < (s.reg d).toNat) ∧
      (s.cfg.lsExpr = .conj → ¬ CondExpr t.cfg t.flags .ls) ∧
      (s.cfg.lsExpr = .disj → (CondExpr t.cfg t.flags .ls ↔ (s.reg d).toNat ≤ (o.value s).toNat))) ∧
    (s.cfg.vRule = .signedOverflow →
      (CondExpr t.cfg t.flags .ge ↔ (o.value s).toInt ≤ (s.reg d).toInt) ∧
      (CondExpr t.cfg t.flags .g ↔ (o.value s).toInt < (s.reg d).toInt) ∧
      (CondExpr t.cfg t.flags .le ↔ (s.reg d).toInt ≤ (o.value s).toInt) ∧
      (CondExpr t.cfg t.flags .l ↔ (s.reg d).toInt < (o.value s).toInt)) ∧
    (CondExpr t.cfg t.flags .n ↔ (s.reg d - o.value s).getLsbD 15 = true) ∧
    (CondExpr t.cfg t.flags .p ↔ (s.reg d - o.value s).getLsbD 15 = false) ∧
    (CondExpr t.cfg t.flags .os ↔ OutOfRange ((s.reg d).toInt - (o.value s).toInt)) ∧
    (CondExpr t.cfg t.flags .oc ↔ ¬ OutOfRange ((s.reg d).toInt - (o.value s).toInt))

/-! ### Loads and stores -/

/-- LD from RAM, in its three address forms (44_load_store.md R150, R155). Rests on the spec's decisions
D2, D7, D35. -/
def Obligations.LdReadsAWordOfRam : Prop :=
  ∀ (s : State) (d : Reg) (a : Address) (ea n v : Word), EffectiveAddress s a ea n →
    WordInRam s ea → HoldsWord s ea v →
    ∃ t, exec (ldAt d a) s = .next t ∧ t.reg d = v ∧ t.flags = s.flags ∧ t.pc = s.pc + n ∧
      OnlyRegisters [d] s t

/-- LD.b from RAM, in its three address forms: the byte, extended by LDB_EXTEND (44_load_store.md R151,
R155). Rests on the spec's decisions D7, D14, D35. -/
def Obligations.LdbReadsAByteOfRam : Prop :=
  ∀ (s : State) (d : Reg) (a : Address) (ea n : Word) (b : Byte), EffectiveAddress s a ea n →
    InRam s ea → s.ramByte ea.toNat = some b →
    ∃ t, exec (ldbAt d a) s = .next t ∧ ByteLoaded s.cfg (t.reg d) b ∧ t.flags = s.flags ∧
      t.pc = s.pc + n ∧ OnlyRegisters [d] s t

/-- ST to RAM, in its three address forms: the two bytes at EA hold rD, in the machine's byte order, and
nothing else changes (44_load_store.md R152, R155). Rests on the spec's decisions D2, D7, D35. -/
def Obligations.StWritesAWordOfRam : Prop :=
  ∀ (s : State) (d : Reg) (a : Address) (ea n : Word), EffectiveAddress s a ea n → WordInRam s ea →
    ∃ t, exec (stAt d a) s = .next t ∧ HoldsWord t ea (s.reg d) ∧ t.pc = s.pc + n ∧
      OnlyRegistersAndRam [] ea.toNat 2 s t

/-- ST.b to RAM, in its three address forms: the byte at EA is the low byte of rD, and nothing else changes
(44_load_store.md R153, R155). Rests on the spec's decisions D7, D35. -/
def Obligations.StbWritesAByteOfRam : Prop :=
  ∀ (s : State) (d : Reg) (a : Address) (ea n : Word), EffectiveAddress s a ea n → InRam s ea →
    ∃ t, exec (stbAt d a) s = .next t ∧ t.ramByte ea.toNat = some ((s.reg d).extractLsb' 0 8) ∧
      t.pc = s.pc + n ∧ OnlyRegistersAndRam [] ea.toNat 1 s t

/-- The words 0x1340 to 0x137F, 0x13C0 to 0x13FF, 0x1440 to 0x147F and 0x14C0 to 0x14FF, LD and ST with the
displacement flag and no immediate flag, are undefined: the machine stops on every one (44_load_store.md
R154). Rests on the spec's decision D17. -/
def Obligations.DisplacementWithoutImmediateFaults : Prop :=
  (∀ (s : State) (d r : Reg) (i : Instr), i ∈ [.ldU d r, .ldbU d r, .stU d r, .stbU d r] →
    exec i s = .fault .displacementWithoutImmediate) ∧
  ∀ (s : State) (w : Word), fetchWord s s.pc = .next w →
    (0x1340 ≤ w.toNat ∧ w.toNat ≤ 0x137F) ∨ (0x13C0 ≤ w.toNat ∧ w.toNat ≤ 0x13FF) ∨
      (0x1440 ≤ w.toNat ∧ w.toNat ≤ 0x147F) ∨ (0x14C0 ≤ w.toNat ∧ w.toNat ≤ 0x14FF) →
    step s = .fault .displacementWithoutImmediate

/-- A word access at an odd address is undefined: LD, ST, PUSH, POP and PUSHLR stop, and so does a step
whose pc is odd; a byte access never stops for its alignment (20_memory.md R50). Rests on the spec's
decision D16. -/
def Obligations.MisalignedWordAccessFaults : Prop :=
  (∀ (s : State) (i : Instr) (ea : Word), wordAddress s i = some ea → ea.toNat % 2 = 1 →
    exec i s = .fault .misalignedAccess) ∧
  (∀ s : State, s.pc.toNat % 2 = 1 → step s = .fault .misalignedFetch) ∧
  ∀ (s : State) (i : Instr) (ea : Word), byteAddress s i = some ea →
    exec i s ≠ .fault .misalignedAccess

/-- An access where nothing is fitted (20_memory.md R41), where no register is documented (R44) or at the
wrong size (R45) stops, for every instruction that accesses memory and for both fetches of a step, of the
instruction word and of the immediate word (R48, R74). Rests on the spec's decisions D4, D22, D23, D36 and
log 19. -/
def Obligations.AccessesOutsideMemoryFault : Prop :=
  (∀ (s : State) (i : Instr) (ea : Word), wordAddress s i = some ea → ea.toNat % 2 = 0 →
    (s.cfg.ramSize ≤ ea.toNat → ea.toNat < 0xFF00 → exec i s = .fault .noMemory) ∧
    (ea = 0xFF00 ∨ ea = 0xFF02 → exec i s = .fault .wordAccessToByteRegister) ∧
    (0xFF12 ≤ ea.toNat → exec i s = .fault .noPeripheralRegister)) ∧
  (∀ (s : State) (i : Instr) (ea : Word), byteAddress s i = some ea →
    (s.cfg.ramSize ≤ ea.toNat → ea.toNat < 0xFF00 → exec i s = .fault .noMemory) ∧
    (0xFF04 ≤ ea.toNat → ea.toNat ≤ 0xFF11 → exec i s = .fault .byteAccessToWordRegister) ∧
    (ea = 0xFF01 ∨ 0xFF12 ≤ ea.toNat → exec i s = .fault .noPeripheralRegister)) ∧
  ∀ s : State, s.pc.toNat % 2 = 0 →
    (s.cfg.ramSize ≤ s.pc.toNat → s.pc.toNat < 0xFF00 → step s = .fault .noMemory) ∧
    (0xFF00 ≤ s.pc.toNat → step s = .fault .fetchFromPeripheral) ∧
    ∀ w k, fetchWord s s.pc = .next w → decodeHead s.cfg w = .long k →
      (s.cfg.ramSize ≤ s.pc.toNat + 2 → s.pc.toNat + 2 < 0xFF00 → step s = .fault .noMemory) ∧
      (0xFF00 ≤ s.pc.toNat + 2 → step s = .fault .fetchFromPeripheral)

/-- A load of a RAM byte that nothing has written stops. This is the model's choice, log 5, after
10_state.md R31 ("A model should make such a read a fault"). Rests on the spec's decision D5 and log 5. -/
def Obligations.LoadsOfUnwrittenRamFault : Prop :=
  ∀ (s : State) (i : Instr) (ea : Word), isLoad i = true →
    (wordAddress s i = some ea → WordInRam s ea →
      s.ramByte ea.toNat = none ∨ s.ramByte (ea.toNat + 1) = none → exec i s = .fault .neverWritten) ∧
    (byteAddress s i = some ea → InRam s ea → s.ramByte ea.toNat = none →
      exec i s = .fault .neverWritten)

/-! ### Stack -/

/-- PUSH: the pointer drops by 2 modulo 65536 and the word at the new pointer is the value, read after the
pointer's update (41_stack.md R120). Rests on the spec's decisions D2, D24, D35 and log 18. -/
def Obligations.PushStoresBelowThePointer : Prop :=
  ∀ (s : State) (r : Reg) (o : Operand) (p : Word), p.toNat = ((s.reg r).toNat + 65534) % 65536 →
    WordInRam s p →
    ∃ t, exec (pushAt r o) s = .next t ∧ t.reg r = p ∧
      (∀ w, o = .imm w → HoldsWord t p w) ∧
      (∀ d, o = .reg d → d ≠ r → HoldsWord t p (s.reg d)) ∧
      (o = .reg r → HoldsWord t p p) ∧
      t.pc = s.pc + o.size ∧ OnlyRegistersAndRam [r] p.toNat 2 s t

/-- POP: rD gets the word at the pointer, then the pointer rises by 2 modulo 65536; a POP of its own
pointer ends with the loaded value plus 2 (41_stack.md R121). Rests on the spec's decisions D2, D24, D35
and log 18. -/
def Obligations.PopLoadsAtThePointer : Prop :=
  ∀ (s : State) (d r : Reg) (v : Word), WordInRam s (s.reg r) → HoldsWord s (s.reg r) v →
    ∃ t, exec (.pop d r) s = .next t ∧
      (d ≠ r → t.reg d = v ∧ (t.reg r).toNat = ((s.reg r).toNat + 2) % 65536) ∧
      (d = r → (t.reg r).toNat = (v.toNat + 2) % 65536) ∧
      t.flags = s.flags ∧ t.pc = s.pc + 2 ∧ OnlyRegisters [d, r] s t

/-- PUSHLR: r7 drops by 2 modulo 65536 and the word there is LR, which keeps its value (41_stack.md R122).
Rests on the spec's decisions D2, D7, D35. -/
def Obligations.PushLrStoresTheLinkRegister : Prop :=
  ∀ (s : State) (p : Word), p.toNat = ((s.reg .r7).toNat + 65534) % 65536 → WordInRam s p →
    ∃ t, exec .pushLr s = .next t ∧ t.reg .r7 = p ∧ HoldsWord t p s.lr ∧ t.pc = s.pc + 2 ∧
      OnlyRegistersAndRam [.r7] p.toNat 2 s t

/-- PUSH x then POP y through one pointer, all three registers distinct: y gets x and the pointer is
restored (95_test_vectors.md section 3). Rests on the spec's decision D35. -/
def Obligations.PushThenPopRestores : Prop :=
  ∀ (s : State) (x y p : Reg), x ≠ p → y ≠ p → x ≠ y → WordInRam s (s.reg p - 2) →
    ∃ t u, exec (.pushR x p) s = .next t ∧ exec (.pop y p) t = .next u ∧
      u.reg y = s.reg x ∧ u.reg p = s.reg p ∧ (∀ q, q ≠ y → u.reg q = s.reg q) ∧ u.flags = s.flags

/-- PUSH and PUSHLR to the address of a 16 bit peripheral register write it, POP from one reads it
(41_stack.md R120, R121): shown at IO_UART_BAUD, 0xFF04. Rests on the spec's decisions D7, D23, D24. -/
def Obligations.StackReachesWordRegisters : Prop :=
  ∀ (s : State) (r : Reg),
    (∀ w, s.reg r = 0xFF06 → ∃ t, exec (.pushI r w) s = .next t ∧ t.reg r = 0xFF04 ∧
      t.periph = { s.periph with uartBaud := w } ∧ t.pc = s.pc + 4 ∧ OnlyRegistersAndDevices [r] s t) ∧
    (∀ d, d ≠ r → s.reg r = 0xFF06 → ∃ t, exec (.pushR d r) s = .next t ∧ t.reg r = 0xFF04 ∧
      t.periph = { s.periph with uartBaud := s.reg d } ∧ t.pc = s.pc + 2 ∧
      OnlyRegistersAndDevices [r] s t) ∧
    (s.reg .r7 = 0xFF06 → ∃ t, exec .pushLr s = .next t ∧ t.reg .r7 = 0xFF04 ∧
      t.periph = { s.periph with uartBaud := s.lr } ∧ t.pc = s.pc + 2 ∧
      OnlyRegistersAndDevices [.r7] s t) ∧
    (∀ d, d ≠ r → s.reg r = 0xFF04 → ∃ t, exec (.pop d r) s = .next t ∧ t.reg d = s.periph.uartBaud ∧
      t.reg r = 0xFF06 ∧ t.flags = s.flags ∧ t.pc = s.pc + 2 ∧ OnlyRegisters [d, r] s t)

/-! ### Control transfer -/

/-- JMP: to the target when the condition holds and the target is even, undefined when it is odd, to the
next instruction when the condition does not hold (45_control.md R161). Rests on the spec's decisions D4,
D7, D16, D28. -/
def Obligations.JmpGoesToItsTarget : Prop :=
  ∀ (s : State) (cond : Cond) (o : Operand),
    (CondExpr s.cfg s.flags cond → (o.value s).toNat % 2 = 0 →
      ∃ t, exec (jmpAt cond o) s = .next t ∧ t.pc = o.value s ∧ t.flags = s.flags ∧
        OnlyRegisters [] s t) ∧
    (CondExpr s.cfg s.flags cond → (o.value s).toNat % 2 = 1 →
      exec (jmpAt cond o) s = .fault .misalignedTarget) ∧
    (¬ CondExpr s.cfg s.flags cond →
      ∃ t, exec (jmpAt cond o) s = .next t ∧ t.pc = s.pc + o.size ∧ t.flags = s.flags ∧
        OnlyRegisters [] s t)

/-- CALL: as JMP, and LR gets the address of the instruction after the CALL; a CALL whose condition does
not hold leaves LR (45_control.md R162). Rests on the spec's decisions D4, D6, D7, D16, D28. -/
def Obligations.CallLinksAndJumps : Prop :=
  ∀ (s : State) (cond : Cond) (o : Operand),
    (CondExpr s.cfg s.flags cond → (o.value s).toNat % 2 = 0 →
      ∃ t, exec (callAt cond o) s = .next t ∧ t.pc = o.value s ∧ t.lr = s.pc + o.size ∧
        t.flags = s.flags ∧ OnlyRegisters [] s (t.setLr s.lr)) ∧
    (CondExpr s.cfg s.flags cond → (o.value s).toNat % 2 = 1 →
      exec (callAt cond o) s = .fault .misalignedTarget) ∧
    (¬ CondExpr s.cfg s.flags cond →
      ∃ t, exec (callAt cond o) s = .next t ∧ t.pc = s.pc + o.size ∧ t.flags = s.flags ∧
        OnlyRegisters [] s t)

/-- RET: to LR, which keeps its value; an odd LR is undefined (45_control.md R163). Rests on the spec's
decisions D7, D16. -/
def Obligations.RetGoesToTheLinkRegister : Prop :=
  ∀ s : State,
    (s.lr.toNat % 2 = 0 → ∃ t, exec .ret s = .next t ∧ t.pc = s.lr ∧ t.flags = s.flags ∧
      OnlyRegisters [] s t) ∧
    (s.lr.toNat % 2 = 1 → exec .ret s = .fault .misalignedTarget)

/-- A taken CALL followed by RET continues after the CALL with every general register unchanged
(95_test_vectors.md section 3). Rests on the spec's decisions D6, D7. -/
def Obligations.CallThenRetReturns : Prop :=
  ∀ (s : State) (cond : Cond) (o : Operand), CondExpr s.cfg s.flags cond →
    (o.value s).toNat % 2 = 0 → s.pc.toNat % 2 = 0 →
    ∃ t u, exec (callAt cond o) s = .next t ∧ exec .ret t = .next u ∧
      u.pc = s.pc + o.size ∧ (∀ r, u.reg r = s.reg r) ∧ u.flags = s.flags ∧
      ∀ a, u.ramByte a = s.ramByte a

/-! ### Peripherals -/

/-- IO_LED_DATA: ST.b writes the latch and the outside sees it, LD.b returns the last value written,
extended by LDB_EXTEND (60_exceptions.md R211, 44_load_store.md R151). Rests on the spec's decisions D7,
D14, D39 and log 14. -/
def Obligations.LedLatchHoldsWhatWasWritten : Prop :=
  ∀ (s : State) (d : Reg) (a : Address) (n : Word), EffectiveAddress s a 0xFF00 n →
    (∃ t, exec (stbAt d a) s = .next t ∧
      t.periph = { s.periph with led := (s.reg d).extractLsb' 0 8 } ∧
      t.output = s.output ++ [.led ((s.reg d).extractLsb' 0 8)] ∧
      t.pc = s.pc + n ∧ OnlyRegistersAndDevices [] s t) ∧
    (∃ t, exec (ldbAt d a) s = .next t ∧ ByteLoaded s.cfg (t.reg d) s.periph.led ∧
      t.flags = s.flags ∧ t.pc = s.pc + n ∧ OnlyRegisters [d] s t)

/-- IO_UART_DATA: ST.b appends to a Tx FIFO with room and stops on a full one; LD.b takes the head of the
Rx FIFO, and of an empty one returns some byte and leaves it empty, both extended by LDB_EXTEND
(60_exceptions.md R214, R215; 44_load_store.md R151). Rests on the spec's decisions D7, D14, D31 and log
7. -/
def Obligations.UartDataUsesTheFifos : Prop :=
  ∀ (s : State) (d : Reg) (a : Address) (n : Word), EffectiveAddress s a 0xFF02 n →
    (s.periph.uartTx.length < 8 → ∃ t, exec (stbAt d a) s = .next t ∧
      t.periph = { s.periph with uartTx := s.periph.uartTx ++ [(s.reg d).extractLsb' 0 8] } ∧
      t.output = s.output ∧ t.pc = s.pc + n ∧ OnlyRegistersAndDevices [] s t) ∧
    (8 ≤ s.periph.uartTx.length → exec (stbAt d a) s = .fault .uartTxFull) ∧
    (∀ b rest, s.periph.uartRx = b :: rest → ∃ t, exec (ldbAt d a) s = .next t ∧
      ByteLoaded s.cfg (t.reg d) b ∧ t.periph = { s.periph with uartRx := rest } ∧
      t.output = s.output ∧ t.pc = s.pc + n ∧ OnlyRegistersAndDevices [d] s t) ∧
    (s.periph.uartRx = [] → ∃ t b, exec (ldbAt d a) s = .next t ∧ ByteLoaded s.cfg (t.reg d) b ∧
      t.flags = s.flags ∧ t.pc = s.pc + n ∧ OnlyRegisters [d] s t)

/-- IO_UART_STATUS: bits 0 to 2 say space free, Tx empty, Rx ready; bit 3 is 0 unless an overrun was set;
the byte is extended by LDB_EXTEND; reading has no side effect; writing is undefined (60_exceptions.md
R216; 44_load_store.md R151). Rests on the spec's decisions D7, D14, D31 and logs 7, 27. -/
def Obligations.UartStatusReportsTheFifos : Prop :=
  ∀ (s : State) (d : Reg) (a : Address) (n : Word), EffectiveAddress s a 0xFF03 n →
    (∃ t b, exec (ldbAt d a) s = .next t ∧ ByteLoaded s.cfg (t.reg d) b ∧
      ((t.reg d).getLsbD 0 = true ↔ s.periph.uartTx.length < 8) ∧
      ((t.reg d).getLsbD 1 = true ↔ s.periph.uartTx = []) ∧
      ((t.reg d).getLsbD 2 = true ↔ s.periph.uartRx ≠ []) ∧
      (s.periph.uartOverrun = false → (t.reg d).getLsbD 3 = false) ∧
      t.flags = s.flags ∧ t.pc = s.pc + n ∧ OnlyRegisters [d] s t) ∧
    exec (stbAt d a) s = .fault .writeToReadOnly

/-- IO_UART_BAUD and IO_TIMER_DATA are 16 bit registers that ST writes and LD returns (60_exceptions.md
R217, R220). Rests on the spec's decision D7 and log 21. -/
def Obligations.BaudAndTimerAreReadAndWritten : Prop :=
  ∀ (s : State) (d : Reg) (a : Address) (n : Word),
    (EffectiveAddress s a 0xFF04 n →
      (∃ t, exec (stAt d a) s = .next t ∧ t.periph = { s.periph with uartBaud := s.reg d } ∧
        t.output = s.output ∧ t.pc = s.pc + n ∧ OnlyRegistersAndDevices [] s t) ∧
      (∃ t, exec (ldAt d a) s = .next t ∧ t.reg d = s.periph.uartBaud ∧ t.flags = s.flags ∧
        t.pc = s.pc + n ∧ OnlyRegisters [d] s t)) ∧
    (EffectiveAddress s a 0xFF06 n →
      (∃ t, exec (stAt d a) s = .next t ∧ t.periph = { s.periph with timer := s.reg d } ∧
        t.output = s.output ∧ t.pc = s.pc + n ∧ OnlyRegistersAndDevices [] s t) ∧
      (∃ t, exec (ldAt d a) s = .next t ∧ t.reg d = s.periph.timer ∧ t.flags = s.flags ∧
        t.pc = s.pc + n ∧ OnlyRegisters [d] s t))

/-- IO_SOUND_DATA: ST writes bits 13..0 to the divisor of the voice in bits 15..14 and leaves the other
three; LD completes with some value (60_exceptions.md R225). Rests on the spec's decisions D7, D38 and logs
7, 14. -/
def Obligations.SoundWriteSetsOneVoice : Prop :=
  ∀ (s : State) (d : Reg) (a : Address) (n : Word), EffectiveAddress s a 0xFF08 n →
    (∃ t, exec (stAt d a) s = .next t ∧
      (∀ k : BitVec 2, (t.periph.sound.div k).toNat =
        if k.toNat = (s.reg d).toNat / 16384 then (s.reg d).toNat % 16384
        else (s.periph.sound.div k).toNat) ∧
      t.periph = { s.periph with sound := t.periph.sound } ∧
      t.output = s.output ++ [.sound (s.reg d)] ∧ t.pc = s.pc + n ∧ OnlyRegistersAndDevices [] s t) ∧
    (∃ t, exec (ldAt d a) s = .next t ∧ t.flags = s.flags ∧ t.pc = s.pc + n ∧ OnlyRegisters [d] s t)

/-- The DMA address and count registers: written when idle, undefined to write during a transfer; the
addresses are returned when idle; every read completes (60_exceptions.md R232 to R234, R236). Rests on the
spec's decisions D7, D32 and logs 7, 11. -/
def Obligations.DmaRegistersHoldTheParameters : Prop :=
  ∀ (s : State) (d : Reg) (a : Address) (n : Word),
    (s.periph.dmaTransfer = none →
      (EffectiveAddress s a 0xFF0C n →
        (∃ t, exec (stAt d a) s = .next t ∧ t.periph = { s.periph with dmaLocal := s.reg d } ∧
          t.output = s.output ∧ t.pc = s.pc + n ∧ OnlyRegistersAndDevices [] s t) ∧
        (∃ t, exec (ldAt d a) s = .next t ∧ t.reg d = s.periph.dmaLocal ∧ t.pc = s.pc + n)) ∧
      (EffectiveAddress s a 0xFF0E n →
        (∃ t, exec (stAt d a) s = .next t ∧ t.periph = { s.periph with dmaRemote := s.reg d } ∧
          t.output = s.output ∧ t.pc = s.pc + n ∧ OnlyRegistersAndDevices [] s t) ∧
        (∃ t, exec (ldAt d a) s = .next t ∧ t.reg d = s.periph.dmaRemote ∧ t.pc = s.pc + n)) ∧
      (EffectiveAddress s a 0xFF10 n →
        ∃ t, exec (stAt d a) s = .next t ∧ t.periph = { s.periph with dmaCount := s.reg d } ∧
          t.output = s.output ∧ t.pc = s.pc + n ∧ OnlyRegistersAndDevices [] s t)) ∧
    (∀ ea : Word, ea ∈ [0xFF0A, 0xFF0C, 0xFF0E, 0xFF10] → EffectiveAddress s a ea n →
      (s.periph.dmaTransfer ≠ none → exec (stAt d a) s = .fault .dmaWriteWhileBusy) ∧
      ∃ t, exec (ldAt d a) s = .next t ∧ t.flags = s.flags ∧ t.pc = s.pc + n ∧ OnlyRegisters [d] s t)

/-- DMA_CONTROL, written when idle: type 000 or 001 starts a transfer with the current registers, the upper
16 bits of its external start being DMA_REMOTE_ADDRESS (R233); a reserved type, an odd local address, a
count of zero or an odd count, and a local range that leaves local memory are undefined (60_exceptions.md
R231, R234 to R237). Rests on the spec's decisions D7, D32 and logs 12, 13. -/
def Obligations.DmaControlStartsATransfer : Prop :=
  ∀ (s : State) (d : Reg) (a : Address) (n : Word), EffectiveAddress s a 0xFF0A n →
    s.periph.dmaTransfer = none →
    (∀ dir, (dir, (s.reg d).toNat % 8) ∈ [(DmaDir.toExternal, 0), (.toLocal, 1)] →
      (s.periph.dmaLocal.toNat % 2 = 0 → 0 < s.periph.dmaCount.toNat → s.periph.dmaCount.toNat % 2 = 0 →
        s.periph.dmaLocal.toNat + s.periph.dmaCount.toNat ≤ 0xFF00 →
        s.periph.dmaLocal.toNat + s.periph.dmaCount.toNat ≤ s.cfg.ramSize →
        ∃ t, exec (stAt d a) s = .next t ∧
          t.periph = { s.periph with
            dmaType := (s.reg d).extractLsb' 0 3
            dmaTransfer := some
              { dir := dir, localStart := s.periph.dmaLocal, extStart := extBase s.periph.dmaRemote,
                count := s.periph.dmaCount, copied := [] } } ∧
          extBase s.periph.dmaRemote / 2 ^ Config.extLowBits = s.periph.dmaRemote.toNat ∧
          t.output = s.output ∧ t.pc = s.pc + n ∧ OnlyRegistersAndDevices [] s t) ∧
      (s.periph.dmaLocal.toNat % 2 = 1 ∨ s.periph.dmaCount.toNat = 0 ∨ s.periph.dmaCount.toNat % 2 = 1 ∨
        0xFF00 < s.periph.dmaLocal.toNat + s.periph.dmaCount.toNat ∨
        s.cfg.ramSize < s.periph.dmaLocal.toNat + s.periph.dmaCount.toNat →
        ∃ f, exec (stAt d a) s = .fault f ∧ f ∈ [.dmaOddLocal, .dmaBadCount, .dmaBadRange, .noMemory])) ∧
    (2 ≤ (s.reg d).toNat % 8 → exec (stAt d a) s = .fault .dmaReservedType)

/-- DMA_CONTROL, read: bits 0-2 are 0 when idle and not 0 during a transfer, under the default
DMA_BUSY_ENCODING (60_exceptions.md R231). Rests on the spec's decisions D7, D32 and log 7. -/
def Obligations.DmaControlReportsATransfer : Prop :=
  ∀ (s : State) (d : Reg) (a : Address) (n : Word), EffectiveAddress s a 0xFF0A n →
    s.cfg.dmaBusyEncoding = .nonzeroWhenBusy →
    ∃ t, exec (ldAt d a) s = .next t ∧
      ((t.reg d).toNat % 8 = 0 ↔ s.periph.dmaTransfer = none) ∧
      t.flags = s.flags ∧ t.pc = s.pc + n ∧ OnlyRegisters [d] s t

/-! ### The agents -/

/-- A transfer that the agents' moves bring to its end has copied every byte of its range, and nothing
else, and leaves DMA_LOCAL_ADDRESS just past the range (60_exceptions.md R237 to R239). Which external byte
an address past the width of the external DRAM reaches is open: the copies are claimed within it. Rests on
the spec's decision D32 and logs 8, 11, 13, 28. -/
def Obligations.FinishedDmaTransferCopiedItsRange : Prop :=
  ∀ (s : State) (tr : Transfer) (ms : List AgentMove), s.periph.dmaTransfer = some tr →
    tr.copied = [] → TransferOk s tr → (agentMoves s ms).periph.dmaTransfer = none →
    (tr.dir = .toLocal →
      (∀ k, k < tr.count.toNat → tr.extStart + k < 2 ^ extWidth →
        (agentMoves s ms).ramByte (tr.localStart.toNat + k) = some (s.extByte (tr.extStart + k))) ∧
      (∀ a, a < tr.localStart.toNat ∨ tr.localStart.toNat + tr.count.toNat ≤ a →
        (agentMoves s ms).ramByte a = s.ramByte a) ∧
      ∀ a, (agentMoves s ms).extByte a = s.extByte a) ∧
    (tr.dir = .toExternal →
      (tr.extStart + tr.count.toNat ≤ 2 ^ extWidth →
        (∀ k b, k < tr.count.toNat → s.ramByte (tr.localStart.toNat + k) = some b →
          (agentMoves s ms).extByte (tr.extStart + k) = b) ∧
        ∀ a, a < tr.extStart ∨ tr.extStart + tr.count.toNat ≤ a →
          (agentMoves s ms).extByte a = s.extByte a) ∧
      ∀ a, (agentMoves s ms).ramByte a = s.ramByte a) ∧
    (agentMoves s ms).periph.dmaLocal.toNat = (tr.localStart.toNat + tr.count.toNat) % 65536

/-- The timer counts down once per tick and stops at 0; nothing else the agents do moves it
(60_exceptions.md R221). Rests on the spec's decision D30 and log 8. -/
def Obligations.TimerCountsDownToZero : Prop :=
  ∀ (s : State) (ms : List AgentMove),
    (agentMoves s ms).periph.timer.toNat = s.periph.timer.toNat - ms.count .timerTick

/-- The agents' moves neither lose nor reorder a byte of the transmit stream (sent, then still queued), and
the receiver appends an arriving byte or sets the overrun bit (60_exceptions.md R218). Rests on the spec's
decision D31 and logs 8, 9, 14. -/
def Obligations.UartKeepsItsStreams : Prop :=
  (∀ (s : State) (ms : List AgentMove),
    uartSent (agentMoves s ms) ++ (agentMoves s ms).periph.uartTx = uartSent s ++ s.periph.uartTx) ∧
  ∀ (s : State) (b : Byte),
    (s.periph.uartRx.length < 8 →
      (agentMoves s [.uartReceive b]).periph = { s.periph with uartRx := s.periph.uartRx ++ [b] }) ∧
    (8 ≤ s.periph.uartRx.length →
      (agentMoves s [.uartReceive b]).periph = { s.periph with uartOverrun := true })
end

