-- ==== Sys2Proof/Laws/State.lean ====
section
/-! SUPPORT. One lemma per field of State per update, so that no proof unfolds a record update. -/

namespace Sys2Proof.Machine

@[simp] theorem State.setReg_cfg (s : State) (r : Reg) (v : Word) : (s.setReg r v).cfg = s.cfg := rfl
@[simp] theorem State.setReg_regs (s : State) (r : Reg) (v : Word) : (s.setReg r v).regs = s.regs.set r v := rfl
@[simp] theorem State.setReg_pc (s : State) (r : Reg) (v : Word) : (s.setReg r v).pc = s.pc := rfl
@[simp] theorem State.setReg_lr (s : State) (r : Reg) (v : Word) : (s.setReg r v).lr = s.lr := rfl
@[simp] theorem State.setReg_flags (s : State) (r : Reg) (v : Word) : (s.setReg r v).flags = s.flags := rfl
@[simp] theorem State.setReg_mem (s : State) (r : Reg) (v : Word) : (s.setReg r v).mem = s.mem := rfl
@[simp] theorem State.setReg_periph (s : State) (r : Reg) (v : Word) : (s.setReg r v).periph = s.periph := rfl
@[simp] theorem State.setReg_ext (s : State) (r : Reg) (v : Word) : (s.setReg r v).ext = s.ext := rfl
@[simp] theorem State.setReg_selfWritten (s : State) (r : Reg) (v : Word) : (s.setReg r v).selfWritten = s.selfWritten := rfl
@[simp] theorem State.setReg_agenda (s : State) (r : Reg) (v : Word) : (s.setReg r v).agenda = s.agenda := rfl
@[simp] theorem State.setReg_output (s : State) (r : Reg) (v : Word) : (s.setReg r v).output = s.output := rfl
@[simp] theorem State.setReg_draws (s : State) (r : Reg) (v : Word) : (s.setReg r v).draws = s.draws := rfl

@[simp] theorem State.setPc_cfg (s : State) (v : Word) : (s.setPc v).cfg = s.cfg := rfl
@[simp] theorem State.setPc_regs (s : State) (v : Word) : (s.setPc v).regs = s.regs := rfl
@[simp] theorem State.setPc_pc (s : State) (v : Word) : (s.setPc v).pc = v := rfl
@[simp] theorem State.setPc_lr (s : State) (v : Word) : (s.setPc v).lr = s.lr := rfl
@[simp] theorem State.setPc_flags (s : State) (v : Word) : (s.setPc v).flags = s.flags := rfl
@[simp] theorem State.setPc_mem (s : State) (v : Word) : (s.setPc v).mem = s.mem := rfl
@[simp] theorem State.setPc_periph (s : State) (v : Word) : (s.setPc v).periph = s.periph := rfl
@[simp] theorem State.setPc_ext (s : State) (v : Word) : (s.setPc v).ext = s.ext := rfl
@[simp] theorem State.setPc_selfWritten (s : State) (v : Word) : (s.setPc v).selfWritten = s.selfWritten := rfl
@[simp] theorem State.setPc_agenda (s : State) (v : Word) : (s.setPc v).agenda = s.agenda := rfl
@[simp] theorem State.setPc_output (s : State) (v : Word) : (s.setPc v).output = s.output := rfl
@[simp] theorem State.setPc_draws (s : State) (v : Word) : (s.setPc v).draws = s.draws := rfl

@[simp] theorem State.setLr_cfg (s : State) (v : Word) : (s.setLr v).cfg = s.cfg := rfl
@[simp] theorem State.setLr_regs (s : State) (v : Word) : (s.setLr v).regs = s.regs := rfl
@[simp] theorem State.setLr_pc (s : State) (v : Word) : (s.setLr v).pc = s.pc := rfl
@[simp] theorem State.setLr_lr (s : State) (v : Word) : (s.setLr v).lr = v := rfl
@[simp] theorem State.setLr_flags (s : State) (v : Word) : (s.setLr v).flags = s.flags := rfl
@[simp] theorem State.setLr_mem (s : State) (v : Word) : (s.setLr v).mem = s.mem := rfl
@[simp] theorem State.setLr_periph (s : State) (v : Word) : (s.setLr v).periph = s.periph := rfl
@[simp] theorem State.setLr_ext (s : State) (v : Word) : (s.setLr v).ext = s.ext := rfl
@[simp] theorem State.setLr_selfWritten (s : State) (v : Word) : (s.setLr v).selfWritten = s.selfWritten := rfl
@[simp] theorem State.setLr_agenda (s : State) (v : Word) : (s.setLr v).agenda = s.agenda := rfl
@[simp] theorem State.setLr_output (s : State) (v : Word) : (s.setLr v).output = s.output := rfl
@[simp] theorem State.setLr_draws (s : State) (v : Word) : (s.setLr v).draws = s.draws := rfl

@[simp] theorem State.setFlags_cfg (s : State) (f : Flags) : (s.setFlags f).cfg = s.cfg := rfl
@[simp] theorem State.setFlags_regs (s : State) (f : Flags) : (s.setFlags f).regs = s.regs := rfl
@[simp] theorem State.setFlags_pc (s : State) (f : Flags) : (s.setFlags f).pc = s.pc := rfl
@[simp] theorem State.setFlags_lr (s : State) (f : Flags) : (s.setFlags f).lr = s.lr := rfl
@[simp] theorem State.setFlags_flags (s : State) (f : Flags) : (s.setFlags f).flags = f := rfl
@[simp] theorem State.setFlags_mem (s : State) (f : Flags) : (s.setFlags f).mem = s.mem := rfl
@[simp] theorem State.setFlags_periph (s : State) (f : Flags) : (s.setFlags f).periph = s.periph := rfl
@[simp] theorem State.setFlags_ext (s : State) (f : Flags) : (s.setFlags f).ext = s.ext := rfl
@[simp] theorem State.setFlags_selfWritten (s : State) (f : Flags) : (s.setFlags f).selfWritten = s.selfWritten := rfl
@[simp] theorem State.setFlags_agenda (s : State) (f : Flags) : (s.setFlags f).agenda = s.agenda := rfl
@[simp] theorem State.setFlags_output (s : State) (f : Flags) : (s.setFlags f).output = s.output := rfl
@[simp] theorem State.setFlags_draws (s : State) (f : Flags) : (s.setFlags f).draws = s.draws := rfl

@[simp] theorem State.setPeriph_cfg (s : State) (p : Periph) : (s.setPeriph p).cfg = s.cfg := rfl
@[simp] theorem State.setPeriph_regs (s : State) (p : Periph) : (s.setPeriph p).regs = s.regs := rfl
@[simp] theorem State.setPeriph_pc (s : State) (p : Periph) : (s.setPeriph p).pc = s.pc := rfl
@[simp] theorem State.setPeriph_lr (s : State) (p : Periph) : (s.setPeriph p).lr = s.lr := rfl
@[simp] theorem State.setPeriph_flags (s : State) (p : Periph) : (s.setPeriph p).flags = s.flags := rfl
@[simp] theorem State.setPeriph_mem (s : State) (p : Periph) : (s.setPeriph p).mem = s.mem := rfl
@[simp] theorem State.setPeriph_periph (s : State) (p : Periph) : (s.setPeriph p).periph = p := rfl
@[simp] theorem State.setPeriph_ext (s : State) (p : Periph) : (s.setPeriph p).ext = s.ext := rfl
@[simp] theorem State.setPeriph_selfWritten (s : State) (p : Periph) : (s.setPeriph p).selfWritten = s.selfWritten := rfl
@[simp] theorem State.setPeriph_agenda (s : State) (p : Periph) : (s.setPeriph p).agenda = s.agenda := rfl
@[simp] theorem State.setPeriph_output (s : State) (p : Periph) : (s.setPeriph p).output = s.output := rfl
@[simp] theorem State.setPeriph_draws (s : State) (p : Periph) : (s.setPeriph p).draws = s.draws := rfl

@[simp] theorem State.advance_cfg (s : State) (n : Word) : (s.advance n).cfg = s.cfg := rfl
@[simp] theorem State.advance_regs (s : State) (n : Word) : (s.advance n).regs = s.regs := rfl
@[simp] theorem State.advance_pc (s : State) (n : Word) : (s.advance n).pc = s.pc + n := rfl
@[simp] theorem State.advance_lr (s : State) (n : Word) : (s.advance n).lr = s.lr := rfl
@[simp] theorem State.advance_flags (s : State) (n : Word) : (s.advance n).flags = s.flags := rfl
@[simp] theorem State.advance_mem (s : State) (n : Word) : (s.advance n).mem = s.mem := rfl
@[simp] theorem State.advance_periph (s : State) (n : Word) : (s.advance n).periph = s.periph := rfl
@[simp] theorem State.advance_ext (s : State) (n : Word) : (s.advance n).ext = s.ext := rfl
@[simp] theorem State.advance_selfWritten (s : State) (n : Word) : (s.advance n).selfWritten = s.selfWritten := rfl
@[simp] theorem State.advance_agenda (s : State) (n : Word) : (s.advance n).agenda = s.agenda := rfl
@[simp] theorem State.advance_output (s : State) (n : Word) : (s.advance n).output = s.output := rfl
@[simp] theorem State.advance_draws (s : State) (n : Word) : (s.advance n).draws = s.draws := rfl

@[simp] theorem State.emit_cfg (s : State) (o : Output) : (s.emit o).cfg = s.cfg := rfl
@[simp] theorem State.emit_regs (s : State) (o : Output) : (s.emit o).regs = s.regs := rfl
@[simp] theorem State.emit_pc (s : State) (o : Output) : (s.emit o).pc = s.pc := rfl
@[simp] theorem State.emit_lr (s : State) (o : Output) : (s.emit o).lr = s.lr := rfl
@[simp] theorem State.emit_flags (s : State) (o : Output) : (s.emit o).flags = s.flags := rfl
@[simp] theorem State.emit_mem (s : State) (o : Output) : (s.emit o).mem = s.mem := rfl
@[simp] theorem State.emit_periph (s : State) (o : Output) : (s.emit o).periph = s.periph := rfl
@[simp] theorem State.emit_ext (s : State) (o : Output) : (s.emit o).ext = s.ext := rfl
@[simp] theorem State.emit_selfWritten (s : State) (o : Output) : (s.emit o).selfWritten = s.selfWritten := rfl
@[simp] theorem State.emit_agenda (s : State) (o : Output) : (s.emit o).agenda = s.agenda := rfl
@[simp] theorem State.emit_output (s : State) (o : Output) : (s.emit o).output = s.output ++ [o] := rfl
@[simp] theorem State.emit_draws (s : State) (o : Output) : (s.emit o).draws = s.draws := rfl

@[simp] theorem State.drawn_cfg (s : State) (n : Nat) : (s.drawn n).cfg = s.cfg := rfl
@[simp] theorem State.drawn_regs (s : State) (n : Nat) : (s.drawn n).regs = s.regs := rfl
@[simp] theorem State.drawn_pc (s : State) (n : Nat) : (s.drawn n).pc = s.pc := rfl
@[simp] theorem State.drawn_lr (s : State) (n : Nat) : (s.drawn n).lr = s.lr := rfl
@[simp] theorem State.drawn_flags (s : State) (n : Nat) : (s.drawn n).flags = s.flags := rfl
@[simp] theorem State.drawn_mem (s : State) (n : Nat) : (s.drawn n).mem = s.mem := rfl
@[simp] theorem State.drawn_periph (s : State) (n : Nat) : (s.drawn n).periph = s.periph := rfl
@[simp] theorem State.drawn_ext (s : State) (n : Nat) : (s.drawn n).ext = s.ext := rfl
@[simp] theorem State.drawn_selfWritten (s : State) (n : Nat) : (s.drawn n).selfWritten = s.selfWritten := rfl
@[simp] theorem State.drawn_agenda (s : State) (n : Nat) : (s.drawn n).agenda = s.agenda := rfl
@[simp] theorem State.drawn_output (s : State) (n : Nat) : (s.drawn n).output = s.output := rfl
@[simp] theorem State.drawn_draws (s : State) (n : Nat) : (s.drawn n).draws = s.draws + n := rfl

@[simp] theorem State.setRam_cfg (s : State) (a : Nat) (b : Byte) : (s.setRam a b).cfg = s.cfg := rfl
@[simp] theorem State.setRam_regs (s : State) (a : Nat) (b : Byte) : (s.setRam a b).regs = s.regs := rfl
@[simp] theorem State.setRam_pc (s : State) (a : Nat) (b : Byte) : (s.setRam a b).pc = s.pc := rfl
@[simp] theorem State.setRam_lr (s : State) (a : Nat) (b : Byte) : (s.setRam a b).lr = s.lr := rfl
@[simp] theorem State.setRam_flags (s : State) (a : Nat) (b : Byte) : (s.setRam a b).flags = s.flags := rfl
@[simp] theorem State.setRam_mem (s : State) (a : Nat) (b : Byte) : (s.setRam a b).mem = Memory.write s.mem a b := rfl
@[simp] theorem State.setRam_periph (s : State) (a : Nat) (b : Byte) : (s.setRam a b).periph = s.periph := rfl
@[simp] theorem State.setRam_ext (s : State) (a : Nat) (b : Byte) : (s.setRam a b).ext = s.ext := rfl
@[simp] theorem State.setRam_selfWritten (s : State) (a : Nat) (b : Byte) : (s.setRam a b).selfWritten = s.selfWritten := rfl
@[simp] theorem State.setRam_agenda (s : State) (a : Nat) (b : Byte) : (s.setRam a b).agenda = s.agenda := rfl
@[simp] theorem State.setRam_output (s : State) (a : Nat) (b : Byte) : (s.setRam a b).output = s.output := rfl
@[simp] theorem State.setRam_draws (s : State) (a : Nat) (b : Byte) : (s.setRam a b).draws = s.draws := rfl

@[simp] theorem State.setExt_cfg (s : State) (a : Nat) (b : Byte) : (s.setExt a b).cfg = s.cfg := rfl
@[simp] theorem State.setExt_regs (s : State) (a : Nat) (b : Byte) : (s.setExt a b).regs = s.regs := rfl
@[simp] theorem State.setExt_pc (s : State) (a : Nat) (b : Byte) : (s.setExt a b).pc = s.pc := rfl
@[simp] theorem State.setExt_lr (s : State) (a : Nat) (b : Byte) : (s.setExt a b).lr = s.lr := rfl
@[simp] theorem State.setExt_flags (s : State) (a : Nat) (b : Byte) : (s.setExt a b).flags = s.flags := rfl
@[simp] theorem State.setExt_mem (s : State) (a : Nat) (b : Byte) : (s.setExt a b).mem = s.mem := rfl
@[simp] theorem State.setExt_periph (s : State) (a : Nat) (b : Byte) : (s.setExt a b).periph = s.periph := rfl
@[simp] theorem State.setExt_ext (s : State) (a : Nat) (b : Byte) : (s.setExt a b).ext = if b = Config.extDram a then Memory.erase s.ext a else Memory.write s.ext a b := rfl
@[simp] theorem State.setExt_selfWritten (s : State) (a : Nat) (b : Byte) : (s.setExt a b).selfWritten = s.selfWritten := rfl
@[simp] theorem State.setExt_agenda (s : State) (a : Nat) (b : Byte) : (s.setExt a b).agenda = s.agenda := rfl
@[simp] theorem State.setExt_output (s : State) (a : Nat) (b : Byte) : (s.setExt a b).output = s.output := rfl
@[simp] theorem State.setExt_draws (s : State) (a : Nat) (b : Byte) : (s.setExt a b).draws = s.draws := rfl

/-! ### Registers -/

@[simp] theorem RegFile.get_set_same (f : RegFile) (r : Reg) (v : Word) : (f.set r v).get r = v := by
  cases r <;> rfl

theorem RegFile.get_set_other (f : RegFile) {r q : Reg} (v : Word) (h : q ≠ r) :
    (f.set r v).get q = f.get q := by
  cases r <;> cases q <;> first | rfl | exact absurd rfl h

theorem RegFile.get_set (f : RegFile) (r q : Reg) (v : Word) :
    (f.set r v).get q = if q = r then v else f.get q := by
  split
  · subst_vars; exact f.get_set_same _ v
  · rename_i h; exact f.get_set_other v h

theorem RegFile.ext_get {f g : RegFile} (h : ∀ r, f.get r = g.get r) : f = g := by
  cases f; cases g
  exact (RegFile.mk.injEq ..).mpr
    ⟨h .r0, h .r1, h .r2, h .r3, h .r4, h .r5, h .r6, h .r7⟩

@[simp] theorem State.reg_setReg_same (s : State) (r : Reg) (v : Word) : (s.setReg r v).reg r = v :=
  s.regs.get_set_same r v

theorem State.reg_setReg_other (s : State) {r q : Reg} (v : Word) (h : q ≠ r) :
    (s.setReg r v).reg q = s.reg q := s.regs.get_set_other v h

theorem State.reg_setReg (s : State) (r q : Reg) (v : Word) :
    (s.setReg r v).reg q = if q = r then v else s.reg q := s.regs.get_set r q v

@[simp] theorem State.reg_setPc (s : State) (v : Word) (q : Reg) : (s.setPc v).reg q = s.reg q := rfl
@[simp] theorem State.reg_setLr (s : State) (v : Word) (q : Reg) : (s.setLr v).reg q = s.reg q := rfl
@[simp] theorem State.reg_setFlags (s : State) (f : Flags) (q : Reg) : (s.setFlags f).reg q = s.reg q := rfl
@[simp] theorem State.reg_setPeriph (s : State) (p : Periph) (q : Reg) : (s.setPeriph p).reg q = s.reg q := rfl
@[simp] theorem State.reg_advance (s : State) (n : Word) (q : Reg) : (s.advance n).reg q = s.reg q := rfl
@[simp] theorem State.reg_emit (s : State) (o : Output) (q : Reg) : (s.emit o).reg q = s.reg q := rfl
@[simp] theorem State.reg_drawn (s : State) (n : Nat) (q : Reg) : (s.drawn n).reg q = s.reg q := rfl
@[simp] theorem State.reg_setRam (s : State) (a : Nat) (b : Byte) (q : Reg) : (s.setRam a b).reg q = s.reg q := rfl
@[simp] theorem State.reg_setExt (s : State) (a : Nat) (b : Byte) (q : Reg) : (s.setExt a b).reg q = s.reg q := rfl

/-! ### Bytes of RAM and of the external DRAM through updates that leave them alone -/

@[simp] theorem State.ramByte_setReg (s : State) (r : Reg) (v : Word) (a : Nat) : (s.setReg r v).ramByte a = s.ramByte a := rfl
@[simp] theorem State.ramByte_setPc (s : State) (v : Word) (a : Nat) : (s.setPc v).ramByte a = s.ramByte a := rfl
@[simp] theorem State.ramByte_setLr (s : State) (v : Word) (a : Nat) : (s.setLr v).ramByte a = s.ramByte a := rfl
@[simp] theorem State.ramByte_setFlags (s : State) (f : Flags) (a : Nat) : (s.setFlags f).ramByte a = s.ramByte a := rfl
@[simp] theorem State.ramByte_setPeriph (s : State) (p : Periph) (a : Nat) : (s.setPeriph p).ramByte a = s.ramByte a := rfl
@[simp] theorem State.ramByte_advance (s : State) (n : Word) (a : Nat) : (s.advance n).ramByte a = s.ramByte a := rfl
@[simp] theorem State.ramByte_emit (s : State) (o : Output) (a : Nat) : (s.emit o).ramByte a = s.ramByte a := rfl
@[simp] theorem State.ramByte_drawn (s : State) (n : Nat) (a : Nat) : (s.drawn n).ramByte a = s.ramByte a := rfl
@[simp] theorem State.ramByte_setExt (s : State) (k : Nat) (b : Byte) (a : Nat) : (s.setExt k b).ramByte a = s.ramByte a := rfl

@[simp] theorem State.extByte_setReg (s : State) (r : Reg) (v : Word) (a : Nat) : (s.setReg r v).extByte a = s.extByte a := rfl
@[simp] theorem State.extByte_setPc (s : State) (v : Word) (a : Nat) : (s.setPc v).extByte a = s.extByte a := rfl
@[simp] theorem State.extByte_setLr (s : State) (v : Word) (a : Nat) : (s.setLr v).extByte a = s.extByte a := rfl
@[simp] theorem State.extByte_setFlags (s : State) (f : Flags) (a : Nat) : (s.setFlags f).extByte a = s.extByte a := rfl
@[simp] theorem State.extByte_setPeriph (s : State) (p : Periph) (a : Nat) : (s.setPeriph p).extByte a = s.extByte a := rfl
@[simp] theorem State.extByte_advance (s : State) (n : Word) (a : Nat) : (s.advance n).extByte a = s.extByte a := rfl
@[simp] theorem State.extByte_emit (s : State) (o : Output) (a : Nat) : (s.emit o).extByte a = s.extByte a := rfl
@[simp] theorem State.extByte_drawn (s : State) (n : Nat) (a : Nat) : (s.drawn n).extByte a = s.extByte a := rfl
@[simp] theorem State.extByte_setRam (s : State) (k : Nat) (b : Byte) (a : Nat) : (s.setRam k b).extByte a = s.extByte a := rfl

/-! ### storeRam: setRam and, under one setting, a note of the address -/

@[simp] theorem State.storeRam_cfg (s : State) (a : Nat) (b : Byte) : (s.storeRam a b).cfg = s.cfg := by
  unfold State.storeRam; split <;> rfl
@[simp] theorem State.storeRam_regs (s : State) (a : Nat) (b : Byte) : (s.storeRam a b).regs = s.regs := by
  unfold State.storeRam; split <;> rfl
@[simp] theorem State.storeRam_pc (s : State) (a : Nat) (b : Byte) : (s.storeRam a b).pc = s.pc := by
  unfold State.storeRam; split <;> rfl
@[simp] theorem State.storeRam_lr (s : State) (a : Nat) (b : Byte) : (s.storeRam a b).lr = s.lr := by
  unfold State.storeRam; split <;> rfl
@[simp] theorem State.storeRam_flags (s : State) (a : Nat) (b : Byte) : (s.storeRam a b).flags = s.flags := by
  unfold State.storeRam; split <;> rfl
@[simp] theorem State.storeRam_periph (s : State) (a : Nat) (b : Byte) : (s.storeRam a b).periph = s.periph := by
  unfold State.storeRam; split <;> rfl
@[simp] theorem State.storeRam_ext (s : State) (a : Nat) (b : Byte) : (s.storeRam a b).ext = s.ext := by
  unfold State.storeRam; split <;> rfl
@[simp] theorem State.storeRam_agenda (s : State) (a : Nat) (b : Byte) : (s.storeRam a b).agenda = s.agenda := by
  unfold State.storeRam; split <;> rfl
@[simp] theorem State.storeRam_output (s : State) (a : Nat) (b : Byte) : (s.storeRam a b).output = s.output := by
  unfold State.storeRam; split <;> rfl
@[simp] theorem State.storeRam_draws (s : State) (a : Nat) (b : Byte) : (s.storeRam a b).draws = s.draws := by
  unfold State.storeRam; split <;> rfl
@[simp] theorem State.storeRam_mem (s : State) (a : Nat) (b : Byte) :
    (s.storeRam a b).mem = Memory.write s.mem a b := by
  unfold State.storeRam; split <;> rfl
theorem State.storeRam_selfWritten (s : State) (a : Nat) (b : Byte) :
    (s.storeRam a b).selfWritten =
      match s.cfg.ifetchCoherent with
      | .yes => s.selfWritten
      | .refuseSelfModifying => noteAddress s.selfWritten a := by
  unfold State.storeRam; split <;> simp_all
@[simp] theorem State.reg_storeRam (s : State) (a : Nat) (b : Byte) (q : Reg) :
    (s.storeRam a b).reg q = s.reg q := by
  simp [State.reg]
@[simp] theorem State.extByte_storeRam (s : State) (k : Nat) (b : Byte) (a : Nat) :
    (s.storeRam k b).extByte a = s.extByte a := by
  simp [State.extByte]

/-! ### storeExt: setExt, or nothing past the end of the external DRAM -/

@[simp] theorem State.storeExt_cfg (s : State) (a : Nat) (b : Byte) : (s.storeExt a b).cfg = s.cfg := by
  unfold State.storeExt; split <;> rfl
@[simp] theorem State.storeExt_regs (s : State) (a : Nat) (b : Byte) : (s.storeExt a b).regs = s.regs := by
  unfold State.storeExt; split <;> rfl
@[simp] theorem State.storeExt_pc (s : State) (a : Nat) (b : Byte) : (s.storeExt a b).pc = s.pc := by
  unfold State.storeExt; split <;> rfl
@[simp] theorem State.storeExt_lr (s : State) (a : Nat) (b : Byte) : (s.storeExt a b).lr = s.lr := by
  unfold State.storeExt; split <;> rfl
@[simp] theorem State.storeExt_flags (s : State) (a : Nat) (b : Byte) : (s.storeExt a b).flags = s.flags := by
  unfold State.storeExt; split <;> rfl
@[simp] theorem State.storeExt_mem (s : State) (a : Nat) (b : Byte) : (s.storeExt a b).mem = s.mem := by
  unfold State.storeExt; split <;> rfl
@[simp] theorem State.storeExt_periph (s : State) (a : Nat) (b : Byte) : (s.storeExt a b).periph = s.periph := by
  unfold State.storeExt; split <;> rfl
@[simp] theorem State.storeExt_selfWritten (s : State) (a : Nat) (b : Byte) : (s.storeExt a b).selfWritten = s.selfWritten := by
  unfold State.storeExt; split <;> rfl
@[simp] theorem State.storeExt_agenda (s : State) (a : Nat) (b : Byte) : (s.storeExt a b).agenda = s.agenda := by
  unfold State.storeExt; split <;> rfl
@[simp] theorem State.storeExt_output (s : State) (a : Nat) (b : Byte) : (s.storeExt a b).output = s.output := by
  unfold State.storeExt; split <;> rfl
@[simp] theorem State.storeExt_draws (s : State) (a : Nat) (b : Byte) : (s.storeExt a b).draws = s.draws := by
  unfold State.storeExt; split <;> rfl
@[simp] theorem State.ramByte_storeExt (s : State) (k : Nat) (b : Byte) (a : Nat) :
    (s.storeExt k b).ramByte a = s.ramByte a := by
  simp [State.ramByte]

/-! ### The state after reset -/

@[simp] theorem State.launch_cfg (c : Config) : (State.launch c).cfg = c := rfl
@[simp] theorem State.launch_pc (c : Config) : (State.launch c).pc = c.resetPc := rfl
@[simp] theorem State.launch_mem (c : Config) : (State.launch c).mem = [] := rfl
@[simp] theorem State.launch_ext (c : Config) : (State.launch c).ext = [] := rfl
@[simp] theorem State.launch_lr (c : Config) : (State.launch c).lr = 0 := rfl
@[simp] theorem State.launch_agenda (c : Config) : (State.launch c).agenda = [] := rfl
@[simp] theorem State.launch_output (c : Config) : (State.launch c).output = [] := rfl
@[simp] theorem State.launch_selfWritten (c : Config) : (State.launch c).selfWritten = [] := rfl
@[simp] theorem State.launch_draws (c : Config) : (State.launch c).draws = 0 := rfl

end Sys2Proof.Machine
end

