-- ==== Sys2Proof/Laws/Memory.lean ====
section
/-! SUPPORT. Reading after writing, and the canonical form of the two memories. -/

namespace Sys2Proof.Machine

/-! ### Read after write -/

theorem Memory.read_write (m : Memory) (a k : Nat) (b : Byte) :
    Memory.read (Memory.write m a b) k = if k = a then some b else Memory.read m k := by
  induction m with
  | nil => simp only [Memory.write, Memory.read, eq_comm]
  | cons c rest ih =>
    obtain ⟨x, v⟩ := c
    simp only [Memory.write]
    split_ifs <;> simp only [Memory.read, ih] <;> split_ifs <;> first | rfl | omega

theorem Memory.read_erase (m : Memory) (a k : Nat) :
    Memory.read (Memory.erase m a) k = if k = a then none else Memory.read m k := by
  induction m with
  | nil => simp [Memory.erase, Memory.read]
  | cons c rest ih =>
    obtain ⟨x, v⟩ := c
    simp only [Memory.erase]
    split_ifs <;> simp only [Memory.read, ih] <;> split_ifs <;> first | rfl | omega

theorem Memory.mem_write {m : Memory} {a : Nat} {b : Byte} {c : Host.Cell}
    (h : c ∈ Memory.write m a b) : c = (a, b) ∨ c ∈ m := by
  induction m with
  | nil => simp [Memory.write] at h; exact .inl h
  | cons d rest ih =>
    obtain ⟨x, v⟩ := d
    simp only [Memory.write] at h
    split at h
    · simpa using h
    · split at h
      · simp only [List.mem_cons] at h ⊢; tauto
      · simp only [List.mem_cons] at h ⊢
        rcases h with h | h
        · tauto
        · rcases ih h with h | h <;> tauto

theorem Memory.mem_erase {m : Memory} {a : Nat} {c : Host.Cell}
    (h : c ∈ Memory.erase m a) : c ∈ m := by
  induction m with
  | nil => simp [Memory.erase] at h
  | cons d rest ih =>
    obtain ⟨x, v⟩ := d
    simp only [Memory.erase] at h
    split at h
    · exact .tail _ (ih h)
    · simp only [List.mem_cons] at h ⊢; tauto

/-! ### The canonical form is kept -/

theorem Memory.write_wf {m : Memory} (h : Memory.wf m) (a : Nat) (b : Byte) :
    Memory.wf (Memory.write m a b) := by
  induction m with
  | nil => simp [Memory.wf, Memory.write]
  | cons c rest ih =>
    obtain ⟨x, v⟩ := c
    obtain ⟨hx, hr⟩ := List.pairwise_cons.mp h
    simp only [Memory.write]
    split
    · rename_i hlt
      refine List.pairwise_cons.mpr ⟨fun y hy => ?_, h⟩
      rcases List.mem_cons.mp hy with rfl | hy
      · exact hlt
      · exact Nat.lt_trans hlt (hx y hy)
    · split
      · subst_vars; exact List.pairwise_cons.mpr ⟨hx, hr⟩
      · refine List.pairwise_cons.mpr ⟨fun y hy => ?_, ih hr⟩
        rcases Memory.mem_write hy with rfl | hy
        · simp only; omega
        · exact hx y hy

theorem Memory.erase_wf {m : Memory} (h : Memory.wf m) (a : Nat) : Memory.wf (Memory.erase m a) := by
  induction m with
  | nil => exact h
  | cons c rest ih =>
    obtain ⟨x, v⟩ := c
    obtain ⟨hx, hr⟩ := List.pairwise_cons.mp h
    simp only [Memory.erase]
    split
    · exact ih hr
    · exact List.pairwise_cons.mpr ⟨fun y hy => hx y (Memory.mem_erase hy), ih hr⟩

theorem Memory.mem_of_read {m : Memory} {a : Nat} {b : Byte} (h : Memory.read m a = some b) :
    (a, b) ∈ m := by
  induction m with
  | nil => simp [Memory.read] at h
  | cons c rest ih =>
    obtain ⟨x, v⟩ := c
    simp only [Memory.read] at h
    split at h
    · simp_all
    · exact .tail _ (ih h)

theorem Memory.read_eq_none_of_lt {m : Memory} {a : Nat} (h : ∀ c ∈ m, a < c.1) :
    Memory.read m a = none := by
  cases hr : Memory.read m a with
  | none => rfl
  | some b => exact absurd (h _ (Memory.mem_of_read hr)) (Nat.lt_irrefl _)

/-- Canonical memories that read the same are the same list. -/
theorem Memory.eq_of_read {m n : Memory} (hm : Memory.wf m) (hn : Memory.wf n)
    (h : ∀ a, Memory.read m a = Memory.read n a) : m = n := by
  induction m generalizing n with
  | nil =>
    cases n with
    | nil => rfl
    | cons c rest => have := h c.1; simp [Memory.read] at this
  | cons c rest ih =>
    obtain ⟨x, v⟩ := c
    obtain ⟨hx, hr⟩ := List.pairwise_cons.mp hm
    cases n with
    | nil => have := h x; simp [Memory.read] at this
    | cons d rest' =>
      obtain ⟨y, w⟩ := d
      obtain ⟨hy, hr'⟩ := List.pairwise_cons.mp hn
      have h1 := h x
      have h2 := h y
      simp only [Memory.read, if_true] at h1 h2
      have hxy : x = y := by
        by_contra hne
        rw [if_neg (fun e => hne e.symm)] at h1
        rw [if_neg hne] at h2
        have := hy _ (Memory.mem_of_read h1.symm)
        have := hx _ (Memory.mem_of_read h2)
        simp only at *
        omega
      subst hxy
      simp only [if_true, Option.some.injEq] at h1
      subst h1
      congr 1
      refine ih hr hr' fun a => ?_
      by_cases ha : x = a
      · subst ha
        rw [Memory.read_eq_none_of_lt fun c hc => hx c hc,
          Memory.read_eq_none_of_lt fun c hc => hy c hc]
      · have := h a
        simpa only [Memory.read, if_neg ha] using this

theorem Memory.setExt_wf (s : State) (h : Memory.extWf s.ext) (a : Nat) (b : Byte) :
    Memory.extWf (s.setExt a b).ext := by
  simp only [State.setExt_ext]
  split
  · exact ⟨Memory.erase_wf h.1 a, fun c hc => h.2 c (Memory.mem_erase hc)⟩
  · rename_i hb
    refine ⟨Memory.write_wf h.1 a b, fun c hc => ?_⟩
    rcases Memory.mem_write hc with rfl | hc
    · exact hb
    · exact h.2 c hc

/-! ### The same for the machine's accessors -/

theorem State.ramByte_setRam (s : State) (a k : Nat) (b : Byte) :
    (s.setRam a b).ramByte k = if k = a then some b else s.ramByte k :=
  Memory.read_write s.mem a k b

theorem State.ramByte_storeRam (s : State) (a k : Nat) (b : Byte) :
    (s.storeRam a b).ramByte k = if k = a then some b else s.ramByte k := by
  simp only [State.ramByte, State.storeRam_mem]; exact Memory.read_write s.mem a k b

theorem State.extByte_setExt (s : State) (a k : Nat) (b : Byte) :
    (s.setExt a b).extByte k = if k = a then b else s.extByte k := by
  simp only [State.extByte, State.setExt_ext]
  split_ifs with hb hk hk <;> simp_all [Memory.read_erase, Memory.read_write]

/-- An address within the width reaches its own byte. -/
theorem extAddress_of_lt {a : Nat} (h : a < 2 ^ extWidth) : extAddress a = some a := if_pos h

/-- Every byte reached lies within the width. -/
theorem extAddress_lt {a k : Nat} (h : extAddress a = some k) : k < 2 ^ extWidth := by
  unfold extAddress at h
  split at h
  · cases h; assumption
  · obtain ⟨x, -, rfl⟩ := Option.map_eq_some_iff.mp h; exact x.isLt

/-- The external DRAM has at least the bytes DMA_REMOTE_ADDRESS can tell apart. -/
theorem le_two_pow_extWidth : 65536 ≤ 2 ^ extWidth := by
  rw [extWidth, Nat.pow_add]; exact Nat.le_mul_of_pos_right _ (Nat.two_pow_pos _)

/-- The upper 16 bits of `ext_base(dma_remote)` are `dma_remote`. -/
theorem extBase_div (v : Word) : extBase v / 2 ^ Config.extLowBits = v.toNat := by
  have h := BitVec.isLt (Config.extLow v)
  rw [extBase, BitVec.toNat_append, Nat.shiftLeft_eq, Nat.mul_comm, ← Nat.two_pow_add_eq_or_of_lt h,
    Nat.mul_add_div (Nat.two_pow_pos _), Nat.div_eq_of_lt h, Nat.add_zero]

/-- `ext_base` answers an address within the width. -/
theorem extBase_lt (v : Word) : extBase v < 2 ^ extWidth := BitVec.isLt _

/-- A byte a transfer writes to the external DRAM lands at one address within the width, its own if that
is within the width, or nowhere. -/
theorem State.storeExt_cases (s : State) (a : Nat) (b : Byte) :
    (∃ k, extAddress a = some k ∧ k < 2 ^ extWidth ∧ s.storeExt a b = s.setExt k b) ∨
    (extAddress a = none ∧ s.storeExt a b = s) := by
  unfold State.storeExt
  cases h : extAddress a with
  | none => exact .inr ⟨rfl, rfl⟩
  | some k => exact .inl ⟨k, rfl, extAddress_lt h, rfl⟩

theorem Memory.setExt_mem_lt {s : State} {n a : Nat} (b : Byte) (h : ∀ c ∈ s.ext, c.1 < n) (ha : a < n) :
    ∀ c ∈ (s.setExt a b).ext, c.1 < n := by
  intro c hc
  simp only [State.setExt_ext] at hc
  split at hc
  · exact h c (Memory.mem_erase hc)
  · rcases Memory.mem_write hc with rfl | hc
    · exact ha
    · exact h c hc

theorem mem_noteAddress (l : List Nat) (a k : Nat) : k ∈ noteAddress l a ↔ k = a ∨ k ∈ l := by
  induction l with
  | nil => simp [noteAddress]
  | cons x rest ih =>
    simp only [noteAddress]
    split
    · simp
    · split
      · subst_vars; simp
      · simp only [List.mem_cons, ih]; tauto

theorem noteAddress_rising {l : List Nat} (h : l.Pairwise (· < ·)) (a : Nat) :
    (noteAddress l a).Pairwise (· < ·) := by
  induction l with
  | nil => simp [noteAddress]
  | cons x rest ih =>
    obtain ⟨hx, hr⟩ := List.pairwise_cons.mp h
    simp only [noteAddress]
    split
    · rename_i hlt
      refine List.pairwise_cons.mpr ⟨fun y hy => ?_, h⟩
      rcases List.mem_cons.mp hy with rfl | hy
      · exact hlt
      · exact Nat.lt_trans hlt (hx y hy)
    · split
      · exact h
      · refine List.pairwise_cons.mpr ⟨fun y hy => ?_, ih hr⟩
        rcases (mem_noteAddress rest a y).mp hy with rfl | hy
        · omega
        · exact hx y hy

end Sys2Proof.Machine
end

