-- ==== Sys2Proof/Laws/Words.lean ====
section
/-! SUPPORT. The two bytes of a word (20_memory.md R46, R62). -/

namespace Sys2Proof

theorem append_bytes_toNat (b1 b0 : Byte) : (b1 ++ b0 : Word).toNat = b1.toNat * 256 + b0.toNat := by
  rw [BitVec.toNat_append, Nat.shiftLeft_eq, Nat.mul_comm, ← Nat.two_pow_add_eq_or_of_lt b0.isLt,
    Nat.mul_comm]

theorem extract_low_toNat (v : Word) : (v.extractLsb' 0 8).toNat = v.toNat % 256 := by
  simp [BitVec.extractLsb'_toNat]

theorem extract_high_toNat (v : Word) : (v.extractLsb' 8 8).toNat = v.toNat / 256 := by
  have := v.isLt
  simp [BitVec.extractLsb'_toNat, Nat.shiftRight_eq_div_pow]; omega

theorem append_bytes_eq_iff (b1 b0 : Byte) (v : Word) :
    (b1 ++ b0 : Word) = v ↔ b0 = v.extractLsb' 0 8 ∧ b1 = v.extractLsb' 8 8 := by
  have := b0.isLt; have := b1.isLt; have := v.isLt
  rw [← BitVec.toNat_inj, ← BitVec.toNat_inj, ← BitVec.toNat_inj, append_bytes_toNat, extract_low_toNat,
    extract_high_toNat]
  omega

/-- Two bytes make the word whose bytes they are, in either byte order. -/
theorem wordOfBytes_eq_iff (o : ByteOrder) (b0 b1 : Byte) (v : Word) :
    wordOfBytes o b0 b1 = v ↔ b0 = firstByte o v ∧ b1 = secondByte o v := by
  cases o
  · exact append_bytes_eq_iff b1 b0 v
  · exact (append_bytes_eq_iff b0 b1 v).trans And.comm

@[simp] theorem wordOfBytes_wordBytes (o : ByteOrder) (v : Word) :
    wordOfBytes o (firstByte o v) (secondByte o v) = v := (wordOfBytes_eq_iff ..).mpr ⟨rfl, rfl⟩

end Sys2Proof
end

