-- ==== Sys2Proof/Laws/Access.lean ====
section
/-! SUPPORT. What a memory access can do: one lemma per operation of Periph.lean and Access.lean. -/

namespace Sys2Proof.Machine

/-! ### Sequencing -/

@[simp] theorem andThen_next {α β : Type} (a : α) (f : α → Result β) : andThen (.next a) f = f a := rfl
@[simp] theorem andThen_fault {α β : Type} (r : Fault) (f : α → Result β) :
    andThen (.fault r : Result α) f = .fault r := rfl
@[simp] theorem andThen_refused {α β : Type} (r : Refusal) (f : α → Result β) :
    andThen (.refused r : Result α) f = .refused r := rfl

theorem andThen_eq_next {α β : Type} {x : Result α} {f : α → Result β} {b : β} :
    andThen x f = .next b ↔ ∃ a, x = .next a ∧ f a = .next b := by
  cases x <;> simp

/-! ### Peripheral registers -/

/-- Two states that agree but for the peripherals, what the outside has seen and the free values drawn. -/
structure SameButDevices (s t : State) : Prop where
  cfg : t.cfg = s.cfg
  regs : t.regs = s.regs
  pc : t.pc = s.pc
  lr : t.lr = s.lr
  flags : t.flags = s.flags
  mem : t.mem = s.mem
  ext : t.ext = s.ext
  selfWritten : t.selfWritten = s.selfWritten
  agenda : t.agenda = s.agenda

theorem SameButDevices.refl (s : State) : SameButDevices s s := ⟨rfl, rfl, rfl, rfl, rfl, rfl, rfl, rfl, rfl⟩
theorem SameButDevices.drawn (s : State) (n : Nat) : SameButDevices s (s.drawn n) :=
  ⟨rfl, rfl, rfl, rfl, rfl, rfl, rfl, rfl, rfl⟩
theorem SameButDevices.setPeriph (s : State) (p : Periph) : SameButDevices s (s.setPeriph p) :=
  ⟨rfl, rfl, rfl, rfl, rfl, rfl, rfl, rfl, rfl⟩
theorem SameButDevices.emitted (s : State) (p : Periph) (o : Output) :
    SameButDevices s ((s.setPeriph p).emit o) :=
  ⟨rfl, rfl, rfl, rfl, rfl, rfl, rfl, rfl, rfl⟩

/-- Reading an 8 bit register changes nothing, draws a free value, or takes the head of the Rx FIFO. -/
theorem readByteReg_cases (s : State) (r : ByteReg) :
    (readByteReg s r).2 = s ∨ (readByteReg s r).2 = s.drawn 1 ∨
    ∃ b rest, s.periph.uartRx = b :: rest ∧
      (readByteReg s r).2 = s.setPeriph { s.periph with uartRx := rest } := by
  cases r
  · exact .inl rfl
  · cases h : s.periph.uartRx with
    | nil => exact .inr (.inl (by simp [readByteReg, h]))
    | cons b rest => exact .inr (.inr ⟨b, rest, rfl, by simp [readByteReg, h]⟩)
  · exact .inr (.inl rfl)

theorem readByteReg_same (s : State) (r : ByteReg) : SameButDevices s (readByteReg s r).2 := by
  rcases readByteReg_cases s r with h | h | ⟨b, rest, -, h⟩ <;> rw [h]
  · exact .refl s
  · exact .drawn s 1
  · exact .setPeriph s _

theorem readByteReg_output (s : State) (r : ByteReg) : (readByteReg s r).2.output = s.output := by
  rcases readByteReg_cases s r with h | h | ⟨b, rest, -, h⟩ <;> rw [h] <;> rfl

/-- Reading a 16 bit register changes nothing or draws a free value. -/
theorem readWordReg_cases (s : State) (r : WordReg) :
    (readWordReg s r).2 = s ∨ (readWordReg s r).2 = s.drawn 1 := by
  have held : ∀ v, (dmaHeld s v).2 = s ∨ (dmaHeld s v).2 = s.drawn 1 := fun v => by
    unfold dmaHeld; split
    · exact .inr rfl
    · exact .inl rfl
  cases r
  · exact .inl rfl
  · exact .inl rfl
  · exact .inr rfl
  · exact .inr rfl
  · exact held _
  · exact held _
  · exact .inr rfl

theorem readWordReg_same (s : State) (r : WordReg) : SameButDevices s (readWordReg s r).2 := by
  rcases readWordReg_cases s r with h | h <;> rw [h]
  · exact .refl s
  · exact .drawn s 1

/-- Writing an 8 bit register: the LED latch, or a byte into a Tx FIFO that has room. -/
theorem writeByteReg_next {s t : State} {r : ByteReg} {v : Byte} (h : writeByteReg s r v = .next t) :
    (r = .ledData ∧ t = (s.setPeriph { s.periph with led := v }).emit (.led v)) ∨
    (r = .uartData ∧ s.periph.uartTx.length < 8 ∧
      t = s.setPeriph { s.periph with uartTx := s.periph.uartTx ++ [v] }) := by
  cases r
  · simp only [writeByteReg, Host.Outcome.next.injEq] at h; exact .inl ⟨rfl, h.symm⟩
  · simp only [writeByteReg] at h
    split at h
    · rename_i hl
      simp only [Host.Outcome.next.injEq] at h; exact .inr ⟨rfl, hl, h.symm⟩
    · cases h
  · cases h

/-- Starting a DMA transfer: everything 60_exceptions.md R234 to R237 asks for holds. -/
theorem startDma_next {s t : State} {v : Word} (h : startDma s v = .next t) :
    ∃ dir, s.periph.dmaTransfer = none ∧ dmaDirOf (v.extractLsb' 0 3) = some dir ∧
      s.periph.dmaLocal.toNat % 2 = 0 ∧ 0 < s.periph.dmaCount.toNat ∧ s.periph.dmaCount.toNat % 2 = 0 ∧
      s.periph.dmaLocal.toNat + s.periph.dmaCount.toNat ≤ 0xFF00 ∧
      s.periph.dmaLocal.toNat + s.periph.dmaCount.toNat ≤ s.cfg.ramSize ∧
      t = s.setPeriph { s.periph with
        dmaType := v.extractLsb' 0 3
        dmaTransfer := some
          { dir := dir, localStart := s.periph.dmaLocal, extStart := extBase s.periph.dmaRemote,
            count := s.periph.dmaCount, copied := [] } } := by
  unfold startDma at h
  simp only at h
  split at h
  · cases h
  · rename_i hb
    split at h
    · cases h
    · rename_i dir hd
      split_ifs at h with h1 h2 h3 h4
      refine ⟨dir, by simpa using hb, hd, by omega, by omega, by omega, by omega, by omega, ?_⟩
      simpa using h.symm

/-- When the checks of 60_exceptions.md R234 to R237 pass, DMA_CONTROL starts the transfer. -/
theorem startDma_of {s : State} {v : Word} {dir : DmaDir} (hb : s.periph.dmaTransfer = none)
    (hd : dmaDirOf (v.extractLsb' 0 3) = some dir) (h1 : s.periph.dmaLocal.toNat % 2 = 0)
    (h2 : 0 < s.periph.dmaCount.toNat) (h3 : s.periph.dmaCount.toNat % 2 = 0)
    (h4 : s.periph.dmaLocal.toNat + s.periph.dmaCount.toNat ≤ 0xFF00)
    (h5 : s.periph.dmaLocal.toNat + s.periph.dmaCount.toNat ≤ s.cfg.ramSize) :
    startDma s v = .next (s.setPeriph { s.periph with
        dmaType := v.extractLsb' 0 3
        dmaTransfer := some
          { dir := dir, localStart := s.periph.dmaLocal, extStart := extBase s.periph.dmaRemote,
            count := s.periph.dmaCount, copied := [] } }) := by
  unfold startDma
  simp only [hb, hd, Option.isSome_none]
  rw [if_neg (by simp), if_neg (by omega), if_neg (by omega), if_neg (by omega), if_neg (by omega)]

/-- Writing a 16 bit register changes the peripherals alone, but for what the outside sees of the sound. -/
theorem writeWordReg_next {s t : State} {r : WordReg} {v : Word} (h : writeWordReg s r v = .next t) :
    (∃ p, t = s.setPeriph p ∧ p.uartTx = s.periph.uartTx ∧ p.uartRx = s.periph.uartRx ∧
        (p.dmaTransfer = s.periph.dmaTransfer)) ∨
    (∃ p, t = (s.setPeriph p).emit (.sound v) ∧ p.uartTx = s.periph.uartTx ∧
        p.uartRx = s.periph.uartRx ∧ p.dmaTransfer = s.periph.dmaTransfer) ∨
    (r = .dmaControl ∧ startDma s v = .next t) := by
  cases r <;> simp only [writeWordReg, setDmaRegister] at h
  · cases h; exact .inl ⟨_, rfl, rfl, rfl, rfl⟩
  · cases h; exact .inl ⟨_, rfl, rfl, rfl, rfl⟩
  · cases h; exact .inr (.inl ⟨_, rfl, rfl, rfl, rfl⟩)
  · exact .inr (.inr ⟨rfl, h⟩)
  all_goals
    split at h
    · cases h
    · cases h; exact .inl ⟨_, rfl, rfl, rfl, rfl⟩

theorem writeByteReg_same {s t : State} {r : ByteReg} {v : Byte} (h : writeByteReg s r v = .next t) :
    SameButDevices s t := by
  rcases writeByteReg_next h with ⟨-, rfl⟩ | ⟨-, -, rfl⟩
  · exact .emitted s _ _
  · exact .setPeriph s _

theorem writeWordReg_same {s t : State} {r : WordReg} {v : Word} (h : writeWordReg s r v = .next t) :
    SameButDevices s t := by
  rcases writeWordReg_next h with ⟨p, rfl, -⟩ | ⟨p, rfl, -⟩ | ⟨-, h⟩
  · exact .setPeriph s _
  · exact .emitted s _ _
  · obtain ⟨_, -, -, -, -, -, -, -, rfl⟩ := startDma_next h
    exact .setPeriph s _

/-! ### Memory accesses -/

/-- A byte read answers from a peripheral register or from written RAM. -/
theorem readByte_next {s t : State} {a : Word} {b : Byte} (h : readByte s a = .next (b, t)) :
    (∃ r, 0xFF00 ≤ a.toNat ∧ periphAt a = .byteReg r ∧ readByteReg s r = (b, t)) ∨
    (InRam s a ∧ s.ramByte a.toNat = some b ∧ t = s) := by
  unfold readByte at h
  split_ifs at h with h1 h2
  · unfold periphReadByte at h
    split at h
    · rename_i r hr
      simp only [Host.Outcome.next.injEq] at h
      exact .inl ⟨r, h1, hr, h⟩
    · cases h
    · cases h
  · split at h
    · rename_i b' hb
      simp only [Host.Outcome.next.injEq, Prod.mk.injEq] at h
      obtain ⟨rfl, rfl⟩ := h
      exact .inr ⟨⟨by omega, by omega⟩, hb, rfl⟩
    · cases h

theorem readByte_ram {s : State} {a : Word} {b : Byte} (h : InRam s a) (hb : s.ramByte a.toNat = some b) :
    readByte s a = .next (b, s) := by
  unfold readByte
  rw [if_neg (by have := h.2; omega), if_neg (by have := h.1; omega), hb]

/-- A word read answers from a peripheral register or from written RAM. -/
theorem readWord_next {s t : State} {a w : Word} (h : readWord s a = .next (w, t)) :
    (∃ r, a.toNat % 2 = 0 ∧ 0xFF00 ≤ a.toNat ∧ periphAt a = .wordReg r ∧ readWordReg s r = (w, t)) ∨
    (WordInRam s a ∧ ramWord s a = some w ∧ t = s) := by
  unfold readWord at h
  split_ifs at h with h0 h1 h2
  · unfold periphReadWord at h
    split at h
    · cases h
    · rename_i r hr
      simp only [Host.Outcome.next.injEq] at h
      exact .inl ⟨r, by omega, h1, hr, h⟩
    · cases h
  · split at h
    · rename_i w' hw
      simp only [Host.Outcome.next.injEq, Prod.mk.injEq] at h
      obtain ⟨rfl, rfl⟩ := h
      exact .inr ⟨⟨by omega, by omega, by omega⟩, hw, rfl⟩
    · cases h

theorem ramWord_holds {s : State} {a v : Word} : ramWord s a = some v ↔ HoldsWord s a v := by
  have key : ramWord s a = some v ↔
      s.ramByte a.toNat = some (firstByte s.cfg.byteOrder v) ∧
      s.ramByte (a.toNat + 1) = some (secondByte s.cfg.byteOrder v) := by
    unfold ramWord
    cases s.ramByte a.toNat <;> cases s.ramByte (a.toNat + 1) <;> simp [wordOfBytes_eq_iff]
  rw [key]
  unfold HoldsWord
  cases s.cfg.byteOrder <;> exact Iff.rfl

theorem readWord_ram {s : State} {a v : Word} (h : WordInRam s a) (hv : HoldsWord s a v) :
    readWord s a = .next (v, s) := by
  unfold readWord
  rw [if_neg (by have := h.1; omega), if_neg (by have := h.2.2; omega),
    if_neg (by have := h.2.1; omega), ramWord_holds.mpr hv]

/-- A byte write goes to a peripheral register or to RAM. -/
theorem writeByte_next {s t : State} {a : Word} {v : Byte} (h : writeByte s a v = .next t) :
    (∃ r, 0xFF00 ≤ a.toNat ∧ periphAt a = .byteReg r ∧ writeByteReg s r v = .next t) ∨
    (InRam s a ∧ t = s.storeRam a.toNat v) := by
  unfold writeByte at h
  split_ifs at h with h1 h2
  · unfold periphWriteByte at h
    split at h
    · rename_i r hr; exact .inl ⟨r, h1, hr, h⟩
    · cases h
    · cases h
  · cases h; exact .inr ⟨⟨by omega, by omega⟩, rfl⟩

theorem writeByte_ram {s : State} {a : Word} (v : Byte) (h : InRam s a) :
    writeByte s a v = .next (s.storeRam a.toNat v) := by
  unfold writeByte
  rw [if_neg (by have := h.2; omega), if_neg (by have := h.1; omega)]

/-- A word write goes to a peripheral register or to RAM. -/
theorem writeWord_next {s t : State} {a v : Word} (h : writeWord s a v = .next t) :
    (∃ r, a.toNat % 2 = 0 ∧ 0xFF00 ≤ a.toNat ∧ periphAt a = .wordReg r ∧ writeWordReg s r v = .next t) ∨
    (WordInRam s a ∧ t = storeRamWord s a v) := by
  unfold writeWord at h
  split_ifs at h with h0 h1 h2
  · unfold periphWriteWord at h
    split at h
    · cases h
    · rename_i r hr; exact .inl ⟨r, by omega, h1, hr, h⟩
    · cases h
  · cases h; exact .inr ⟨⟨by omega, by omega, by omega⟩, rfl⟩

theorem writeWord_ram {s : State} {a : Word} (v : Word) (h : WordInRam s a) :
    writeWord s a v = .next (storeRamWord s a v) := by
  unfold writeWord
  rw [if_neg (by have := h.1; omega), if_neg (by have := h.2.2; omega), if_neg (by have := h.2.1; omega)]

/-- What storing a word in RAM does to each byte of RAM. -/
theorem ramByte_storeRamWord (s : State) (a v : Word) (k : Nat) :
    (storeRamWord s a v).ramByte k =
      if k = a.toNat + 1 then some (secondByte s.cfg.byteOrder v)
      else if k = a.toNat then some (firstByte s.cfg.byteOrder v) else s.ramByte k := by
  simp only [storeRamWord, State.ramByte_storeRam]

theorem storeRamWord_holds (s : State) (a v : Word) : HoldsWord (storeRamWord s a v) a v := by
  unfold HoldsWord
  rw [ramByte_storeRamWord, ramByte_storeRamWord]
  have hc : (storeRamWord s a v).cfg = s.cfg := by simp [storeRamWord]
  rw [hc, if_neg (by omega), if_pos rfl, if_pos rfl]
  cases s.cfg.byteOrder <;> exact ⟨rfl, rfl⟩

/-- A fetch answers from written RAM. -/
theorem fetchWord_next {s : State} {a w : Word} (h : fetchWord s a = .next w) :
    WordInRam s a ∧ ramWord s a = some w ∧ fetchCoherent s a = true := by
  unfold fetchWord at h
  by_cases h0 : a.toNat % 2 = 1
  · rw [if_pos h0] at h; cases h
  rw [if_neg h0] at h
  by_cases h1 : 0xFF00 ≤ a.toNat
  · rw [if_pos h1] at h; cases h
  rw [if_neg h1] at h
  by_cases h2 : s.cfg.ramSize ≤ a.toNat
  · rw [if_pos h2] at h; cases h
  rw [if_neg h2] at h
  cases hw : ramWord s a with
  | none => rw [hw] at h; cases h
  | some w' =>
    rw [hw] at h
    by_cases hc : fetchCoherent s a = true
    · simp only [hc, if_true, Host.Outcome.next.injEq] at h
      exact ⟨⟨by omega, by omega, by omega⟩, by rw [h], hc⟩
    · simp only [hc] at h; cases h

theorem fetchWord_ram {s : State} {a w : Word} (h : WordInRam s a) (hw : ramWord s a = some w)
    (hc : fetchCoherent s a = true) : fetchWord s a = .next w := by
  unfold fetchWord
  rw [if_neg (by have := h.1; omega), if_neg (by have := h.2.2; omega), if_neg (by have := h.2.1; omega), hw]
  simp only [hc, if_true]

/-- The frame of a word stored in RAM. -/
theorem storeRamWord_frame (s : State) (a v : Word) :
    (storeRamWord s a v).cfg = s.cfg ∧ (storeRamWord s a v).regs = s.regs ∧
    (storeRamWord s a v).pc = s.pc ∧ (storeRamWord s a v).lr = s.lr ∧
    (storeRamWord s a v).flags = s.flags ∧ (storeRamWord s a v).periph = s.periph ∧
    (storeRamWord s a v).ext = s.ext ∧ (storeRamWord s a v).agenda = s.agenda ∧
    (storeRamWord s a v).output = s.output ∧ (storeRamWord s a v).draws = s.draws := by
  simp [storeRamWord]

end Sys2Proof.Machine
end

