-- ==== Sys2Proof/Laws/Agents.lean ====
section
/-! SUPPORT. What one move of a peripheral agent can do, and moves in sequence. -/

namespace Sys2Proof.Machine

/-- The receiver appends a byte, or sets `overrun` when the FIFO is full. -/
theorem uartReceive_cases (s : State) (b : Byte) :
    (s.periph.uartRx.length < 8 ∧
      uartReceive s b = s.setPeriph { s.periph with uartRx := s.periph.uartRx ++ [b] }) ∨
    (8 ≤ s.periph.uartRx.length ∧
      uartReceive s b = s.setPeriph { s.periph with uartOverrun := true }) := by
  unfold uartReceive
  split
  · rename_i h; exact .inl ⟨h, rfl⟩
  · rename_i h; exact .inr ⟨by omega, rfl⟩

/-- The transmitter does nothing, or sends the head of the FIFO. -/
theorem uartTransmit_cases (s : State) :
    (s.periph.uartTx = [] ∧ uartTransmit s = s) ∨
    ∃ b rest, s.periph.uartTx = b :: rest ∧
      uartTransmit s = (s.setPeriph { s.periph with uartTx := rest }).emit (.uart b) := by
  cases h : s.periph.uartTx with
  | nil => exact .inl ⟨rfl, by simp [uartTransmit, h]⟩
  | cons b rest => exact .inr ⟨b, rest, rfl, by simp [uartTransmit, h]⟩

/-- The timer stands at 0, or counts down by one. -/
theorem timerTick_cases (s : State) :
    (s.periph.timer = 0 ∧ timerTick s = s) ∨
    (0 < s.periph.timer.toNat ∧
      timerTick s = s.setPeriph { s.periph with timer := s.periph.timer - 1 }) := by
  unfold timerTick
  split
  · rename_i h; exact .inl ⟨h, rfl⟩
  · rename_i h
    exact .inr ⟨Nat.pos_of_ne_zero fun h0 => h (BitVec.eq_of_toNat_eq (by simpa using h0)), rfl⟩

/-- A byte moved by the DMA controller: a written byte out, a free value out for a byte nothing has
written, a byte in, or a free value in where the external DRAM has none. -/
theorem dmaMoveByte_cases (s : State) (t : Transfer) (i : Nat) :
    (t.dir = .toExternal ∧ ∃ b, s.ramByte (t.localStart.toNat + i) = some b ∧
      dmaMoveByte s t i = s.storeExt (t.extStart + i) b) ∨
    (t.dir = .toExternal ∧ s.ramByte (t.localStart.toNat + i) = none ∧
      dmaMoveByte s t i = (s.storeExt (t.extStart + i) (Config.freeByte s.draws)).drawn 1) ∨
    (t.dir = .toLocal ∧ ∃ k, extAddress (t.extStart + i) = some k ∧
      dmaMoveByte s t i = s.setRam (t.localStart.toNat + i) (s.extByte k)) ∨
    (t.dir = .toLocal ∧ extAddress (t.extStart + i) = none ∧
      dmaMoveByte s t i =
        (s.setRam (t.localStart.toNat + i) (Config.freeByte s.draws)).drawn 1) := by
  unfold dmaMoveByte
  cases t.dir
  · cases h : s.ramByte (t.localStart.toNat + i) with
    | none => exact .inr (.inl ⟨rfl, rfl, rfl⟩)
    | some b => exact .inl ⟨rfl, b, rfl, rfl⟩
  · cases h : extAddress (t.extStart + i) with
    | none => exact .inr (.inr (.inr ⟨rfl, rfl, rfl⟩))
    | some k => exact .inr (.inr (.inl ⟨rfl, k, rfl, rfl⟩))

/-- The DMA controller does nothing, or copies a byte its transfer still has to copy. -/
theorem dmaCopy_cases (s : State) (i : Nat) :
    dmaCopy s i = s ∨
    ∃ t, s.periph.dmaTransfer = some t ∧ i < t.count.toNat ∧ i ∉ t.copied ∧
      dmaCopy s i = (dmaMoveByte s t i).setPeriph
        { s.periph with dmaTransfer := some { t with copied := i :: t.copied } } := by
  unfold dmaCopy
  split
  · exact .inl rfl
  · rename_i t ht
    split
    · rename_i h; exact .inr ⟨t, ht, h.1, h.2, rfl⟩
    · exact .inl rfl

/-- The DMA controller does nothing, or ends a transfer whose bytes are all copied. -/
theorem dmaFinish_cases (s : State) :
    dmaFinish s = s ∨
    ∃ t, s.periph.dmaTransfer = some t ∧ t.copied.length = t.count.toNat ∧
      dmaFinish s = (s.setPeriph { s.periph with
        dmaLocal := t.localStart + t.count
        dmaRemote := Config.freeWord s.draws
        dmaCount := Config.freeWord (s.draws + 1)
        dmaTransfer := none }).drawn 2 := by
  unfold dmaFinish
  split
  · exact .inl rfl
  · rename_i t ht
    split
    · rename_i h; exact .inr ⟨t, ht, h, rfl⟩
    · exact .inl rfl

/-- What no agent touches. -/
structure SameProcessor (s t : State) : Prop where
  cfg : t.cfg = s.cfg
  regs : t.regs = s.regs
  pc : t.pc = s.pc
  lr : t.lr = s.lr
  flags : t.flags = s.flags
  selfWritten : t.selfWritten = s.selfWritten

theorem SameProcessor.refl (s : State) : SameProcessor s s := ⟨rfl, rfl, rfl, rfl, rfl, rfl⟩

theorem SameProcessor.trans {s t u : State} (h : SameProcessor s t) (k : SameProcessor t u) :
    SameProcessor s u :=
  ⟨k.cfg.trans h.cfg, k.regs.trans h.regs, k.pc.trans h.pc, k.lr.trans h.lr, k.flags.trans h.flags,
    k.selfWritten.trans h.selfWritten⟩

/-- An agent's move leaves the processor alone. -/
theorem agentMove_sameProcessor (s : State) (m : AgentMove) : SameProcessor s (agentMove s m) := by
  cases m with
  | uartReceive b =>
    rcases uartReceive_cases s b with ⟨-, h⟩ | ⟨-, h⟩ <;>
      (rw [agentMove, h]; exact ⟨rfl, rfl, rfl, rfl, rfl, rfl⟩)
  | uartTransmit =>
    rcases uartTransmit_cases s with ⟨-, h⟩ | ⟨b, rest, -, h⟩ <;>
      (rw [agentMove, h]; exact ⟨rfl, rfl, rfl, rfl, rfl, rfl⟩)
  | timerTick =>
    rcases timerTick_cases s with ⟨-, h⟩ | ⟨-, h⟩ <;>
      (rw [agentMove, h]; exact ⟨rfl, rfl, rfl, rfl, rfl, rfl⟩)
  | dmaCopy i =>
    rw [agentMove]
    rcases dmaCopy_cases s i with h | ⟨t, -, -, -, h⟩
    · rw [h]; exact .refl s
    · rw [h]
      rcases dmaMoveByte_cases s t i with ⟨-, b, -, h⟩ | ⟨-, -, h⟩ | ⟨-, k, -, h⟩ | ⟨-, -, h⟩ <;>
        (rw [h]; constructor <;> simp)
  | dmaFinish =>
    rw [agentMove]
    rcases dmaFinish_cases s with h | ⟨t, -, -, h⟩ <;>
      (rw [h]; exact ⟨rfl, rfl, rfl, rfl, rfl, rfl⟩)

/-- What every move keeps, a sequence of moves keeps. -/
theorem agentMoves_induct {P : State → Prop} (hP : ∀ s m, P s → P (agentMove s m)) {s : State}
    (h : P s) (ms : List AgentMove) : P (agentMoves s ms) := by
  induction ms generalizing s with
  | nil => exact h
  | cons m ms ih => exact ih (hP s m h)

theorem agentMoves_sameProcessor (s : State) (ms : List AgentMove) :
    SameProcessor s (agentMoves s ms) :=
  agentMoves_induct (P := SameProcessor s) (fun t m h => h.trans (agentMove_sameProcessor t m))
    (.refl s) ms

/-- Between two instructions the agents leave the processor alone. -/
theorem runAgents_sameProcessor (s : State) : SameProcessor s (runAgents s) := by
  unfold runAgents
  split
  · exact .refl s
  · rename_i ms later _
    have h : SameProcessor s { s with agenda := later } := ⟨rfl, rfl, rfl, rfl, rfl, rfl⟩
    exact h.trans (agentMoves_sameProcessor _ ms)

end Sys2Proof.Machine
end

