-- ==== Sys2Proof/Laws/Flags.lean ====
section
/-! SUPPORT. What the flag computations do, as integers: one lemma per computation. -/

namespace Sys2Proof.Machine

theorem bitNat_le (b : Bool) : bitNat b ≤ 1 := by cases b <;> simp [bitNat]

theorem getLsbD_15 (r : Word) : r.getLsbD 15 = true ↔ 32768 ≤ r.toNat := by
  rw [BitVec.getLsbD, Nat.testBit_eq_decide_div_mod_eq]
  have := r.isLt
  simp only [decide_eq_true_eq]
  omega

theorem withZS_flags (r : Word) (c v : Bool) : FlagsSay (withZS r c v).flags r (c = true) (v = true) := by
  refine ⟨?_, getLsbD_15 r, Iff.rfl, Iff.rfl⟩
  simp only [withZS, decide_eq_true_eq]
  exact ⟨fun h => by simp [h], fun h => BitVec.eq_of_toNat_eq (by simpa using h)⟩

theorem FlagsSay.mono {f : Flags} {r : Word} {c c' v v' : Prop} (h : FlagsSay f r c v)
    (hc : c ↔ c') (hv : v ↔ v') : FlagsSay f r c' v' :=
  ⟨h.1, h.2.1, h.2.2.1.trans hc, h.2.2.2.trans hv⟩

theorem toInt_cases (a : Word) :
    (a.toNat < 32768 ∧ a.toInt = a.toNat) ∨ (32768 ≤ a.toNat ∧ a.toInt = a.toNat - 65536) := by
  have := a.isLt
  rw [BitVec.toInt_eq_toNat_cond]
  split <;> omega

/-- AddFlags (10_state.md R22): the sum modulo 65536, its carry and its overflow. -/
theorem addFlags_spec (cfg : Config) (a b : Word) (cin : Bool) :
    SumIs cfg a b (bitNat cin) (addFlags cfg a b cin).value (addFlags cfg a b cin).flags := by
  have ha := a.isLt
  have hb := b.isLt
  have hc := bitNat_le cin
  refine ⟨by simp [addFlags, withZS], (withZS_flags _ _ _).mono ?_ ?_⟩
  · rw [Nat.testBit_eq_decide_div_mod_eq]
    simp only [decide_eq_true_eq]
    omega
  · have h16 : (a.toNat + b.toNat + bitNat cin).testBit 16
        = decide (65536 ≤ a.toNat + b.toNat + bitNat cin) := by
      rw [Nat.testBit_eq_decide_div_mod_eq]; congr 1; apply propext; omega
    have h15 : (a.toNat % 32768 + b.toNat % 32768 + bitNat cin).testBit 15
        = decide (32768 ≤ a.toNat % 32768 + b.toNat % 32768 + bitNat cin) := by
      rw [Nat.testBit_eq_decide_div_mod_eq]; congr 1; apply propext; omega
    unfold AddOverflows OutOfRange
    rw [h16, h15]
    cases cfg.vRule
    · simp only [bne_iff_ne, ne_eq, decide_eq_decide]
      rcases toInt_cases a with ⟨_, h1⟩ | ⟨_, h1⟩ <;> rcases toInt_cases b with ⟨_, h2⟩ | ⟨_, h2⟩ <;>
        rw [h1, h2] <;> omega
    · simp only [Bool.and_eq_true, Bool.not_eq_true', decide_eq_true_eq, decide_eq_false_iff_not]
      omega

/-- SubFlags (10_state.md R23): the difference modulo 65536, its borrow and its overflow. -/
theorem subFlags_spec (cfg : Config) (a b : Word) (bin : Bool) :
    DifferenceIs cfg a b (bitNat bin) (subFlags cfg a b bin).value (subFlags cfg a b bin).flags := by
  have hc := bitNat_le bin
  refine ⟨?_, (withZS_flags _ _ _).mono ?_ ?_⟩
  · simp only [subFlags, withZS, BitVec.toNat_ofInt]
    omega
  · unfold borrowBit CarrySaysBorrow
    cases cfg.subCarry <;> simp <;> omega
  · unfold fitsSigned OutOfRange
    simp only [Bool.not_eq_true', decide_eq_false_iff_not]
    omega

/-- LogicFlags (10_state.md R24). -/
theorem logicFlags_spec (r : Word) : (logicFlags r).value = r ∧ FlagsSay (logicFlags r).flags r False False :=
  ⟨rfl, (withZS_flags r false false).mono (by simp) (by simp)⟩

/-! ### Shifts -/

theorem shiftAmount_lt {cfg : Config} {op2 : Word} (h : op2.toNat < 16) :
    shiftAmount cfg op2 = some op2.toNat := if_pos h

/-- What SHIFT_AMOUNT_GE16 makes of an amount of 16 or more (46_shift_rotate.md R180, R186). -/
theorem shiftAmount_ge {cfg : Config} {op2 : Word} (h : 16 ≤ op2.toNat) :
    shiftAmount cfg op2 =
      match cfg.shiftAmountGe16 with
      | .unspecified => none
      | .full => some op2.toNat
      | .low4 => some (op2.toNat % 16) := if_neg (by omega)

/-- SHL by any number of positions (R181, R186). -/
theorem shiftValue_shl (x : Word) (n : Nat) :
    (shiftValue .shl x n).toNat = x.toNat * 2 ^ n % 65536 ∧
    (lastBitOut .shl x n = true ↔ x.toNat * 2 ^ n / 65536 % 2 = 1) := by
  simp [shiftValue, lastBitOut, Nat.shiftLeft_eq, Nat.testBit_eq_decide_div_mod_eq]

/-- SHR by any number of positions (R182, R186). -/
theorem shiftValue_shr (x : Word) (n : Nat) :
    (shiftValue .shr x n).toNat = x.toNat / 2 ^ n ∧
    (lastBitOut .shr x n = true ↔ 1 ≤ n ∧ x.toNat / 2 ^ (n - 1) % 2 = 1) := by
  constructor
  · have h : x.toNat / 2 ^ n < 65536 := Nat.lt_of_le_of_lt (Nat.div_le_self _ _) x.isLt
    simp [shiftValue, Nat.shiftRight_eq_div_pow, Nat.mod_eq_of_lt h]
  · rcases n with _ | n <;> simp [lastBitOut, Nat.testBit_eq_decide_div_mod_eq]

/-- SAR by any number of positions (R183, R186): division rounding toward minus infinity. -/
theorem shiftValue_sar (x : Word) (n : Nat) :
    (shiftValue .sar x n).toInt = x.toInt / 2 ^ n ∧
    (lastBitOut .sar x n = true ↔ 1 ≤ n ∧ x.getLsbD (min (n - 1) 15) = true) := by
  constructor
  · have h1 : x.toInt < 32768 := BitVec.toInt_lt (x := x)
    have h2 : -32768 ≤ x.toInt := BitVec.le_toInt (x := x)
    have hp : (0 : Int) < 2 ^ n := by positivity
    have hp1 : (1 : Int) ≤ 2 ^ n := hp
    have hl : -32768 ≤ x.toInt / 2 ^ n := by
      rw [Int.le_ediv_iff_mul_le hp]
      nlinarith
    have hu : x.toInt / 2 ^ n < 32768 := by
      rw [Int.ediv_lt_iff_lt_mul hp]
      nlinarith
    simp only [shiftValue, BitVec.toInt_ofInt]
    apply Int.bmod_eq_of_le <;> simp <;> omega
  · rcases n with _ | n <;> simp [lastBitOut]

/-- SHL, SHR, SAR leave Z and S of the result, C by SHIFT_CARRY, V clear. -/
theorem shiftFlags_spec (cfg : Config) (op : ShiftOp) (x : Word) (n : Nat) (c : Bool) :
    (shiftFlags cfg op x n c).value = shiftValue op x n ∧
    FlagsSay (shiftFlags cfg op x n c).flags (shiftValue op x n)
      (shiftCarry cfg op x n c = true) False :=
  ⟨rfl, (withZS_flags _ _ _).mono Iff.rfl (by simp)⟩

/-- ROL (R184): bit `i` goes to bit `(i + n) mod 16`. -/
theorem rolValue_spec (x op2 : Word) (i : Nat) (h : i < 16) :
    (rolValue x op2).getLsbD ((i + op2.toNat) % 16) = x.getLsbD i := by
  have h1 : (i + op2.toNat) % 16 < 16 := Nat.mod_lt _ (by decide)
  have h2 : op2.toNat % 16 < 16 := Nat.mod_lt _ (by decide)
  simp only [rolValue, BitVec.getLsbD_rotateLeft, cond_eq_ite, decide_eq_true_eq]
  split
  · congr 1; omega
  · simp only [h1, decide_true, Bool.true_and]; congr 1; omega

/-- Bit `i` of the 17 bits of C above `x`. -/
def carryBit (c : Bool) (x : Word) (i : Nat) : Bool := if i = 16 then c else x.getLsbD i

theorem getLsbD_carry (c : Bool) (x : Word) (i : Nat) (h : i < 17) :
    (BitVec.ofBool c ++ x).getLsbD i = carryBit c x i := by
  simp only [BitVec.getLsbD_append, carryBit]
  split
  · rw [if_neg (by omega)]
  · have : i = 16 := by omega
    subst this; cases c <;> rfl

/-- RCL (R185, R186): in the 17 bits of C above rD, bit `i` goes to bit `(i + n) mod 17`. -/
theorem rclFlags_spec (x : Word) (n : Nat) (c : Bool) :
    (∀ i, i < 17 → carryBit (rclFlags x n c).flags.c (rclFlags x n c).value ((i + n) % 17) = carryBit c x i) ∧
    (rclFlags x n c).flags.v = false ∧
    ((rclFlags x n c).flags.z = true ↔ (rclFlags x n c).value.toNat = 0) ∧
    ((rclFlags x n c).flags.s = true ↔ 32768 ≤ (rclFlags x n c).value.toNat) := by
  refine ⟨fun i h => ?_, rfl, (withZS_flags _ _ _).1, (withZS_flags _ _ _).2.1⟩
  have h1 : (i + n) % 17 < 17 := Nat.mod_lt _ (by decide)
  have h2 : n % 17 < 17 := Nat.mod_lt _ (by decide)
  have key : carryBit (rclFlags x n c).flags.c (rclFlags x n c).value ((i + n) % 17)
      = ((BitVec.ofBool c ++ x).rotateLeft (n % 17)).getLsbD ((i + n) % 17) := by
    simp only [carryBit, rclFlags, withZS]
    split
    · rename_i h16; rw [h16]
    · have : (i + n) % 17 < 16 := by omega
      simp [this]
  rw [key, BitVec.getLsbD_rotateLeft, ← getLsbD_carry c x i h]
  simp only [cond_eq_ite, decide_eq_true_eq]
  split
  · congr 1; omega
  · rw [decide_eq_true h1, Bool.true_and]; congr 1; omega

/-! ### Conditions and cr0 -/

/-- `cond(cc)` is the Expression column (45_control.md R160). -/
theorem condHolds_iff (cfg : Config) (cond : Cond) (f : Flags) :
    condHolds cfg cond f = true ↔ CondExpr cfg f cond := by
  obtain ⟨z, c, s, v⟩ := f
  cases cond <;> cases z <;> cases c <;> cases s <;> cases v <;>
    (unfold condHolds CondExpr; try cases cfg.lsExpr) <;> simp

/-- cr0 as a number (10_state.md R20). -/
theorem toWord_toNat (f : Flags) :
    f.toWord.toNat = bitNat f.z + 2 * bitNat f.c + 4 * bitNat f.s + 8 * bitNat f.v := by
  obtain ⟨z, c, s, v⟩ := f
  cases z <;> cases c <;> cases s <;> cases v <;> rfl

end Sys2Proof.Machine
end

