-- ==== Sys2Proof/Laws/Exec.lean ====
section
/-! SUPPORT. What the meanings' shared operations can do: one lemma per operation, and exec at each
operand form. -/

namespace Sys2Proof.Machine

/-! ### exec at an operand form -/

@[simp] theorem exec_add (d : Reg) (o : Operand) (s : State) :
    exec (twoOp .add d o) s = opAdd d o s := by cases o <;> rfl
@[simp] theorem exec_sub (d : Reg) (o : Operand) (s : State) :
    exec (twoOp .sub d o) s = opSub d o s := by cases o <;> rfl
@[simp] theorem exec_adc (d : Reg) (o : Operand) (s : State) :
    exec (twoOp .adc d o) s = opAdc d o s := by cases o <;> rfl
@[simp] theorem exec_sbb (d : Reg) (o : Operand) (s : State) :
    exec (twoOp .sbb d o) s = opSbb d o s := by cases o <;> rfl
@[simp] theorem exec_cmp (d : Reg) (o : Operand) (s : State) :
    exec (twoOp .cmp d o) s = opCmp d o s := by cases o <;> rfl
@[simp] theorem exec_and (d : Reg) (o : Operand) (s : State) :
    exec (twoOp .and d o) s = opAnd d o s := by cases o <;> rfl
@[simp] theorem exec_or (d : Reg) (o : Operand) (s : State) :
    exec (twoOp .or d o) s = opOr d o s := by cases o <;> rfl
@[simp] theorem exec_xor (d : Reg) (o : Operand) (s : State) :
    exec (twoOp .xor d o) s = opXor d o s := by cases o <;> rfl
@[simp] theorem exec_test (d : Reg) (o : Operand) (s : State) :
    exec (twoOp .test d o) s = opTest d o s := by cases o <;> rfl
@[simp] theorem exec_shl (d : Reg) (o : Operand) (s : State) :
    exec (twoOp .shl d o) s = opShift .shl d o s := by cases o <;> rfl
@[simp] theorem exec_shr (d : Reg) (o : Operand) (s : State) :
    exec (twoOp .shr d o) s = opShift .shr d o s := by cases o <;> rfl
@[simp] theorem exec_sar (d : Reg) (o : Operand) (s : State) :
    exec (twoOp .sar d o) s = opShift .sar d o s := by cases o <;> rfl
@[simp] theorem exec_rol (d : Reg) (o : Operand) (s : State) :
    exec (twoOp .rol d o) s = opRol d o s := by cases o <;> rfl
@[simp] theorem exec_rcl (d : Reg) (o : Operand) (s : State) :
    exec (twoOp .rcl d o) s = opRcl d o s := by cases o <;> rfl
@[simp] theorem exec_ldAt (d : Reg) (a : Address) (s : State) :
    exec (ldAt d a) s = opLd d a s := by cases a <;> rfl
@[simp] theorem exec_ldbAt (d : Reg) (a : Address) (s : State) :
    exec (ldbAt d a) s = opLdb d a s := by cases a <;> rfl
@[simp] theorem exec_stAt (d : Reg) (a : Address) (s : State) :
    exec (stAt d a) s = opSt d a s := by cases a <;> rfl
@[simp] theorem exec_stbAt (d : Reg) (a : Address) (s : State) :
    exec (stbAt d a) s = opStb d a s := by cases a <;> rfl
@[simp] theorem exec_movAt (d : Reg) (o : Operand) (s : State) :
    exec (movAt d o) s = opMove d (o.value s) o.size s := by cases o <;> rfl
@[simp] theorem exec_movbAt (d : Reg) (b : Byte) (s : State) :
    exec (movbAt d b) s = opMove d (movbValue s.cfg b) 2 s := by cases d <;> rfl
@[simp] theorem exec_pushAt (r : Reg) (o : Operand) (s : State) :
    exec (pushAt r o) s = opPush o r s := by cases o <;> rfl
@[simp] theorem exec_jmpAt (cond : Cond) (o : Operand) (s : State) :
    exec (jmpAt cond o) s = opJmp cond o s := by cases o <;> rfl
@[simp] theorem exec_callAt (cond : Cond) (o : Operand) (s : State) :
    exec (callAt cond o) s = opCall cond o s := by cases o <;> rfl

/-! ### Writing results back -/

@[simp] theorem writeResult_reg_same (s : State) (d : Reg) (a : AluResult) (n : Word) :
    (writeResult s d a n).reg d = a.value := by simp [writeResult]
theorem writeResult_reg_other (s : State) {d q : Reg} (a : AluResult) (n : Word) (h : q ≠ d) :
    (writeResult s d a n).reg q = s.reg q := by
  simp [writeResult, State.reg_setReg_other s a.value h]
@[simp] theorem writeResult_flags (s : State) (d : Reg) (a : AluResult) (n : Word) :
    (writeResult s d a n).flags = a.flags := rfl
@[simp] theorem writeResult_pc (s : State) (d : Reg) (a : AluResult) (n : Word) :
    (writeResult s d a n).pc = s.pc + n := rfl
@[simp] theorem writeResult_cfg (s : State) (d : Reg) (a : AluResult) (n : Word) :
    (writeResult s d a n).cfg = s.cfg := rfl
@[simp] theorem writeFlags_cfg (s : State) (a : AluResult) (n : Word) :
    (writeFlags s a n).cfg = s.cfg := rfl
@[simp] theorem writeFlags_reg (s : State) (a : AluResult) (n : Word) (q : Reg) :
    (writeFlags s a n).reg q = s.reg q := rfl
@[simp] theorem writeFlags_flags (s : State) (a : AluResult) (n : Word) :
    (writeFlags s a n).flags = a.flags := rfl
@[simp] theorem writeFlags_pc (s : State) (a : AluResult) (n : Word) :
    (writeFlags s a n).pc = s.pc + n := rfl

/-- Writing a result back changes the destination, the flags and the pc alone. -/
theorem writeResult_frame (s : State) (d : Reg) (a : AluResult) (n : Word) :
    OnlyRegisters [d] s (writeResult s d a n) where
  regs q h := writeResult_reg_other s a n (by simpa using h)
  lr := rfl
  ram _ := rfl
  selfWritten := rfl
  world := ⟨rfl, fun _ => rfl, rfl, rfl, rfl⟩

/-- Drawing free values changes nothing a frame speaks of. -/
theorem OnlyRegisters.drawn {rs : List Reg} {s t : State} (h : OnlyRegisters rs s t) (n : Nat) :
    OnlyRegisters rs s (t.drawn n) where
  regs := h.regs
  lr := h.lr
  ram := h.ram
  selfWritten := h.selfWritten
  world := ⟨h.world.periph, h.world.ext, h.world.cfg, h.world.agenda, h.world.output⟩

/-- Writing flags alone changes no register. -/
theorem writeFlags_frame (s : State) (a : AluResult) (n : Word) :
    OnlyRegisters [] s (writeFlags s a n) :=
  ⟨fun _ _ => rfl, rfl, fun _ => rfl, rfl, ⟨rfl, fun _ => rfl, rfl, rfl, rfl⟩⟩

/-- A move changes its destination and the pc alone. -/
theorem opMove_frame (s : State) (d : Reg) (v n : Word) :
    OnlyRegisters [d] s ((s.setReg d v).advance n) where
  regs q h := by simp [State.reg_setReg_other s v (show q ≠ d by simpa using h)]
  lr := rfl
  ram _ := rfl
  selfWritten := rfl
  world := ⟨rfl, fun _ => rfl, rfl, rfl, rfl⟩

/-! ### Shifts -/

/-- SHL, SHR and SAR write a result back, and draw free values where the amount leaves it open. -/
theorem opShift_cases (op : ShiftOp) (d : Reg) (o : Operand) (s : State) :
    (∃ n, shiftAmount s.cfg (o.value s) = some n ∧
      opShift op d o s = .next (writeResult s d (shiftFlags s.cfg op (s.reg d) n s.flags.c) o.size)) ∨
    (shiftAmount s.cfg (o.value s) = none ∧
      opShift op d o s = .next ((writeResult s d (freeShift s) o.size).drawn 3)) := by
  unfold opShift
  cases h : shiftAmount s.cfg (o.value s) with
  | none => exact .inr ⟨rfl, rfl⟩
  | some n => exact .inl ⟨n, rfl, rfl⟩

/-- RCL writes a result back, and draws free values where the amount leaves it open. -/
theorem opRcl_cases (d : Reg) (o : Operand) (s : State) :
    (∃ n, shiftAmount s.cfg (o.value s) = some n ∧
      opRcl d o s = .next (writeResult s d (rclFlags (s.reg d) n s.flags.c) o.size)) ∨
    (shiftAmount s.cfg (o.value s) = none ∧
      opRcl d o s = .next ((writeResult s d (freeShift s) o.size).drawn 3)) := by
  unfold opRcl
  cases h : shiftAmount s.cfg (o.value s) with
  | none => exact .inr ⟨rfl, rfl⟩
  | some n => exact .inl ⟨n, rfl, rfl⟩

/-! ### Loads, stores and the stack -/

/-- What LD.b makes of a byte, under every setting of LDB_EXTEND. -/
theorem ldbValue_loaded (s : State) (b : Byte) : ByteLoaded s.cfg (ldbValue s b).1 b := by
  have hb := b.isLt
  unfold ldbValue ByteLoaded
  cases s.cfg.ldbExtend
  · refine ⟨BitVec.eq_of_toNat_eq ?_, fun _ => ?_, fun h => by cases h⟩ <;>
      simp [zext, BitVec.extractLsb'_toNat] <;> omega
  · refine ⟨?_, fun h => (by cases h), fun _ => BitVec.toInt_signExtend_of_le (by decide)⟩
    ext i hi
    rw [BitVec.getElem_extractLsb', sext, BitVec.getLsbD_signExtend, if_pos (by omega),
      Nat.zero_add, BitVec.getLsbD_eq_getElem hi]
    simp; omega
  · refine ⟨BitVec.eq_of_toNat_eq ?_, fun h => (by cases h), fun h => (by cases h)⟩
    rw [extract_low_toNat, append_bytes_toNat]; omega

theorem ldbValue_cases (s : State) (b : Byte) :
    (ldbValue s b).2 = s ∨ (ldbValue s b).2 = s.drawn 1 := by
  unfold ldbValue; split
  · exact .inl rfl
  · exact .inl rfl
  · exact .inr rfl

/-- LD reads a word, writes it to rD and goes on. -/
theorem opLd_next {d : Reg} {a : Address} {s t : State} (h : opLd d a s = .next t) :
    ∃ w u, readWord s (a.value s) = .next (w, u) ∧ t = (u.setReg d w).advance a.size := by
  obtain ⟨⟨w, u⟩, hr, ht⟩ := andThen_eq_next.mp h
  simp only [Host.Outcome.next.injEq] at ht
  exact ⟨w, u, hr, ht.symm⟩

/-- LD.b reads a byte, extends it, writes it to rD and goes on. -/
theorem opLdb_next {d : Reg} {a : Address} {s t : State} (h : opLdb d a s = .next t) :
    ∃ b u, readByte s (a.value s) = .next (b, u) ∧
      t = ((ldbValue u b).2.setReg d (ldbValue u b).1).advance a.size := by
  obtain ⟨⟨b, u⟩, hr, ht⟩ := andThen_eq_next.mp h
  simp only [Host.Outcome.next.injEq] at ht
  exact ⟨b, u, hr, ht.symm⟩

/-- ST writes rD to memory and goes on. -/
theorem opSt_next {d : Reg} {a : Address} {s t : State} (h : opSt d a s = .next t) :
    ∃ u, writeWord s (a.value s) (s.reg d) = .next u ∧ t = u.advance a.size := by
  obtain ⟨u, hr, ht⟩ := andThen_eq_next.mp h
  simp only [Host.Outcome.next.injEq] at ht
  exact ⟨u, hr, ht.symm⟩

/-- ST.b writes the low byte of rD to memory and goes on. -/
theorem opStb_next {d : Reg} {a : Address} {s t : State} (h : opStb d a s = .next t) :
    ∃ u, writeByte s (a.value s) ((s.reg d).extractLsb' 0 8) = .next u ∧ t = u.advance a.size := by
  obtain ⟨u, hr, ht⟩ := andThen_eq_next.mp h
  simp only [Host.Outcome.next.injEq] at ht
  exact ⟨u, hr, ht.symm⟩

/-- The store of PUSH and PUSHLR. -/
theorem pushStore_next {r : Reg} {v n : Word} {s t : State} (h : pushStore r v n s = .next t) :
    ∃ u, writeWord s (s.reg r) v = .next u ∧ t = u.advance n := by
  obtain ⟨u, hr, ht⟩ := andThen_eq_next.mp h
  simp only [Host.Outcome.next.injEq] at ht
  exact ⟨u, hr, ht.symm⟩

/-- POP reads a word at the pointer, writes rD, then advances the pointer. -/
theorem execPop_next {d r : Reg} {s t : State} (h : execPop d r s = .next t) :
    ∃ w u, readWord s (s.reg r) = .next (w, u) ∧
      t = ((u.setReg d w).setReg r ((u.setReg d w).reg r + 2)).advance 2 := by
  obtain ⟨⟨w, u⟩, hr, ht⟩ := andThen_eq_next.mp h
  simp only [Host.Outcome.next.injEq] at ht
  exact ⟨w, u, hr, ht.symm⟩

/-! ### Control transfer -/

theorem jumpTo_next {v : Word} {s t : State} (h : jumpTo v s = .next t) :
    v.toNat % 2 = 0 ∧ t = s.setPc v := by
  unfold jumpTo at h
  split_ifs at h with h1
  cases h; exact ⟨by omega, rfl⟩

theorem jumpTo_even {v : Word} (s : State) (h : v.toNat % 2 = 0) : jumpTo v s = .next (s.setPc v) :=
  if_neg (by omega)

/-- JMP goes to its target, which is even, or to the next instruction. -/
theorem opJmp_next {cond : Cond} {o : Operand} {s t : State} (h : opJmp cond o s = .next t) :
    (CondExpr s.cfg s.flags cond ∧ (o.value s).toNat % 2 = 0 ∧ t = s.setPc (o.value s)) ∨
    (¬ CondExpr s.cfg s.flags cond ∧ t = s.advance o.size) := by
  unfold opJmp at h
  rw [← condHolds_iff]
  split_ifs at h with hc
  · exact .inl ⟨hc, jumpTo_next h⟩
  · cases h; exact .inr ⟨hc, rfl⟩

/-- CALL goes to its target, which is even, with LR at the next instruction, or to the next instruction. -/
theorem opCall_next {cond : Cond} {o : Operand} {s t : State} (h : opCall cond o s = .next t) :
    (CondExpr s.cfg s.flags cond ∧ (o.value s).toNat % 2 = 0 ∧
      t = (s.setLr (s.pc + o.size)).setPc (o.value s)) ∨
    (¬ CondExpr s.cfg s.flags cond ∧ t = s.advance o.size) := by
  unfold opCall at h
  rw [← condHolds_iff]
  split_ifs at h with hc
  · exact .inl ⟨hc, jumpTo_next h⟩
  · cases h; exact .inr ⟨hc, rfl⟩

/-! ### A step -/

/-- What an instruction fetched at the pc is, when one completes. -/
theorem instruction_next {s t : State} (h : instruction s = .next t) :
    ∃ w, fetchWord s s.pc = .next w ∧
      ((∃ i, decodeHead s.cfg w = .short i ∧ exec i s = .next t) ∨
       (∃ k imm, decodeHead s.cfg w = .long k ∧ fetchWord s (s.pc + 2) = .next imm ∧
          exec (k imm) s = .next t)) := by
  obtain ⟨w, hw, h⟩ := andThen_eq_next.mp h
  refine ⟨w, hw, ?_⟩
  split at h
  · cases h
  · rename_i i hi; exact .inl ⟨i, hi, h⟩
  · rename_i k hk
    obtain ⟨imm, hi, h⟩ := andThen_eq_next.mp h
    exact .inr ⟨k, imm, hk, hi, h⟩

/-- A step that answers a next state ran one instruction, then the agents' moves. -/
theorem step_next {s t : State} (h : step s = .next t) :
    ∃ i u, exec i s = .next u ∧ t = runAgents u := by
  obtain ⟨u, hu, ht⟩ := andThen_eq_next.mp h
  simp only [Host.Outcome.next.injEq] at ht
  obtain ⟨w, -, ⟨i, -, hi⟩ | ⟨k, imm, -, -, hi⟩⟩ := instruction_next hu
  · exact ⟨i, u, hi, ht.symm⟩
  · exact ⟨k imm, u, hi, ht.symm⟩

end Sys2Proof.Machine
end

