-- ==== Sys2Proof/Laws/PerInstr.lean ====
section
/-! SUPPORT. Families of statements about every instruction as syntax, one lemma per constructor. -/

namespace Sys2Proof.Laws

/-! ### Bits 15 and 14 of each format (30_encoding.md R71, R72) -/

theorem wordRR_top (imm : Bool) (n : Nat) (rS rD : BitVec 3) :
    immBit (wordRR imm n rS rD) = imm ∧ (wordRR imm n rS rD).getLsbD 14 = false := by
  constructor <;> simp only [immBit, wordRR, BitVec.getLsbD_append] <;> simp

theorem wordM_top (imm : Bool) (n : Nat) (byte disp : Bool) (rS rD : BitVec 3) :
    immBit (wordM imm n byte disp rS rD) = imm ∧ (wordM imm n byte disp rS rD).getLsbD 14 = false := by
  constructor <;> simp only [immBit, wordM, BitVec.getLsbD_append] <;> simp

theorem wordC_top (imm : Bool) (n : Nat) (cc : BitVec 4) (rD : BitVec 3) :
    immBit (wordC imm n cc rD) = imm ∧ (wordC imm n cc rD).getLsbD 14 = false := by
  constructor <;> simp only [immBit, wordC, BitVec.getLsbD_append] <;> simp

theorem wordP_top (n : Nat) (cr : BitVec 4) (rD : BitVec 3) :
    immBit (wordP n cr rD) = false ∧ (wordP n cr rD).getLsbD 14 = false := by
  constructor <;> simp only [immBit, wordP, BitVec.getLsbD_append] <;> simp

theorem wordB_top (r : Nat) (b : Byte) :
    immBit (wordB r b) = false ∧ (wordB r b).getLsbD 14 = false := by
  constructor <;> simp only [immBit, wordB, BitVec.getLsbD_append] <;> simp

theorem wordN_top (n : Nat) : immBit (wordN n) = false ∧ (wordN n).getLsbD 14 = false := by
  constructor <;> simp only [immBit, wordN, BitVec.getLsbD_append] <;> simp

/-! ### The length of an encoding -/

/-- The first word's bit 14 is clear, and its bit 15 says whether an immediate word follows
(30_encoding.md R70, R72, R74). -/
def EncodedLength.Statement (i : Instr) : Prop :=
  ∀ c : Config, ∃ w rest, encodeWords c i = w :: rest ∧ w.getLsbD 14 = false ∧
    (immBit w = true → rest.length = 1) ∧ (immBit w = false → rest = [])

/-- An instruction of one word. -/
theorem encodedLength_short {i : Instr} {f : Config → Word} (h : ∀ c, encodeWords c i = [f c])
    (hf : ∀ c, immBit (f c) = false ∧ (f c).getLsbD 14 = false) : EncodedLength.Statement i :=
  fun c => ⟨f c, [], h c, (hf c).2, fun ht => (by rw [(hf c).1] at ht; cases ht), fun _ => rfl⟩

/-- An instruction of two words. -/
theorem encodedLength_long {i : Instr} {f : Config → Word} {imm : Word}
    (h : ∀ c, encodeWords c i = [f c, imm])
    (hf : ∀ c, immBit (f c) = true ∧ (f c).getLsbD 14 = false) : EncodedLength.Statement i :=
  fun c => ⟨f c, [imm], h c, (hf c).2, fun _ => rfl, fun ht => (by rw [(hf c).1] at ht; cases ht)⟩

theorem EncodedLength.addR (rD : Reg) (rS : Reg) : EncodedLength.Statement (.addR rD rS) :=
  encodedLength_short (fun _ => rfl) fun _ => wordRR_top ..
theorem EncodedLength.addI (rD : Reg) (imm : Word) : EncodedLength.Statement (.addI rD imm) :=
  encodedLength_long (fun _ => rfl) fun _ => wordRR_top ..
theorem EncodedLength.subR (rD : Reg) (rS : Reg) : EncodedLength.Statement (.subR rD rS) :=
  encodedLength_short (fun _ => rfl) fun _ => wordRR_top ..
theorem EncodedLength.subI (rD : Reg) (imm : Word) : EncodedLength.Statement (.subI rD imm) :=
  encodedLength_long (fun _ => rfl) fun _ => wordRR_top ..
theorem EncodedLength.pushR (rD : Reg) (rS : Reg) : EncodedLength.Statement (.pushR rD rS) :=
  encodedLength_short (fun _ => rfl) fun _ => wordRR_top ..
theorem EncodedLength.pushI (rS : Reg) (imm : Word) : EncodedLength.Statement (.pushI rS imm) :=
  encodedLength_long (fun _ => rfl) fun _ => wordRR_top ..
theorem EncodedLength.pop (rD : Reg) (rS : Reg) : EncodedLength.Statement (.pop rD rS) :=
  encodedLength_short (fun _ => rfl) fun _ => wordRR_top ..
theorem EncodedLength.movB0 (data : Byte) : EncodedLength.Statement (.movB0 data) :=
  encodedLength_short (fun _ => rfl) fun _ => wordB_top ..
theorem EncodedLength.movB1 (data : Byte) : EncodedLength.Statement (.movB1 data) :=
  encodedLength_short (fun _ => rfl) fun _ => wordB_top ..
theorem EncodedLength.movB2 (data : Byte) : EncodedLength.Statement (.movB2 data) :=
  encodedLength_short (fun _ => rfl) fun _ => wordB_top ..
theorem EncodedLength.movB3 (data : Byte) : EncodedLength.Statement (.movB3 data) :=
  encodedLength_short (fun _ => rfl) fun _ => wordB_top ..
theorem EncodedLength.movB4 (data : Byte) : EncodedLength.Statement (.movB4 data) :=
  encodedLength_short (fun _ => rfl) fun _ => wordB_top ..
theorem EncodedLength.movB5 (data : Byte) : EncodedLength.Statement (.movB5 data) :=
  encodedLength_short (fun _ => rfl) fun _ => wordB_top ..
theorem EncodedLength.movB6 (data : Byte) : EncodedLength.Statement (.movB6 data) :=
  encodedLength_short (fun _ => rfl) fun _ => wordB_top ..
theorem EncodedLength.movB7 (data : Byte) : EncodedLength.Statement (.movB7 data) :=
  encodedLength_short (fun _ => rfl) fun _ => wordB_top ..
theorem EncodedLength.movR (rD : Reg) (rS : Reg) : EncodedLength.Statement (.movR rD rS) :=
  encodedLength_short (fun _ => rfl) fun _ => wordRR_top ..
theorem EncodedLength.movI (rD : Reg) (imm : Word) : EncodedLength.Statement (.movI rD imm) :=
  encodedLength_long (fun _ => rfl) fun _ => wordRR_top ..
theorem EncodedLength.andR (rD : Reg) (rS : Reg) : EncodedLength.Statement (.andR rD rS) :=
  encodedLength_short (fun _ => rfl) fun _ => wordRR_top ..
theorem EncodedLength.andI (rD : Reg) (imm : Word) : EncodedLength.Statement (.andI rD imm) :=
  encodedLength_long (fun _ => rfl) fun _ => wordRR_top ..
theorem EncodedLength.orR (rD : Reg) (rS : Reg) : EncodedLength.Statement (.orR rD rS) :=
  encodedLength_short (fun _ => rfl) fun _ => wordRR_top ..
theorem EncodedLength.orI (rD : Reg) (imm : Word) : EncodedLength.Statement (.orI rD imm) :=
  encodedLength_long (fun _ => rfl) fun _ => wordRR_top ..
theorem EncodedLength.xorR (rD : Reg) (rS : Reg) : EncodedLength.Statement (.xorR rD rS) :=
  encodedLength_short (fun _ => rfl) fun _ => wordRR_top ..
theorem EncodedLength.xorI (rD : Reg) (imm : Word) : EncodedLength.Statement (.xorI rD imm) :=
  encodedLength_long (fun _ => rfl) fun _ => wordRR_top ..
theorem EncodedLength.notR (rD : Reg) : EncodedLength.Statement (.notR rD) :=
  encodedLength_short (fun _ => rfl) fun _ => wordRR_top ..
theorem EncodedLength.negR (rD : Reg) : EncodedLength.Statement (.negR rD) :=
  encodedLength_short (fun _ => rfl) fun _ => wordRR_top ..
theorem EncodedLength.ldR (rD : Reg) (rS : Reg) : EncodedLength.Statement (.ldR rD rS) :=
  encodedLength_short (fun _ => rfl) fun _ => wordM_top ..
theorem EncodedLength.ldA (rD : Reg) (imm : Word) : EncodedLength.Statement (.ldA rD imm) :=
  encodedLength_long (fun _ => rfl) fun _ => wordM_top ..
theorem EncodedLength.ldD (rD : Reg) (rS : Reg) (imm : Word) : EncodedLength.Statement (.ldD rD rS imm) :=
  encodedLength_long (fun _ => rfl) fun _ => wordM_top ..
theorem EncodedLength.ldbR (rD : Reg) (rS : Reg) : EncodedLength.Statement (.ldbR rD rS) :=
  encodedLength_short (fun _ => rfl) fun _ => wordM_top ..
theorem EncodedLength.ldbA (rD : Reg) (imm : Word) : EncodedLength.Statement (.ldbA rD imm) :=
  encodedLength_long (fun _ => rfl) fun _ => wordM_top ..
theorem EncodedLength.ldbD (rD : Reg) (rS : Reg) (imm : Word) : EncodedLength.Statement (.ldbD rD rS imm) :=
  encodedLength_long (fun _ => rfl) fun _ => wordM_top ..
theorem EncodedLength.stR (rD : Reg) (rS : Reg) : EncodedLength.Statement (.stR rD rS) :=
  encodedLength_short (fun _ => rfl) fun _ => wordM_top ..
theorem EncodedLength.stA (rD : Reg) (imm : Word) : EncodedLength.Statement (.stA rD imm) :=
  encodedLength_long (fun _ => rfl) fun _ => wordM_top ..
theorem EncodedLength.stD (rD : Reg) (rS : Reg) (imm : Word) : EncodedLength.Statement (.stD rD rS imm) :=
  encodedLength_long (fun _ => rfl) fun _ => wordM_top ..
theorem EncodedLength.stbR (rD : Reg) (rS : Reg) : EncodedLength.Statement (.stbR rD rS) :=
  encodedLength_short (fun _ => rfl) fun _ => wordM_top ..
theorem EncodedLength.stbA (rD : Reg) (imm : Word) : EncodedLength.Statement (.stbA rD imm) :=
  encodedLength_long (fun _ => rfl) fun _ => wordM_top ..
theorem EncodedLength.stbD (rD : Reg) (rS : Reg) (imm : Word) : EncodedLength.Statement (.stbD rD rS imm) :=
  encodedLength_long (fun _ => rfl) fun _ => wordM_top ..
theorem EncodedLength.ldU (rD : Reg) (rS : Reg) : EncodedLength.Statement (.ldU rD rS) :=
  encodedLength_short (fun _ => rfl) fun _ => wordM_top ..
theorem EncodedLength.ldbU (rD : Reg) (rS : Reg) : EncodedLength.Statement (.ldbU rD rS) :=
  encodedLength_short (fun _ => rfl) fun _ => wordM_top ..
theorem EncodedLength.stU (rD : Reg) (rS : Reg) : EncodedLength.Statement (.stU rD rS) :=
  encodedLength_short (fun _ => rfl) fun _ => wordM_top ..
theorem EncodedLength.stbU (rD : Reg) (rS : Reg) : EncodedLength.Statement (.stbU rD rS) :=
  encodedLength_short (fun _ => rfl) fun _ => wordM_top ..
theorem EncodedLength.cmpR (rD : Reg) (rS : Reg) : EncodedLength.Statement (.cmpR rD rS) :=
  encodedLength_short (fun _ => rfl) fun _ => wordRR_top ..
theorem EncodedLength.cmpI (rD : Reg) (imm : Word) : EncodedLength.Statement (.cmpI rD imm) :=
  encodedLength_long (fun _ => rfl) fun _ => wordRR_top ..
theorem EncodedLength.jmpR (cond : Cond) (rD : Reg) : EncodedLength.Statement (.jmpR cond rD) :=
  encodedLength_short (fun _ => rfl) fun _ => wordC_top ..
theorem EncodedLength.jmpI (cond : Cond) (imm : Word) : EncodedLength.Statement (.jmpI cond imm) :=
  encodedLength_long (fun _ => rfl) fun _ => wordC_top ..
theorem EncodedLength.callR (cond : Cond) (rD : Reg) : EncodedLength.Statement (.callR cond rD) :=
  encodedLength_short (fun _ => rfl) fun _ => wordC_top ..
theorem EncodedLength.callI (cond : Cond) (imm : Word) : EncodedLength.Statement (.callI cond imm) :=
  encodedLength_long (fun _ => rfl) fun _ => wordC_top ..
theorem EncodedLength.ret : EncodedLength.Statement .ret :=
  encodedLength_short (fun _ => rfl) fun _ => wordN_top ..
theorem EncodedLength.shlR (rD : Reg) (rS : Reg) : EncodedLength.Statement (.shlR rD rS) :=
  encodedLength_short (fun _ => rfl) fun _ => wordRR_top ..
theorem EncodedLength.shlI (rD : Reg) (imm : Word) : EncodedLength.Statement (.shlI rD imm) :=
  encodedLength_long (fun _ => rfl) fun _ => wordRR_top ..
theorem EncodedLength.shrR (rD : Reg) (rS : Reg) : EncodedLength.Statement (.shrR rD rS) :=
  encodedLength_short (fun _ => rfl) fun _ => wordRR_top ..
theorem EncodedLength.shrI (rD : Reg) (imm : Word) : EncodedLength.Statement (.shrI rD imm) :=
  encodedLength_long (fun _ => rfl) fun _ => wordRR_top ..
theorem EncodedLength.rolR (rD : Reg) (rS : Reg) : EncodedLength.Statement (.rolR rD rS) :=
  encodedLength_short (fun _ => rfl) fun _ => wordRR_top ..
theorem EncodedLength.rolI (rD : Reg) (imm : Word) : EncodedLength.Statement (.rolI rD imm) :=
  encodedLength_long (fun _ => rfl) fun _ => wordRR_top ..
theorem EncodedLength.rclR (rD : Reg) (rS : Reg) : EncodedLength.Statement (.rclR rD rS) :=
  encodedLength_short (fun _ => rfl) fun _ => wordRR_top ..
theorem EncodedLength.rclI (rD : Reg) (imm : Word) : EncodedLength.Statement (.rclI rD imm) :=
  encodedLength_long (fun _ => rfl) fun _ => wordRR_top ..
theorem EncodedLength.ldcp (rD : Reg) (cr : Nat) : EncodedLength.Statement (.ldcp rD cr) :=
  encodedLength_short (fun _ => rfl) fun _ => wordP_top ..
theorem EncodedLength.adcR (rD : Reg) (rS : Reg) : EncodedLength.Statement (.adcR rD rS) :=
  encodedLength_short (fun _ => rfl) fun _ => wordRR_top ..
theorem EncodedLength.adcI (rD : Reg) (imm : Word) : EncodedLength.Statement (.adcI rD imm) :=
  encodedLength_long (fun _ => rfl) fun _ => wordRR_top ..
theorem EncodedLength.sbbR (rD : Reg) (rS : Reg) : EncodedLength.Statement (.sbbR rD rS) :=
  encodedLength_short (fun _ => rfl) fun _ => wordRR_top ..
theorem EncodedLength.sbbI (rD : Reg) (imm : Word) : EncodedLength.Statement (.sbbI rD imm) :=
  encodedLength_long (fun _ => rfl) fun _ => wordRR_top ..
theorem EncodedLength.setCc (cond : Cond) (rD : Reg) : EncodedLength.Statement (.setCc cond rD) :=
  encodedLength_short (fun _ => rfl) fun _ => wordC_top ..
theorem EncodedLength.testR (rD : Reg) (rS : Reg) : EncodedLength.Statement (.testR rD rS) :=
  encodedLength_short (fun _ => rfl) fun _ => wordRR_top ..
theorem EncodedLength.testI (rD : Reg) (imm : Word) : EncodedLength.Statement (.testI rD imm) :=
  encodedLength_long (fun _ => rfl) fun _ => wordRR_top ..
theorem EncodedLength.pushLr : EncodedLength.Statement .pushLr :=
  encodedLength_short (fun _ => rfl) fun _ => wordN_top ..
theorem EncodedLength.sarR (rD : Reg) (rS : Reg) : EncodedLength.Statement (.sarR rD rS) :=
  encodedLength_short (fun _ => rfl) fun _ => wordRR_top ..
theorem EncodedLength.sarI (rD : Reg) (imm : Word) : EncodedLength.Statement (.sarI rD imm) :=
  encodedLength_long (fun _ => rfl) fun _ => wordRR_top ..

end Sys2Proof.Laws
end

