-- ==== Sys2Proof/Tests/Slice0.lean ====
section
/-! SUPPORT. Tests: the well-formedness smoke test, decoded words, one step at a time, and for every
obligation with hypotheses a state that meets them. Expected values are those of spec/, named at each. -/

namespace Sys2Proof.Tests

open Sys2Proof.Machine

/-! ### Helpers -/

/-- Words in RAM from address 0, the pc at 0, everything else as after reset but the parameters. -/
def place (c : Config) (ws : List Word) : State :=
  { State.reset with cfg := c }.load 0 (ws.flatMap (wordBytes c.byteOrder))

/-- The standard parameters. -/
def here (ws : List Word) : State := place Config.standard ws

/-- The word at an address, little endian. -/
def wordAt (s : State) (a : Nat) : Option Word :=
  match s.ramByte a, s.ramByte (a + 1) with
  | some b0, some b1 => some (b1 ++ b0)
  | _, _ => none

/-- Whether an operation answers a next state with property `p`. -/
def after (x : Result State) (p : State → Bool) : Bool :=
  match x with
  | .next t => p t
  | .fault _ => false
  | .refused _ => false

/-- Z, C, S, V as 95_test_vectors.md prints them. -/
def zcsv (t : State) : List Bool := [t.flags.z, t.flags.c, t.flags.s, t.flags.v]

/-- A state whose C is set. -/
def carrySet (s : State) : State := s.setFlags { z := false, c := true, s := false, v := false }

/-! ### WellFormed -/

/-- The manual's 32 special registers cannot all be named: cr16 has no encoding (R25, R82). -/
theorem test_cr16_is_ill_formed : (Instr.ldcp .r0 16).wellFormed = false := by decide
theorem test_cr15_is_well_formed : (Instr.ldcp .r0 15).wellFormed = true := by decide

/-! ### Decoding: words written out from the formats of 30_encoding.md and 95_test_vectors.md 2.1 -/

theorem test_decode_arithmetic :
    decodeTableWord 16 0x0111 = some (.addR .r1 .r2) ∧ decodeTableWord 32 0x12348101 = some (.addI .r1 0x1234) ∧
    decodeTableWord 16 0x0219 = some (.subR .r1 .r3) ∧ decodeTableWord 32 0x00088207 = some (.subI .r7 8) ∧
    decodeTableWord 16 0x1F19 = some (.adcR .r1 .r3) ∧ decodeTableWord 32 0x00009F01 = some (.adcI .r1 0) ∧
    decodeTableWord 16 0x2019 = some (.sbbR .r1 .r3) ∧ decodeTableWord 32 0x0003A002 = some (.sbbI .r2 3) ∧
    decodeTableWord 16 0x1511 = some (.cmpR .r1 .r2) ∧ decodeTableWord 32 0x00039501 = some (.cmpI .r1 3) ∧
    decodeTableWord 16 0x1205 = some (.negR .r5) := by decide
theorem test_decode_logic :
    decodeTableWord 16 0x0E1A = some (.andR .r2 .r3) ∧ decodeTableWord 32 0x00FF8E02 = some (.andI .r2 0x00FF) ∧
    decodeTableWord 16 0x0F1A = some (.orR .r2 .r3) ∧ decodeTableWord 32 0x01238F00 = some (.orI .r0 0x0123) ∧
    decodeTableWord 16 0x1009 = some (.xorR .r1 .r1) ∧ decodeTableWord 32 0xAAAA9004 = some (.xorI .r4 0xAAAA) ∧
    decodeTableWord 16 0x2211 = some (.testR .r1 .r2) ∧ decodeTableWord 32 0x8000A201 = some (.testI .r1 0x8000) ∧
    decodeTableWord 16 0x1105 = some (.notR .r5) := by decide
theorem test_decode_shifts :
    decodeTableWord 16 0x1911 = some (.shlR .r1 .r2) ∧ decodeTableWord 32 0x000E9900 = some (.shlI .r0 14) ∧
    decodeTableWord 16 0x1A11 = some (.shrR .r1 .r2) ∧ decodeTableWord 32 0x00089A06 = some (.shrI .r6 8) ∧
    decodeTableWord 16 0x240C = some (.sarR .r4 .r1) ∧ decodeTableWord 32 0x0003A404 = some (.sarI .r4 3) ∧
    decodeTableWord 16 0x1B08 = some (.rolR .r0 .r1) ∧ decodeTableWord 32 0x00049B05 = some (.rolI .r5 4) ∧
    decodeTableWord 16 0x1C08 = some (.rclR .r0 .r1) ∧ decodeTableWord 32 0x00019C00 = some (.rclI .r0 1) := by
  decide
theorem test_decode_moves :
    decodeTableWord 16 0x0500 = some (.movB0 0) ∧ decodeTableWord 16 0x0611 = some (.movB1 0x11) ∧
    decodeTableWord 16 0x0722 = some (.movB2 0x22) ∧ decodeTableWord 16 0x082A = some (.movB3 0x2A) ∧
    decodeTableWord 16 0x0944 = some (.movB4 0x44) ∧ decodeTableWord 16 0x0A55 = some (.movB5 0x55) ∧
    decodeTableWord 16 0x0B66 = some (.movB6 0x66) ∧ decodeTableWord 16 0x0CFF = some (.movB7 0xFF) ∧
    decodeTableWord 16 0x0D11 = some (.movR .r1 .r2) ∧ decodeTableWord 32 0x80008D07 = some (.movI .r7 0x8000) ∧
    decodeTableWord 16 0x1D03 = some (.ldcp .r3 0) ∧ decodeTableWord 16 0x1D7B = some (.ldcp .r3 15) ∧
    decodeTableWord 16 0x2170 = some (.setCc .l .r0) ∧ decodeTableWord 16 0x210E = some (.setCc .eq .r6) ∧
    decodeTableWord 16 0x214C = some (.setCc .cs .r4) := by decide
theorem test_decode_loads :
    decodeTableWord 16 0x1311 = some (.ldR .r1 .r2) ∧ decodeTableWord 32 0x10009301 = some (.ldA .r1 0x1000) ∧
    decodeTableWord 32 0x00049351 = some (.ldD .r1 .r2 4) ∧ decodeTableWord 16 0x1391 = some (.ldbR .r1 .r2) ∧
    decodeTableWord 32 0xFF039380 = some (.ldbA .r0 0xFF03) ∧
    decodeTableWord 32 0x000493D1 = some (.ldbD .r1 .r2 4) ∧ decodeTableWord 16 0x1351 = some (.ldU .r1 .r2) ∧
    decodeTableWord 16 0x13D1 = some (.ldbU .r1 .r2) := by decide
theorem test_decode_stores :
    decodeTableWord 16 0x1411 = some (.stR .r1 .r2) ∧ decodeTableWord 32 0xFF089400 = some (.stA .r0 0xFF08) ∧
    decodeTableWord 32 0x00049451 = some (.stD .r1 .r2 4) ∧ decodeTableWord 16 0x1491 = some (.stbR .r1 .r2) ∧
    decodeTableWord 32 0xFF009481 = some (.stbA .r1 0xFF00) ∧
    decodeTableWord 32 0x000294D0 = some (.stbD .r0 .r2 2) ∧ decodeTableWord 16 0x1451 = some (.stU .r1 .r2) ∧
    decodeTableWord 16 0x14D1 = some (.stbU .r1 .r2) := by decide
theorem test_decode_stack_and_control :
    decodeTableWord 16 0x033B = some (.pushR .r3 .r7) ∧ decodeTableWord 16 0x0333 = some (.pushR .r3 .r6) ∧
    decodeTableWord 32 0x12348338 = some (.pushI .r7 0x1234) ∧ decodeTableWord 16 0x043A = some (.pop .r2 .r7) ∧
    decodeTableWord 16 0x0432 = some (.pop .r2 .r6) ∧ decodeTableWord 16 0x2300 = some .pushLr ∧
    decodeTableWord 16 0x160B = some (.jmpR .eq .r3) ∧ decodeTableWord 32 0x00049610 = some (.jmpI .ne 4) ∧
    decodeTableWord 16 0x177A = some (.callR .al .r2) ∧
    decodeTableWord 32 0x02009710 = some (.callI .ne 0x0200) ∧ decodeTableWord 16 0x1800 = some .ret := by decide

/-- 95_test_vectors.md 2.1: PUSH and POP under STACK_RS_FIELD = complemented. -/
theorem test_decode_complemented_stack_field :
    decode { Config.standard with stackRsField := .complemented } [0x03, 0x03] = .ok (.pushR .r3 .r7) [] ∧
    decode { Config.standard with stackRsField := .complemented } [0x0A, 0x04] = .ok (.pop .r2 .r6) [] ∧
    decode { Config.standard with stackRsField := .complemented } [0x00, 0x83, 0x34, 0x12] =
      .ok (.pushI .r7 0x1234) [] := by decide

/-- The instruction at 0 in a machine that stores words most significant byte first (R62, R73). -/
theorem test_decode_big_endian :
    decode { Config.standard with byteOrder := .big } [0x81, 0x01, 0x12, 0x34] = .ok (.addI .r1 0x1234) [] := by
  decide

/-- 95_test_vectors.md 2.2: words that are not instructions. -/
theorem test_reserved_words :
    [0x0000, 0xFFFF, 0x4111, 0x1E00, 0x2500, 0x0141, 0x1108, 0x9105, 0x8439, 0xA10E, 0x1801, 0x2301, 0x9800,
      0x9D03, 0x1680, 0x8500, 0x8109, 0x8339, 0x9611, 0x9309].all
      (fun w => decodeTableWord 32 w == none) = true := by decide

/-! ### One step (values of 95_test_vectors.md and of the examples in each rule) -/

theorem test_add_carry : after (step ((here [0x8101, 1]).setReg .r1 0xFFFF)) (fun t =>
    t.reg .r1 == 0 && zcsv t == [true, true, false, false] && t.pc == 4) = true := by decide
theorem test_add_overflow : after (step (((here [0x0111]).setReg .r1 0x8000).setReg .r2 0x8000)) (fun t =>
    t.reg .r1 == 0 && t.reg .r2 == 0x8000 && zcsv t == [true, true, false, true]) = true := by decide
theorem test_sub_borrow : after (step ((here [0x8201, 5]).setReg .r1 3)) (fun t =>
    t.reg .r1 == 0xFFFE && zcsv t == [false, true, true, false]) = true := by decide
theorem test_sub_not_borrow :
    after (step ((place { Config.standard with subCarry := .notBorrow } [0x8201, 5]).setReg .r1 3)) (fun t =>
      t.reg .r1 == 0xFFFE && zcsv t == [false, false, true, false]) = true := by decide
theorem test_adc : after (step (carrySet ((here [0x9F01, 0]).setReg .r1 0x7FFF))) (fun t =>
    t.reg .r1 == 0x8000 && zcsv t == [false, false, true, true]) = true := by decide
theorem test_sbb : after (step (carrySet ((here [0xA001, 0xFFFF]).setReg .r1 0))) (fun t =>
    t.reg .r1 == 0 && zcsv t == [true, true, false, false]) = true := by decide
theorem test_neg : after (step ((here [0x1205]).setReg .r5 0x8000)) (fun t =>
    t.reg .r5 == 0x8000 && zcsv t == [false, true, true, true]) = true := by decide
theorem test_cmp : after (step ((here [0x9501, 3]).setReg .r1 3)) (fun t =>
    t.reg .r1 == 3 && zcsv t == [true, false, false, false]) = true := by decide
theorem test_v_rule_of_the_flags_table :
    after (step ((place { Config.standard with vRule := .carry14AndNotCarry15 } [0x8101, 0x8000]).setReg .r1 0x8000))
      (fun t => t.reg .r1 == 0 && zcsv t == [true, true, false, false]) = true := by decide
theorem test_and : after (step ((here [0x8E02, 0x00FF]).setReg .r2 0xF0F0)) (fun t =>
    t.reg .r2 == 0x00F0 && zcsv t == [false, false, false, false]) = true := by decide
theorem test_or : after (step (((here [0x0F1A]).setReg .r2 0x8000).setReg .r3 1)) (fun t =>
    t.reg .r2 == 0x8001 && zcsv t == [false, false, true, false]) = true := by decide
theorem test_xor_clears : after (step (carrySet ((here [0x1009]).setReg .r1 0x1234))) (fun t =>
    t.reg .r1 == 0 && zcsv t == [true, false, false, false]) = true := by decide
theorem test_not : after (step ((here [0x1105]).setReg .r5 0x00FF)) (fun t =>
    t.reg .r5 == 0xFF00 && zcsv t == [false, false, true, false]) = true := by decide
theorem test_test : after (step ((here [0xA201, 0x8000]).setReg .r1 0x8001)) (fun t =>
    t.reg .r1 == 0x8001 && zcsv t == [false, false, true, false]) = true := by decide
theorem test_shl : after (step ((here [0x9900, 14]).setReg .r0 2)) (fun t =>
    t.reg .r0 == 0x8000 && zcsv t == [false, false, true, false]) = true := by decide
theorem test_shr : after (step ((here [0x9A06, 8]).setReg .r6 0xAB80)) (fun t =>
    t.reg .r6 == 0x00AB && zcsv t == [false, true, false, false]) = true := by decide
theorem test_sar : after (step ((here [0xA404, 1]).setReg .r4 0xFFF9)) (fun t =>
    t.reg .r4 == 0xFFFC && zcsv t == [false, true, true, false]) = true := by decide
theorem test_rol : after (step (carrySet (((here [0x1B08]).setReg .r0 0x1234).setReg .r1 20))) (fun t =>
    t.reg .r0 == 0x2341 && zcsv t == [false, false, false, false]) = true := by decide
theorem test_rcl : after (step ((here [0x9C00, 1]).setReg .r0 0x8000)) (fun t =>
    t.reg .r0 == 0 && zcsv t == [true, true, false, false]) = true := by decide
theorem test_rcl_takes_carry_in : after (step (carrySet ((here [0x9C00, 1]).setReg .r0 0x4000))) (fun t =>
    t.reg .r0 == 0x8001 && zcsv t == [false, false, true, false]) = true := by decide
theorem test_mov_byte_extends : after (step (here [0x0CFF])) (fun t => t.reg .r7 == 0x00FF && t.pc == 2) = true ∧
    after (step (place { Config.standard with movbExtend := .sign } [0x0CFF])) (fun t =>
      t.reg .r7 == 0xFFFF) = true := by decide
theorem test_mov : after (step (here [0x8D07, 0x8000])) (fun t => t.reg .r7 == 0x8000 && t.pc == 4) = true := by
  decide
theorem test_ldcp : after (step ((here [0x1D03]).setFlags { z := true, c := true, s := false, v := false }))
    (fun t => t.reg .r3 == 3 && zcsv t == [true, true, false, false]) = true := by decide
theorem test_set : after (step ((here [0x210E]).setFlags { z := true, c := false, s := false, v := false }))
    (fun t => t.reg .r6 == 1) = true ∧
    after (step ((here [0x2106]).setReg .r6 7)) (fun t => t.reg .r6 == 0) = true := by decide
theorem test_ld : after (step ((here [0x9351, 0xFFFE, 0x1111]).setReg .r2 6)) (fun t =>
    t.reg .r1 == 0x1111 && t.reg .r2 == 6 && t.pc == 4) = true := by decide
theorem test_ldb : after (step ((here [0x1391, 0xAABB]).setReg .r2 2)) (fun t => t.reg .r1 == 0xBB) = true ∧
    after (step ((place { Config.standard with byteOrder := .big } [0x1391, 0xAABB]).setReg .r2 2)) (fun t =>
      t.reg .r1 == 0xAA) = true := by decide
theorem test_st : after (step (((here [0x1411]).setReg .r2 0x0108).setReg .r1 0x5666)) (fun t =>
    wordAt t 0x0108 == some 0x5666 && t.ramByte 0x010A == none) = true := by decide
theorem test_stb : after (step (((here [0x94D0, 3]).setReg .r2 0x0100).setReg .r0 0x12A5)) (fun t =>
    t.ramByte 0x0103 == some 0xA5 && t.ramByte 0x0102 == none) = true := by decide
theorem test_push : after (step (((here [0x033B]).setReg .r7 0x8000).setReg .r3 0x1234)) (fun t =>
    t.reg .r7 == 0x7FFE && wordAt t 0x7FFE == some 0x1234) = true := by decide
theorem test_push_of_the_pointer : after (step ((here [0x033F]).setReg .r7 0x8000)) (fun t =>
    t.reg .r7 == 0x7FFE && wordAt t 0x7FFE == some 0x7FFE) = true := by decide
theorem test_pop : after (step ((here [0x043A, 0x1234]).setReg .r7 2)) (fun t =>
    t.reg .r2 == 0x1234 && t.reg .r7 == 4) = true := by decide
theorem test_pop_of_the_pointer : after (step ((here [0x043F, 0x1234]).setReg .r7 2)) (fun t =>
    t.reg .r7 == 0x1236) = true := by decide
theorem test_pushLr : after (step (((here [0x2300]).setReg .r7 0x8000).setLr 0x000A)) (fun t =>
    t.reg .r7 == 0x7FFE && wordAt t 0x7FFE == some 0x000A && t.lr == 0x000A) = true := by decide
theorem test_jmp : after (step (here [0x9610, 0x0040])) (fun t => t.pc == 0x0040) = true ∧
    after (step ((here [0x9610, 0x0041]).setFlags { z := true, c := false, s := false, v := false }))
      (fun t => t.pc == 4) = true := by decide
theorem test_call : after (step (here [0x9778, 0x000E])) (fun t => t.pc == 0x000E && t.lr == 4) = true ∧
    after (step (here [0x9708, 0x000E])) (fun t => t.pc == 4 && t.lr == 0) = true := by decide
theorem test_ret : after (step ((here [0x1800]).setLr 0x0018)) (fun t => t.pc == 0x0018 && t.lr == 0x18) = true := by
  decide

/-- 95_test_vectors.md 1.1: voice 2 gets the divisor 0x0123. -/
theorem test_sound : after (step ((here [0x9400, 0xFF08]).setReg .r0 0x8123)) (fun t =>
    t.periph.sound.div2 == 0x0123 && t.periph.sound.div0 == 0 && t.output == [.sound 0x8123]) = true := by decide

/-- A byte received into the empty FIFO is what LD.b reads (R215, R218). -/
theorem test_uart_receive_then_read :
    after (step (agentMove (here [0x9380, 0xFF02]) (.uartReceive 0x41))) (fun t =>
      t.reg .r0 == 0x41 && t.periph.uartRx == []) = true := by decide

/-- The DMA registers set for two bytes at 0x4000, before the store to DMA_CONTROL that starts the
transfer (60_exceptions.md R240). -/
def dmaReady (ty : Word) : State :=
  let s := (here [0x9400, 0xFF0A]).setReg .r0 ty
  s.setPeriph { s.periph with dmaLocal := 0x4000, dmaRemote := 0x12, dmaCount := 2 }

theorem test_dma_starts : after (step (dmaReady 1)) (fun t =>
    (t.periph.dmaTransfer.map fun x => (x.dir, x.localStart, x.count, x.copied)) ==
      some (.toLocal, 0x4000, 2, [])) = true := by decide

/-! ### Witnesses: for every obligation with hypotheses, states that meet them, clause by clause -/

/-- The standard parameters but for `f`, with words at 0. -/
def under (f : Config → Config) (ws : List Word) : State := place (f Config.standard) ws

/-- A machine with only 256 bytes of RAM fitted. -/
def small (ws : List Word) : State := under (fun c => { c with ramSize := 0x0100 }) ws

/-- IFETCH_COHERENT = refuse_self_modifying. -/
def refusing (ws : List Word) : State := under (fun c => { c with ifetchCoherent := .refuseSelfModifying }) ws

theorem witness_DecodeInvertsEncode : (Instr.ldcp .r7 15).wellFormed = true ∧ Instr.ret.wellFormed = true := by decide

theorem witness_EncodeInvertsDecode :
    decode Config.standard [0x01, 0x81, 0x34, 0x12, 0x00] = .ok (.addI .r1 0x1234) [0x00] := by decide

theorem witness_UndocumentedWordsAreRefused :
    fetchWord (here [0x4111]) 0 = .next 0x4111 ∧ fetchWord (here [0xFFFF]) 0 = .next 0xFFFF ∧
    fetchWord (here [0x8000]) 0 = .next 0x8000 ∧ fetchWord (here [0x1EFF]) 0 = .next 0x1EFF ∧
    fetchWord (here [0x2500]) 0 = .next 0x2500 ∧ fetchWord (here [0xBFFF]) 0 = .next 0xBFFF := ⟨rfl, rfl, rfl, rfl, rfl, rfl⟩

/-- One word for each row of 30_encoding.md R87. -/
theorem witness_ReservedFieldsAreRefused (w : Word)
    (h : w ∈ [(0x0141 : Word), 0x1680, 0x1801, 0x1108, 0x9105, 0x8500, 0x8109, 0x8339, 0x9309]) :
    fetchWord (here [w]) (here [w]).pc = .next w ∧ ReservedByR87 w.toNat := by
  simp only [List.mem_cons, List.not_mem_nil, or_false] at h
  rcases h with rfl | rfl | rfl | rfl | rfl | rfl | rfl | rfl | rfl <;>
    exact ⟨rfl, by unfold ReservedByR87; decide⟩

theorem witness_StepRunsTheDecodedInstruction :
    Config.standard.Wf ∧ (here [0x8101, 0x1234]).pc.toNat % 2 = 0 ∧
    decode Config.standard (codeBytes (here [0x8101, 0x1234]) 0 4) = .ok (.addI .r1 0x1234) [] ∧
    (refusing [0x0111]).cfg.Wf ∧
    decode (refusing [0x0111]).cfg (codeBytes (refusing [0x0111]) 0 4) = .ok (.addR .r1 .r2) [] ∧
    ∀ k, k < 2 → (0 + k) ∉ (refusing [0x0111]).selfWritten := by decide

theorem witness_StoredWordsAreFetched :
    EffectiveAddress (here []) (.abs 0xFEFE) 0xFEFE 4 ∧ WordInRam (here []) 0xFEFE ∧
    (∃ t, exec (.stA .r1 0xFEFE) (here []) = .next t) ∧
    EffectiveAddress (refusing []) (.disp .r1 0xFEFE) 0xFEFE 4 ∧ WordInRam (refusing []) 0xFEFE ∧
    (∃ t, exec (.stD .r1 .r1 0xFEFE) (refusing []) = .next t) ∧
    (0xFEFE : Word).toNat = ((((refusing []).setReg .r7 0xFF00).reg .r7).toNat + 65534) % 65536 ∧
    WordInRam ((refusing []).setReg .r7 0xFF00) 0xFEFE ∧
    (∃ t, exec (.pushR .r7 .r7) ((refusing []).setReg .r7 0xFF00) = .next t) ∧
    (∃ t, exec .pushLr ((here []).setReg .r7 0xFF00) = .next t) ∧ HoldsWord (here [0x0111]) 0 0x0111 :=
  ⟨.abs _, ⟨rfl, by decide, by decide⟩, ⟨_, rfl⟩, .disp .r1 _ _ (by decide), ⟨rfl, by decide, by decide⟩, ⟨_, rfl⟩,
    by decide, ⟨rfl, by decide, by decide⟩, ⟨_, rfl⟩, ⟨_, rfl⟩, ⟨rfl, rfl⟩⟩

theorem witness_SelfJumpMakesNoProgress :
    atSelfJump (here [0x9678, 0]) = true ∧ atSelfJump ((here [0x1678]).setReg .r0 0) = true := by decide

/-- A state after an instruction, with a full FIFO and a transfer under way, meets the invariant and steps. -/
def busy : State :=
  let s := (here [0x0111]).setReg .r1 5
  s.setPeriph { s.periph with
    uartRx := [1, 2, 3, 4, 5, 6, 7, 8]
    dmaTransfer := some { dir := .toLocal, localStart := 0xFEFE, extStart := 3, count := 2, copied := [1] } }

theorem witness_EveryStepKeepsTheInvariant : StateInv busy ∧ ∃ t, step busy = .next t := by
  refine ⟨⟨by decide, by decide, by decide, by decide, by decide, ⟨by decide, ?_⟩, ?_, by decide, by decide, ?_⟩, ⟨_, rfl⟩⟩
  · intro c h; cases h
  · intro c h; cases h
  · intro t h; cases h
    exact ⟨by decide, by decide, by decide, by decide, Nat.lt_of_lt_of_le (by decide) le_two_pow_extWidth,
      by decide, by decide⟩

/-- Another admitted setting of the parameters: a program entered at the highest even address. -/
theorem witness_ResetMeetsTheInvariant :
    { Config.standard with resetPc := 0xFFFE, ramSize := 0x0100 }.Wf := by decide

theorem witness_OnlyFlagWritersChangeFlags :
    writesFlags (.movI .r1 5) = false ∧ ∃ t, exec (.movI .r1 5) (here []) = .next t := ⟨rfl, _, rfl⟩

theorem witness_InstructionsChangeOnlyWhatTheyName :
    (∃ t, exec (.pushLr) ((here []).setReg .r7 0x8000) = .next t) ∧ isCall .pushLr = false ∧
    storedBytes ((here []).setReg .r7 0x8000) .pushLr = some (0x7FFE, 2) ∧ Reg.r1 ∉ writtenRegs .pushLr :=
  ⟨⟨_, rfl⟩, rfl, rfl, by decide⟩

theorem witness_MultiWordArithmetic : Reg.r1 ≠ .r0 ∧ Reg.r3 ≠ .r0 ∧ (here []).cfg.vRule = .signedOverflow := by decide

theorem witness_ConditionsAfterLogic (i : Instr)
    (h : i ∈ [twoOp .and .r1 (.imm 3), twoOp .or .r1 (.imm 3), twoOp .xor .r1 (.imm 3), twoOp .test .r1 (.imm 3), .notR .r1]) :
    ∃ t, exec i (here []) = .next t := by
  simp only [List.mem_cons, List.not_mem_nil, or_false] at h
  rcases h with rfl | rfl | rfl | rfl | rfl <;> exact ⟨_, rfl⟩

/-- Amounts 0 and 15 under the default SHIFT_CARRY: ShlAndShrByLessThanSixteen, SarDividesRoundingDown,
RclRotatesSeventeenBits. -/
theorem witness_shift_amounts :
    ((Operand.imm 0).value (here [])).toNat < 16 ∧ ((Operand.imm 15).value (here [])).toNat < 16 ∧
    ((Operand.reg .r1).value (here [])).toNat < 16 ∧ (here []).cfg.shiftCarry = .lastBitOut := by decide

/-- Amounts 16 and 65535 under each setting of SHIFT_AMOUNT_GE16: ShiftBySixteenOrMoreCompletes,
ShiftBySixteenOrMoreFullOrLow4. -/
theorem witness_shift_amounts_from_sixteen :
    16 ≤ ((Operand.imm 16).value (here [])).toNat ∧ 16 ≤ ((Operand.imm 0xFFFF).value (here [])).toNat ∧
    TwoOp.rcl ∈ [TwoOp.shl, .shr, .sar, .rcl] ∧
    (here []).cfg.shiftAmountGe16 = .unspecified ∧ (here []).cfg.shiftCarry = .lastBitOut ∧
    (under (fun c => { c with shiftAmountGe16 := .full }) []).cfg.shiftAmountGe16 = .full ∧
    (under (fun c => { c with shiftAmountGe16 := .full }) []).cfg.shiftCarry = .lastBitOut ∧
    (under (fun c => { c with shiftAmountGe16 := .full, shiftCarry := .other }) []).cfg.shiftAmountGe16 = .full ∧
    (under (fun c => { c with shiftAmountGe16 := .low4 }) []).cfg.shiftAmountGe16 = .low4 ∧
    (under (fun c => { c with shiftAmountGe16 := .low4 }) []).cfg.shiftCarry = .lastBitOut := by decide

theorem witness_MultiWordShiftLeft : Reg.r1 ≠ .r0 ∧ (here []).cfg.shiftCarry = .lastBitOut := by decide

/-- MovCopiesItsOperand, MovEncodingsAgree (the highest byte), LdcpReadsTheFlags (cr1 and cr15). -/
theorem witness_move_settings :
    (here []).cfg.movbExtend = .zero ∧ (under (fun c => { c with movbExtend := .sign }) []).cfg.movbExtend = .sign ∧
    (255 : Word).toNat < 256 ∧ (here []).cfg.unimplCrRead = .anyValue ∧
    (under (fun c => { c with unimplCrRead := .refuse }) []).cfg.unimplCrRead = .refuse ∧ 1 ≤ 1 ∧ 15 ≤ 15 := by decide

/-- A condition that holds and one that does not, and every setting: SetMaterialisesTheCondition,
ConditionsAfterCmp, NegSubtractsFromZero, JmpGoesToItsTarget, CallLinksAndJumps, CallThenRetReturns. -/
theorem witness_conditions :
    CondExpr (here []).cfg (here []).flags .al ∧ ¬ CondExpr (here []).cfg (here []).flags .nv ∧
    CondExpr (here []).cfg (here []).flags .ne ∧ ¬ CondExpr (here []).cfg (here []).flags .eq ∧
    (here []).cfg.subCarry = .borrow ∧ (here []).cfg.lsExpr = .conj ∧ (here []).cfg.vRule = .signedOverflow ∧
    (under (fun c => { c with subCarry := .notBorrow, lsExpr := .disj }) []).cfg.subCarry = .notBorrow ∧
    (under (fun c => { c with subCarry := .notBorrow, lsExpr := .disj }) []).cfg.lsExpr = .disj :=
  ⟨trivial, id, rfl, Bool.false_ne_true, rfl, rfl, rfl, rfl, rfl⟩

/-- The word 0x1234 in the last two bytes of RAM, r1 pointing at them, r2 two below the top of memory. -/
def top : State :=
  (((here [0x1234]).load 0xFEFE [0x34, 0x12]).setReg .r1 0xFEFE).setReg .r2 0xFFFE

theorem witness_LdReadsAWordOfRam :
    WordInRam top 0xFEFE ∧ HoldsWord top 0xFEFE 0x1234 ∧ WordInRam top 0 ∧ HoldsWord top 0 0x1234 ∧
    EffectiveAddress top (.reg .r1) 0xFEFE 2 ∧ EffectiveAddress top (.abs 0xFEFE) 0xFEFE 4 ∧
    EffectiveAddress top (.disp .r2 0xFF00) 0xFEFE 4 ∧ EffectiveAddress top (.disp .r2 2) 0 4 :=
  ⟨⟨rfl, by decide, by decide⟩, ⟨rfl, rfl⟩, ⟨rfl, by decide, by decide⟩, ⟨rfl, rfl⟩,
    .reg .r1, .abs _, .disp .r2 _ _ (by decide), .disp .r2 _ _ (by decide)⟩

/-- The absolute forms run (44_load_store.md R150 to R153, R155); only the forms of R154 stop. -/
theorem test_absolute_forms_run :
    after (exec (.ldA .r3 0xFEFE) top) (fun t => t.reg .r3 == 0x1234 && t.pc == 4) = true ∧
    after (exec (.ldbA .r3 0xFEFF) top) (fun t => t.reg .r3 == 0x12 && t.pc == 4) = true ∧
    after (exec (.stA .r1 0x0100) top) (fun t => wordAt t 0x0100 == some 0xFEFE && t.pc == 4) = true ∧
    after (exec (.stbA .r1 0x0101) top) (fun t => t.ramByte 0x0101 == some 0xFE && t.pc == 4) = true := by decide

theorem witness_LdbReadsAByteOfRam :
    InRam top 0xFEFF ∧ top.ramByte 0xFEFF = some 0x12 ∧ EffectiveAddress top (.disp .r1 1) 0xFEFF 4 ∧
    top.cfg.ldbExtend = .zero ∧ (under (fun c => { c with ldbExtend := .sign }) []).cfg.ldbExtend = .sign ∧
    InRam (under (fun c => { c with ldbExtend := .sign }) [0x80]) 0 ∧
    (under (fun c => { c with ldbExtend := .sign }) [0x80]).ramByte 0 = some 0x80 :=
  ⟨⟨by decide, by decide⟩, rfl, .disp .r1 _ _ (by decide), rfl, rfl, ⟨by decide, by decide⟩, rfl⟩

/-- For ST and ST.b: the same addresses, in RAM. -/
theorem witness_StWritesAWordOfRam : EffectiveAddress top (.reg .r1) 0xFEFE 2 ∧ WordInRam top 0xFEFE :=
  ⟨.reg .r1, rfl, by decide, by decide⟩
theorem witness_StbWritesAByteOfRam : EffectiveAddress top (.abs 0xFEFF) 0xFEFF 4 ∧ InRam top 0xFEFF :=
  ⟨.abs _, by decide, by decide⟩

/-- Both ends of each of the four ranges of 44_load_store.md R154. -/
theorem witness_DisplacementWithoutImmediateFaults :
    Instr.ldU .r1 .r2 ∈ [Instr.ldU .r1 .r2, .ldbU .r1 .r2, .stU .r1 .r2, .stbU .r1 .r2] ∧
    fetchWord (here [0x1340]) 0 = .next 0x1340 ∧ fetchWord (here [0x137F]) 0 = .next 0x137F ∧
    fetchWord (here [0x13C0]) 0 = .next 0x13C0 ∧ fetchWord (here [0x13FF]) 0 = .next 0x13FF ∧
    fetchWord (here [0x1440]) 0 = .next 0x1440 ∧ fetchWord (here [0x147F]) 0 = .next 0x147F ∧
    fetchWord (here [0x14C0]) 0 = .next 0x14C0 ∧ fetchWord (here [0x14FF]) 0 = .next 0x14FF :=
  ⟨by decide, rfl, rfl, rfl, rfl, rfl, rfl, rfl, rfl⟩

theorem witness_MisalignedWordAccessFaults :
    wordAddress (here []) (.ldA .r1 0xFFFF) = some 0xFFFF ∧ (0xFFFF : Word).toNat % 2 = 1 ∧
    wordAddress ((here []).setReg .r7 1) .pushLr = some 0xFFFF ∧ ((here []).setPc 1).pc.toNat % 2 = 1 ∧
    byteAddress (here []) (.ldbA .r1 1) = some 1 := by decide

/-- RAM of 256 bytes: its first missing word and the last; both ends of the other ranges. -/
theorem witness_AccessesOutsideMemoryFault :
    (∀ w, wordAddress (small []) (.stA .r1 w) = some w) ∧ (∀ w, byteAddress (small []) (.ldbA .r1 w) = some w) ∧
    (small []).cfg.ramSize ≤ (0x0100 : Word).toNat ∧ (0xFEFE : Word).toNat % 2 = 0 ∧ (0xFEFF : Word).toNat < 0xFF00 ∧
    (0xFF12 : Word).toNat % 2 = 0 ∧ 0xFF12 ≤ (0xFFFE : Word).toNat ∧ 0xFF04 ≤ (0xFF04 : Word).toNat ∧
    (0xFF11 : Word).toNat ≤ 0xFF11 ∧ 0xFF12 ≤ (0xFFFF : Word).toNat ∧
    ((small []).setPc 0x0100).pc.toNat = 0x0100 ∧ ((small []).setPc 0xFF00).pc.toNat = 0xFF00 :=
  ⟨fun _ => rfl, fun _ => rfl, by decide, rfl, by decide, rfl, by decide, by decide, by decide, by decide, rfl, rfl⟩

/-- A two word instruction in the last word of RAM: before the hole, and before the peripheral region. -/
theorem witness_immediate_fetch_outside_memory :
    let s := ((small []).load 0x00FE [0x01, 0x81]).setPc 0x00FE
    let u := ((here []).load 0xFEFE [0x01, 0x81]).setPc 0xFEFE
    fetchWord s s.pc = .next 0x8101 ∧ fetchWord u u.pc = .next 0x8101 ∧
    (∃ k, decodeHead s.cfg 0x8101 = .long k) ∧ (∃ k, decodeHead u.cfg 0x8101 = .long k) ∧
    s.cfg.ramSize ≤ s.pc.toNat + 2 ∧ s.pc.toNat + 2 < 0xFF00 ∧ 0xFF00 ≤ u.pc.toNat + 2 :=
  ⟨rfl, rfl, ⟨_, rfl⟩, ⟨_, rfl⟩, by decide, by decide, by decide⟩

theorem witness_LoadsOfUnwrittenRamFault :
    isLoad (.ldA .r1 0xFEFC) = true ∧ wordAddress top (.ldA .r1 0xFEFC) = some 0xFEFC ∧ WordInRam top 0xFEFC ∧
    top.ramByte 0xFEFC = none ∧ isLoad (.ldbA .r1 0xFEFD) = true ∧
    byteAddress top (.ldbA .r1 0xFEFD) = some 0xFEFD ∧ InRam top 0xFEFD ∧ top.ramByte 0xFEFD = none :=
  ⟨rfl, rfl, ⟨rfl, by decide, by decide⟩, rfl, rfl, rfl, ⟨by decide, by decide⟩, rfl⟩

/-- Pointers 2 and 0xFF00: the lowest and the highest word of RAM. -/
theorem witness_PushStoresBelowThePointer :
    (0 : Word).toNat = ((((here []).setReg .r6 2).reg .r6).toNat + 65534) % 65536 ∧
    (0xFEFE : Word).toNat = ((((here []).setReg .r6 0xFF00).reg .r6).toNat + 65534) % 65536 ∧
    WordInRam (here []) 0 ∧ WordInRam (here []) 0xFEFE ∧ Reg.r3 ≠ .r6 :=
  ⟨by decide, by decide, ⟨rfl, by decide, by decide⟩, ⟨rfl, by decide, by decide⟩, by decide⟩

theorem witness_PopLoadsAtThePointer :
    WordInRam top (top.reg .r1) ∧ HoldsWord top (top.reg .r1) 0x1234 ∧ Reg.r3 ≠ .r1 :=
  ⟨⟨rfl, by decide, by decide⟩, ⟨rfl, rfl⟩, by decide⟩

theorem witness_PushLrStoresTheLinkRegister :
    (0xFEFE : Word).toNat = ((((here []).setReg .r7 0xFF00).reg .r7).toNat + 65534) % 65536 ∧
    WordInRam ((here []).setReg .r7 0xFF00) 0xFEFE := ⟨by decide, rfl, by decide, by decide⟩

theorem witness_PushThenPopRestores :
    Reg.r1 ≠ .r7 ∧ Reg.r2 ≠ .r7 ∧ Reg.r1 ≠ .r2 ∧
    WordInRam ((here []).setReg .r7 0x8000) (((here []).setReg .r7 0x8000).reg .r7 - 2) :=
  ⟨by decide, by decide, by decide, rfl, by decide, by decide⟩

theorem witness_StackReachesWordRegisters :
    ((here []).setReg .r7 0xFF06).reg .r7 = 0xFF06 ∧ ((here []).setReg .r7 0xFF04).reg .r7 = 0xFF04 ∧ Reg.r1 ≠ .r7 := by
  decide

/-- Even and odd targets and link registers: JmpGoesToItsTarget, CallLinksAndJumps,
RetGoesToTheLinkRegister, CallThenRetReturns. -/
theorem witness_control_targets :
    ((Operand.imm 0x0040).value (here [])).toNat % 2 = 0 ∧ ((Operand.imm 0xFFFF).value (here [])).toNat % 2 = 1 ∧
    ((Operand.reg .r1).value top).toNat % 2 = 0 ∧ (here []).lr.toNat % 2 = 0 ∧
    ((here []).setLr 0xFFFF).lr.toNat % 2 = 1 ∧ (here []).pc.toNat % 2 = 0 := by decide

/-- Every peripheral address, each of the three address forms: the obligations on peripheral registers. -/
theorem witness_peripheral_addresses :
    EffectiveAddress (here []) (.abs 0xFF00) 0xFF00 4 ∧ EffectiveAddress (here []) (.disp .r0 0xFF02) 0xFF02 4 ∧
    EffectiveAddress ((here []).setReg .r1 0xFF03) (.reg .r1) 0xFF03 2 ∧
    EffectiveAddress (here []) (.abs 0xFF04) 0xFF04 4 ∧ EffectiveAddress (here []) (.abs 0xFF06) 0xFF06 4 ∧
    EffectiveAddress (here []) (.abs 0xFF08) 0xFF08 4 ∧ EffectiveAddress (here []) (.abs 0xFF0A) 0xFF0A 4 ∧
    EffectiveAddress (here []) (.abs 0xFF0C) 0xFF0C 4 ∧ EffectiveAddress (here []) (.abs 0xFF0E) 0xFF0E 4 ∧
    EffectiveAddress (here []) (.abs 0xFF10) 0xFF10 4 :=
  ⟨.abs _, .disp .r0 _ _ (by decide), .reg .r1, .abs _, .abs _, .abs _, .abs _, .abs _, .abs _, .abs _⟩

/-- Tx of seven and eight entries, Rx empty, not empty and of eight: UartDataUsesTheFifos,
UartStatusReportsTheFifos, UartKeepsItsStreams. -/
theorem witness_fifos :
    (List.replicate 7 (0 : Byte)).length < 8 ∧ 8 ≤ (List.replicate 8 (0 : Byte)).length ∧
    (here []).periph.uartTx.length < 8 ∧ (here []).periph.uartRx = [] ∧ 8 ≤ busy.periph.uartRx.length ∧
    busy.periph.uartRx = 1 :: [2, 3, 4, 5, 6, 7, 8] ∧ (here []).periph.uartOverrun = false := by decide

/-- Idle and busy controllers, legal and illegal transfers: DmaControlStartsATransfer,
DmaRegistersHoldTheParameters, DmaControlReportsATransfer. -/
theorem witness_DmaControlStartsATransfer :
    (dmaReady 1).periph.dmaTransfer = none ∧ (dmaReady 0).periph.dmaTransfer = none ∧
    (DmaDir.toExternal, ((dmaReady 0).reg .r0).toNat % 8) ∈ [(DmaDir.toExternal, 0), (.toLocal, 1)] ∧
    (DmaDir.toLocal, ((dmaReady 1).reg .r0).toNat % 8) ∈ [(DmaDir.toExternal, 0), (.toLocal, 1)] ∧
    (dmaReady 1).periph.dmaLocal.toNat % 2 = 0 ∧ 0 < (dmaReady 1).periph.dmaCount.toNat ∧
    (dmaReady 1).periph.dmaCount.toNat % 2 = 0 ∧
    (dmaReady 1).periph.dmaLocal.toNat + (dmaReady 1).periph.dmaCount.toNat ≤ 0xFF00 ∧
    (dmaReady 1).periph.dmaLocal.toNat + (dmaReady 1).periph.dmaCount.toNat ≤ (dmaReady 1).cfg.ramSize ∧
    (here []).periph.dmaCount.toNat = 0 ∧ 2 ≤ ((dmaReady 2).reg .r0).toNat % 8 ∧
    (small []).cfg.ramSize < (dmaReady 1).periph.dmaLocal.toNat + (dmaReady 1).periph.dmaCount.toNat ∧
    busy.periph.dmaTransfer ≠ none ∧ (here []).cfg.dmaBusyEncoding = .nonzeroWhenBusy := by decide

/-- LD.b of a byte register extends by LDB_EXTEND (R151): an LED latch of 0x80. -/
theorem test_ldb_of_a_byte_register :
    after (step (let s := under (fun c => { c with ldbExtend := .sign }) [0x9380, 0xFF00]
      s.setPeriph { s.periph with led := 0x80 })) (fun t => t.reg .r0 == 0xFF80) = true := by decide

/-- A machine whose RESET_PC is 0x0010 fetches its first instruction there (R260). -/
theorem test_reset_pc : after (step ((State.launch { Config.standard with resetPc := 0x0010 }).load 0x0010 [0x2A, 0x08]))
    (fun t => t.reg .r3 == 0x2A && t.pc == 0x0012) = true := by decide

/-- The transfer of two bytes just started, in a state and a direction. -/
def moving (dir : DmaDir) : State :=
  (here []).setPeriph { (here []).periph with
    dmaTransfer := some { dir := dir, localStart := 0xFEFE, extStart := 3, count := 2, copied := [] } }

theorem witness_FinishedDmaTransferCopiedItsRange (dir : DmaDir) :
    TransferOk (moving dir) { dir := dir, localStart := 0xFEFE, extStart := 3, count := 2, copied := [] } ∧
    3 + 2 ≤ 2 ^ extWidth ∧
    (agentMoves (moving dir) [.dmaCopy 1, .dmaCopy 0, .dmaFinish]).periph.dmaTransfer = none := by
  cases dir <;> exact ⟨⟨by decide, by decide, by decide, by decide,
    Nat.lt_of_lt_of_le (by decide) le_two_pow_extWidth, List.nodup_nil, by simp⟩,
    Nat.le_trans (by decide) le_two_pow_extWidth, rfl⟩

end Sys2Proof.Tests
end

section
/-! PROOFS. The state after reset (10_state.md R30, 70_reset_and_hazards.md R260). -/

namespace Sys2Proof.Machine

/-! ### cr0 has only four bits that are not zero -/

theorem toWord_toNat_lt (f : Flags) : f.toWord.toNat < 16 := by
  have bit_le (b : Bool) : bitNat b ≤ 1 := by cases b <;> decide
  have hz := bit_le f.z
  have hc := bit_le f.c
  have hs := bit_le f.s
  have hv := bit_le f.v
  rw [toWord_toNat]
  omega

/-- Bits 15..4 of cr0 are zero whatever the flags are (10_state.md R26), so right after reset too. -/
theorem toWord_high_bits (f : Flags) : f.toWord.extractLsb' 4 12 = 0 := by
  have hlt := toWord_toNat_lt f
  apply BitVec.eq_of_toNat_eq
  rw [BitVec.extractLsb'_toNat, Nat.shiftRight_eq_div_pow, Nat.div_eq_of_lt hlt]
  rfl

/-! ### What launch leaves in the peripherals and in RAM -/

@[simp] theorem State.launch_uartTx (c : Config) : (State.launch c).periph.uartTx = [] := rfl
@[simp] theorem State.launch_uartRx (c : Config) : (State.launch c).periph.uartRx = [] := rfl
@[simp] theorem State.launch_uartOverrun (c : Config) : (State.launch c).periph.uartOverrun = false := rfl
@[simp] theorem State.launch_dmaTransfer (c : Config) : (State.launch c).periph.dmaTransfer = none := rfl

/-- No byte of RAM holds a value until a program is loaded (log 5). -/
@[simp] theorem State.ramByte_launch (c : Config) (a : Nat) : (State.launch c).ramByte a = none := by
  rw [State.ramByte, State.launch_mem, Memory.read]

/-- RESET_PC of the default column (00_scope.md R3, log 2). -/
theorem State.reset_pc : State.reset.pc = 0x0000 := by
  rw [State.reset, State.launch_pc, Config.standard]

/-- Settles O9: every field named is one of launch's own, cr0 bits 15..4 are zero for all flags. -/
theorem resetLeavesTheLaunchState : Obligations.ResetLeavesTheLaunchState := by
  unfold Obligations.ResetLeavesTheLaunchState
  refine ⟨fun c => ?_, rfl, State.reset_pc⟩
  exact ⟨State.launch_pc c, State.launch_cfg c, State.launch_uartTx c, State.launch_uartRx c,
    State.launch_uartOverrun c, State.launch_dmaTransfer c, toWord_high_bits _, State.ramByte_launch c⟩

end Sys2Proof.Machine
end

section
/-! PROOFS. What an instruction does to the state, one rule per state operation, and the frame of every
instruction (10_state.md R13, R18; 20_memory.md R49). -/

namespace Sys2Proof.Machine

/-! ### The part of the invariant that speaks of the peripherals -/

/-- The FIFOs `p` holds fit (60_exceptions.md R213) and its transfer is legal on the machine of `s`. -/
structure DevicesOk (s : State) (p : Periph) : Prop where
  tx_bound : p.uartTx.length ≤ 8
  rx_bound : p.uartRx.length ≤ 8
  transfer : ∀ x, p.dmaTransfer = some x → TransferOk s x

/-- The machine of a legal transfer matters by its parameters alone. -/
theorem TransferOk.of_cfg {s t : State} {x : Transfer} (h : TransferOk s x) (hc : t.cfg = s.cfg) :
    TransferOk t x := { h with in_ram := by rw [hc]; exact h.in_ram }

theorem DevicesOk.of_cfg {s t : State} {p : Periph} (h : DevicesOk s p) (hc : t.cfg = s.cfg) :
    DevicesOk t p := { h with transfer := fun x hx => (h.transfer x hx).of_cfg hc }

theorem inRam_of_cfg {s t : State} {a : Word} (h : InRam s a) (hc : t.cfg = s.cfg) : InRam t a := by
  unfold InRam at *; rwa [hc]

/-! ### Accesses: what they leave of the processor and of the peripherals -/

theorem readByte_same {s t : State} {a : Word} {b : Byte} (h : readByte s a = .next (b, t)) :
    SameButDevices s t := by
  rcases readByte_next h with ⟨r, -, -, hr⟩ | ⟨-, -, rfl⟩
  · simpa only [hr] using readByteReg_same s r
  · exact .refl _

theorem readWord_same {s t : State} {a w : Word} (h : readWord s a = .next (w, t)) :
    SameButDevices s t := by
  rcases readWord_next h with ⟨r, -, -, -, hr⟩ | ⟨-, -, rfl⟩
  · simpa only [hr] using readWordReg_same s r
  · exact .refl _

/-- A read takes at most the head of the Rx FIFO. -/
theorem readByteReg_devices {s : State} (r : ByteReg) (hd : DevicesOk s s.periph) :
    DevicesOk s (readByteReg s r).2.periph := by
  rcases readByteReg_cases s r with h | h | ⟨b, rest, hrx, h⟩ <;> rw [h]
  · exact hd
  · exact hd
  · have hle := hd.rx_bound
    rw [hrx, List.length_cons] at hle
    exact { hd with rx_bound := Nat.le_of_succ_le hle }

theorem readByte_devices {s t : State} {a : Word} {b : Byte} (h : readByte s a = .next (b, t))
    (hd : DevicesOk s s.periph) : DevicesOk s t.periph := by
  rcases readByte_next h with ⟨r, -, -, hr⟩ | ⟨-, -, rfl⟩
  · simpa only [hr] using readByteReg_devices r hd
  · exact hd

theorem readWord_periph {s t : State} {a w : Word} (h : readWord s a = .next (w, t)) :
    t.periph = s.periph := by
  rcases readWord_next h with ⟨r, -, -, -, hr⟩ | ⟨-, -, rfl⟩
  · have ht : t = (readWordReg s r).2 := by rw [hr]
    rcases readWordReg_cases s r with hc | hc <;> rw [ht, hc]
    rfl
  · rfl

theorem writeByteReg_devices {s t : State} {r : ByteReg} {v : Byte} (h : writeByteReg s r v = .next t)
    (hd : DevicesOk s s.periph) : DevicesOk s t.periph := by
  rcases writeByteReg_next h with ⟨-, rfl⟩ | ⟨-, hroom, rfl⟩
  · exact { hd with }
  · exact { hd with tx_bound := by simpa using hroom }

/-- The transfer DMA_CONTROL starts is legal, and has copied nothing yet. -/
theorem startDma_devices {s t : State} {v : Word} (h : startDma s v = .next t)
    (hd : DevicesOk s s.periph) : DevicesOk s t.periph := by
  obtain ⟨dir, -, -, hstart, hpos, heven, -, hram, rfl⟩ := startDma_next h
  refine { hd with transfer := fun x hx => ?_ }
  obtain rfl := Option.some.inj hx
  exact ⟨hstart, heven, hpos, hram, extBase_lt _, List.nodup_nil, by simp⟩

theorem writeWordReg_devices {s t : State} {r : WordReg} {v : Word} (h : writeWordReg s r v = .next t)
    (hd : DevicesOk s s.periph) : DevicesOk s t.periph := by
  have of_eq {p : Periph} (htx : p.uartTx = s.periph.uartTx) (hrx : p.uartRx = s.periph.uartRx)
      (hx : p.dmaTransfer = s.periph.dmaTransfer) : DevicesOk s p :=
    ⟨htx ▸ hd.tx_bound, hrx ▸ hd.rx_bound, hx ▸ hd.transfer⟩
  rcases writeWordReg_next h with ⟨p, rfl, htx, hrx, hx⟩ | ⟨p, rfl, htx, hrx, hx⟩ | ⟨-, h⟩
  · exact of_eq htx hrx hx
  · exact of_eq htx hrx hx
  · exact startDma_devices h hd

/-! ### The effect of an instruction, built up one state operation at a time -/

/-- What becomes of the RAM of `s` when the bytes `stored` (first address and number) are the target of a
store: nothing, where they are a peripheral register, or those bytes of fitted RAM are written. -/
inductive RamEffect (s : State) : Option (Word × Nat) → Memory → Prop where
  | kept (stored : Option (Word × Nat)) : RamEffect s stored s.mem
  | byte (p : Word) (b : Byte) (h : InRam s p) : RamEffect s (some (p, 1)) (Memory.write s.mem p.toNat b)
  | word (p : Word) (b0 b1 : Byte) (h : WordInRam s p) :
      RamEffect s (some (p, 2)) (Memory.write (Memory.write s.mem p.toNat b0) (p.toNat + 1) b1)

/-- What an instruction that may write the registers `rs`, writes LR only if `calls`, and stores to the
bytes `stored` can make of `s`. -/
structure Effect (rs : List Reg) (calls : Bool) (stored : Option (Word × Nat)) (s t : State) : Prop where
  regs : ∀ r, r ∉ rs → t.reg r = s.reg r
  lr : calls = false → t.lr = s.lr
  lr_even : s.pc.toNat % 2 = 0 → s.lr.toNat % 2 = 0 → t.lr.toNat % 2 = 0
  pc_even : s.pc.toNat % 2 = 0 → t.pc.toNat % 2 = 0
  ram : RamEffect s stored t.mem
  devices : DevicesOk s s.periph → DevicesOk s t.periph
  ext : t.ext = s.ext
  cfg : t.cfg = s.cfg
  agenda : t.agenda = s.agenda

section Rules
variable {rs : List Reg} {calls : Bool} {stored : Option (Word × Nat)} {s t u : State}

theorem Effect.refl (s : State) : Effect rs calls stored s s where
  regs _ _ := rfl
  lr _ := rfl
  lr_even _ h := h
  pc_even h := h
  ram := .kept stored
  devices h := h
  ext := rfl
  cfg := rfl
  agenda := rfl

theorem Effect.setReg (h : Effect rs calls stored s t) {d : Reg} (hd : d ∈ rs) (v : Word) :
    Effect rs calls stored s (t.setReg d v) :=
  { h with
    regs := fun r hr => by
      rw [State.reg_setReg_other t v (by rintro rfl; exact hr hd)]; exact h.regs r hr }

theorem Effect.setFlags (h : Effect rs calls stored s t) (f : Flags) :
    Effect rs calls stored s (t.setFlags f) := { h with }

theorem Effect.drawn (h : Effect rs calls stored s t) (n : Nat) :
    Effect rs calls stored s (t.drawn n) := { h with }

theorem Effect.setPc (h : Effect rs calls stored s t) {v : Word}
    (hv : s.pc.toNat % 2 = 0 → v.toNat % 2 = 0) : Effect rs calls stored s (t.setPc v) :=
  { h with pc_even := hv }

theorem Effect.setLr (h : Effect rs true stored s t) {v : Word}
    (hv : s.pc.toNat % 2 = 0 → v.toNat % 2 = 0) : Effect rs true stored s (t.setLr v) :=
  { h with lr := fun hc => absurd hc (by decide), lr_even := fun hp _ => hv hp }

/-- Instructions are two or four bytes long, so the sum that gives the next pc keeps it even. -/
theorem add_even {p n : Word} (hn : n.toNat % 2 = 0) (hp : p.toNat % 2 = 0) : (p + n).toNat % 2 = 0 := by
  rw [BitVec.toNat_add]; omega

theorem Operand.size_even (o : Operand) : o.size.toNat % 2 = 0 := by cases o <;> simp [Operand.size]

theorem Address.size_even (a : Address) : a.size.toNat % 2 = 0 := by cases a <;> simp [Address.size]

theorem Effect.advance (h : Effect rs calls stored s t) {n : Word} (hn : n.toNat % 2 = 0) :
    Effect rs calls stored s (t.advance n) := h.setPc fun hp => add_even hn (h.pc_even hp)

theorem Effect.sameButDevices (h : Effect rs calls stored s u) (hs : SameButDevices u t)
    (hd : DevicesOk u u.periph → DevicesOk u t.periph) : Effect rs calls stored s t where
  regs r hr := by rw [State.reg, hs.regs]; exact h.regs r hr
  lr hc := hs.lr.trans (h.lr hc)
  lr_even hp hl := by rw [hs.lr]; exact h.lr_even hp hl
  pc_even hp := by rw [hs.pc]; exact h.pc_even hp
  ram := by rw [hs.mem]; exact h.ram
  devices ho := (hd ((h.devices ho).of_cfg h.cfg)).of_cfg h.cfg.symm
  ext := hs.ext.trans h.ext
  cfg := hs.cfg.trans h.cfg
  agenda := hs.agenda.trans h.agenda

theorem Effect.readWord (h : Effect rs calls stored s u) {a w : Word}
    (hr : Machine.readWord u a = .next (w, t)) : Effect rs calls stored s t :=
  h.sameButDevices (readWord_same hr) fun hd => by rw [readWord_periph hr]; exact hd

theorem Effect.readByte (h : Effect rs calls stored s u) {a : Word} {b : Byte}
    (hr : Machine.readByte u a = .next (b, t)) : Effect rs calls stored s t :=
  h.sameButDevices (readByte_same hr) (readByte_devices hr)

/-- With nothing to store to, RAM is as it was. -/
theorem RamEffect.none_eq {m : Memory} (h : RamEffect s none m) : m = s.mem := by cases h; rfl

/-- An instruction that has stored nothing yet may store a byte. -/
theorem Effect.storeRam (h : Effect rs calls none s u) {p : Word} (hp : InRam u p) (b : Byte) :
    Effect rs calls (some (p, 1)) s (u.storeRam p.toNat b) where
  regs r hr := by rw [State.reg_storeRam]; exact h.regs r hr
  lr hc := by rw [State.storeRam_lr]; exact h.lr hc
  lr_even hp hl := by rw [State.storeRam_lr]; exact h.lr_even hp hl
  pc_even hp := by rw [State.storeRam_pc]; exact h.pc_even hp
  ram := by rw [State.storeRam_mem, h.ram.none_eq]; exact .byte p b (inRam_of_cfg hp h.cfg.symm)
  devices hd := by rw [State.storeRam_periph]; exact h.devices hd
  ext := by rw [State.storeRam_ext]; exact h.ext
  cfg := by rw [State.storeRam_cfg]; exact h.cfg
  agenda := by rw [State.storeRam_agenda]; exact h.agenda

theorem storeRamWord_mem (s : State) (p v : Word) :
    (storeRamWord s p v).mem = Memory.write (Memory.write s.mem p.toNat (firstByte s.cfg.byteOrder v))
      (p.toNat + 1) (secondByte s.cfg.byteOrder v) := by
  simp [storeRamWord]

/-- An instruction that has stored nothing yet may store a word. -/
theorem Effect.storeRamWord (h : Effect rs calls none s u) {p : Word} (hp : WordInRam u p) (v : Word) :
    Effect rs calls (some (p, 2)) s (Machine.storeRamWord u p v) := by
  obtain ⟨hcfg, hregs, hpc, hlr, -, hperiph, hext, hagenda, -⟩ := storeRamWord_frame u p v
  obtain ⟨heven, hin⟩ := hp
  refine
    { regs := fun r hr => ?_, lr := ?_, lr_even := ?_, pc_even := ?_, ram := ?_, devices := ?_,
      ext := hext.trans h.ext, cfg := hcfg.trans h.cfg, agenda := hagenda.trans h.agenda }
  · rw [State.reg, hregs]; exact h.regs r hr
  · rw [hlr]; exact h.lr
  · rw [hlr]; exact h.lr_even
  · rw [hpc]; exact h.pc_even
  · rw [storeRamWord_mem, h.ram.none_eq]
    exact .word p _ _ ⟨heven, inRam_of_cfg hin h.cfg.symm⟩
  · rw [hperiph]; exact h.devices

/-- A store to a peripheral register changes no RAM, whatever bytes it was to store to. -/
theorem Effect.stores (h : Effect rs calls none s t) (stored : Option (Word × Nat)) :
    Effect rs calls stored s t := { h with ram := h.ram.none_eq ▸ .kept stored }

theorem Effect.writeByte (h : Effect rs calls none s u) {p : Word} {v : Byte}
    (hw : Machine.writeByte u p v = .next t) : Effect rs calls (some (p, 1)) s t := by
  rcases writeByte_next hw with ⟨r, -, -, hr⟩ | ⟨hp, rfl⟩
  · exact (h.sameButDevices (writeByteReg_same hr) (writeByteReg_devices hr)).stores _
  · exact h.storeRam hp v

theorem Effect.writeWord (h : Effect rs calls none s u) {p v : Word}
    (hw : Machine.writeWord u p v = .next t) : Effect rs calls (some (p, 2)) s t := by
  rcases writeWord_next hw with ⟨r, -, -, -, hr⟩ | ⟨hp, rfl⟩
  · exact (h.sameButDevices (writeWordReg_same hr) (writeWordReg_devices hr)).stores _
  · exact h.storeRamWord hp v

end Rules

/-! ### The effect of each shared operation -/

/-- What holds of the state an operation builds holds of the state it answers. -/
theorem Effect.of_next {rs : List Reg} {calls : Bool} {stored : Option (Word × Nat)} {s t u : State}
    (h : (.next u : Result State) = .next t) (he : Effect rs calls stored s u) :
    Effect rs calls stored s t := by
  cases h; exact he

section Operations
variable {s t : State} {d r : Reg}

theorem writeResult_effect (s : State) (d : Reg) (a : AluResult) {n : Word} (hn : n.toNat % 2 = 0) :
    Effect [d] false none s (writeResult s d a n) :=
  (((Effect.refl s).setReg (List.mem_singleton_self d) a.value).setFlags a.flags).advance hn

theorem writeFlags_effect (s : State) (a : AluResult) {n : Word} (hn : n.toNat % 2 = 0) :
    Effect [] false none s (writeFlags s a n) := ((Effect.refl s).setFlags a.flags).advance hn

theorem opMove_effect {v n : Word} (h : opMove d v n s = .next t) (hn : n.toNat % 2 = 0) :
    Effect [d] false none s t :=
  .of_next h (((Effect.refl s).setReg (List.mem_singleton_self d) v).advance hn)

theorem execLdcp_effect {cr : Nat} (h : execLdcp d cr s = .next t) : Effect [d] false none s t := by
  unfold execLdcp at h
  split at h
  · exact opMove_effect h rfl
  · split at h
    · exact .of_next h ((((Effect.refl s).drawn 1).setReg (List.mem_singleton_self d) _).advance rfl)
    · cases h

theorem opShift_effect {op : ShiftOp} {o : Operand} (h : opShift op d o s = .next t) :
    Effect [d] false none s t := by
  rcases opShift_cases op d o s with ⟨n, -, hs⟩ | ⟨-, hs⟩ <;> rw [hs] at h
  · exact .of_next h (writeResult_effect s d _ o.size_even)
  · exact .of_next h ((writeResult_effect s d _ o.size_even).drawn 3)

theorem opRcl_effect {o : Operand} (h : opRcl d o s = .next t) : Effect [d] false none s t := by
  rcases opRcl_cases d o s with ⟨n, -, hs⟩ | ⟨-, hs⟩ <;> rw [hs] at h
  · exact .of_next h (writeResult_effect s d _ o.size_even)
  · exact .of_next h ((writeResult_effect s d _ o.size_even).drawn 3)

theorem opLd_effect {a : Address} (h : opLd d a s = .next t) : Effect [d] false none s t := by
  obtain ⟨w, u, hr, rfl⟩ := opLd_next h
  exact (((Effect.refl s).readWord hr).setReg (List.mem_singleton_self d) w).advance a.size_even

theorem opLdb_effect {a : Address} (h : opLdb d a s = .next t) : Effect [d] false none s t := by
  obtain ⟨b, u, hr, rfl⟩ := opLdb_next h
  have hu : Effect [d] false none s u := (Effect.refl s).readByte hr
  have hv : Effect [d] false none s (ldbValue u b).2 := by
    rcases ldbValue_cases u b with hv | hv <;> rw [hv]
    · exact hu
    · exact hu.drawn 1
  exact (hv.setReg (List.mem_singleton_self d) _).advance a.size_even

theorem opSt_effect {a : Address} (h : opSt d a s = .next t) :
    Effect [] false (some (a.value s, 2)) s t := by
  obtain ⟨u, hw, rfl⟩ := opSt_next h
  exact ((Effect.refl s).writeWord hw).advance a.size_even

theorem opStb_effect {a : Address} (h : opStb d a s = .next t) :
    Effect [] false (some (a.value s, 1)) s t := by
  obtain ⟨u, hw, rfl⟩ := opStb_next h
  exact ((Effect.refl s).writeByte hw).advance a.size_even

/-- PUSH and PUSHLR store below the pointer, where the pointer then stands. -/
theorem push_effect {v n : Word} (h : pushStore r v n (pushPointer r s) = .next t)
    (hn : n.toNat % 2 = 0) : Effect [r] false (some (s.reg r - 2, 2)) s t := by
  obtain ⟨u, hw, rfl⟩ := pushStore_next h
  rw [pushPointer, State.reg_setReg_same] at hw
  exact (((Effect.refl s).setReg (List.mem_singleton_self r) _).writeWord hw).advance hn

theorem execPop_effect (h : execPop d r s = .next t) : Effect [d, r] false none s t := by
  obtain ⟨w, u, hr, rfl⟩ := execPop_next h
  exact ((((Effect.refl s).readWord hr).setReg (by simp) w).setReg (by simp) _).advance rfl

theorem jumpTo_effect {v : Word} (h : jumpTo v s = .next t) : Effect [] false none s t := by
  obtain ⟨hv, rfl⟩ := jumpTo_next h
  exact (Effect.refl s).setPc fun _ => hv

theorem opJmp_effect {cond : Cond} {o : Operand} (h : opJmp cond o s = .next t) :
    Effect [] false none s t := by
  rcases opJmp_next h with ⟨-, hv, rfl⟩ | ⟨-, rfl⟩
  · exact (Effect.refl s).setPc fun _ => hv
  · exact (Effect.refl s).advance o.size_even

theorem opCall_effect {cond : Cond} {o : Operand} (h : opCall cond o s = .next t) :
    Effect [] true none s t := by
  rcases opCall_next h with ⟨-, hv, rfl⟩ | ⟨-, rfl⟩
  · exact ((Effect.refl s).setLr (add_even o.size_even)).setPc fun _ => hv
  · exact (Effect.refl s).advance o.size_even

end Operations

/-! ### The effect of every instruction -/

/-- An instruction that completes writes the registers, LR and bytes of RAM Safety.lean lists for it, and
keeps what the invariant asks of the pc, of LR and of the peripherals. -/
theorem exec_effect {i : Instr} {s t : State} (h : exec i s = .next t) :
    Effect (writtenRegs i) (isCall i) (storedBytes s i) s t := by
  cases i with
  | addR d _ | addI d _ | subR d _ | subI d _ | adcR d _ | adcI d _ | sbbR d _ | sbbI d _
  | andR d _ | andI d _ | orR d _ | orI d _ | xorR d _ | xorI d _ | rolR d _ | rolI d _ =>
    exact .of_next h (writeResult_effect s d _ (Operand.size_even _))
  | notR d | negR d => exact .of_next h (writeResult_effect s d _ rfl)
  | cmpR | cmpI | testR | testI => exact .of_next h (writeFlags_effect s _ (Operand.size_even _))
  | shlR | shlI | shrR | shrI | sarR | sarI => exact opShift_effect h
  | rclR | rclI => exact opRcl_effect h
  | movB0 | movB1 | movB2 | movB3 | movB4 | movB5 | movB6 | movB7 | movR | movI | setCc =>
    exact opMove_effect h rfl
  | ldcp => exact execLdcp_effect h
  | ldR | ldA | ldD => exact opLd_effect h
  | ldbR | ldbA | ldbD => exact opLdb_effect h
  | stR | stA | stD => exact opSt_effect h
  | stbR | stbA | stbD => exact opStb_effect h
  | ldU | ldbU | stU | stbU => cases h
  | pushR | pushI => exact push_effect h (Operand.size_even _)
  | pushLr => exact push_effect h rfl
  | pop => exact execPop_effect h
  | jmpR | jmpI => exact opJmp_effect h
  | callR | callI => exact opCall_effect h
  | ret => exact jumpTo_effect h

/-! ### The frame -/

/-- Outside the bytes stored to, every byte of RAM reads as before. -/
theorem RamEffect.read_eq {s : State} {stored : Option (Word × Nat)} {m : Memory}
    (h : RamEffect s stored m) {a : Nat}
    (ha : ∀ p n, stored = some (p, n) → a < p.toNat ∨ p.toNat + n ≤ a) :
    Memory.read m a = Memory.read s.mem a := by
  cases h with
  | kept => rfl
  | byte p b =>
    have hout := ha p 1 rfl
    rw [Memory.read_write, if_neg (by omega)]
  | word p b0 b1 =>
    have hout := ha p 2 rfl
    rw [Memory.read_write, if_neg (by omega), Memory.read_write, if_neg (by omega)]

/-- Settles O13, reading the frame off the effect of the instruction. -/
theorem instructionsChangeOnlyWhatTheyName : Obligations.InstructionsChangeOnlyWhatTheyName := by
  unfold Obligations.InstructionsChangeOnlyWhatTheyName
  intro i s t h
  have he := exec_effect h
  have hext (a : Nat) : t.extByte a = s.extByte a := by rw [State.extByte, he.ext, State.extByte]
  exact ⟨he.regs, he.lr, fun a ha => he.ram.read_eq ha, hext, he.cfg, he.agenda⟩

end Sys2Proof.Machine
end

section
/-! PROOFS. The invariant: it holds after reset, every instruction keeps it and so does every move of a
peripheral agent (70_reset_and_hazards.md R263). -/

namespace Sys2Proof.Machine

/-! ### Reset -/

/-- After reset every list of the state is empty, and pc and LR are even. -/
theorem launch_inv {c : Config} (hc : c.Wf) : StateInv (State.launch c) where
  cfg := hc
  pc_even := hc.1
  lr_even := rfl
  mem_wf := List.Pairwise.nil
  mem_in_ram := by simp
  ext_wf := ⟨List.Pairwise.nil, by simp⟩
  ext_in_dram := by simp
  tx_bound := by simp
  rx_bound := by simp
  transfer := by simp

/-- Settles O10: reset is launch under the default column, whose values are admitted ones. -/
theorem resetMeetsTheInvariant : Obligations.ResetMeetsTheInvariant := by
  unfold Obligations.ResetMeetsTheInvariant
  exact ⟨launch_inv (by decide), fun _ hc => launch_inv hc⟩

/-! ### Instructions -/

theorem StateInv.devices {s : State} (h : StateInv s) : DevicesOk s s.periph :=
  ⟨h.tx_bound, h.rx_bound, h.transfer⟩

/-- A byte written below RAM_SIZE leaves all of RAM there. -/
theorem Memory.write_lt {m : Memory} {n a : Nat} (b : Byte) (h : ∀ c ∈ m, c.1 < n) (ha : a < n) :
    ∀ c ∈ Memory.write m a b, c.1 < n := by
  intro c hc
  rcases Memory.mem_write hc with rfl | hc
  · exact ha
  · exact h c hc

theorem RamEffect.wf {s : State} {stored : Option (Word × Nat)} {m : Memory}
    (h : RamEffect s stored m) (hwf : Memory.wf s.mem) : Memory.wf m := by
  cases h with
  | kept => exact hwf
  | byte p b => exact Memory.write_wf hwf _ _
  | word p b0 b1 => exact Memory.write_wf (Memory.write_wf hwf _ _) _ _

/-- The second byte of a word lies in RAM with the first, RAM_SIZE being even (D22). -/
theorem RamEffect.in_ram {s : State} {stored : Option (Word × Nat)} {m : Memory}
    (h : RamEffect s stored m) (hsize : s.cfg.ramSize % 2 = 0) (hs : ∀ c ∈ s.mem, c.1 < s.cfg.ramSize) :
    ∀ c ∈ m, c.1 < s.cfg.ramSize := by
  cases h with
  | kept => exact hs
  | byte p b hp => exact Memory.write_lt b hs hp.1
  | word p b0 b1 hp =>
    obtain ⟨heven, hlt, -⟩ := hp
    exact Memory.write_lt b1 (Memory.write_lt b0 hs hlt) (by omega)

theorem Effect.keeps_inv {rs : List Reg} {calls : Bool} {stored : Option (Word × Nat)} {s t : State}
    (h : Effect rs calls stored s t) (hs : StateInv s) : StateInv t := by
  have hd : DevicesOk t t.periph := (h.devices hs.devices).of_cfg h.cfg
  obtain ⟨-, hsize, -⟩ := hs.cfg
  exact
    { cfg := h.cfg ▸ hs.cfg
      pc_even := h.pc_even hs.pc_even
      lr_even := h.lr_even hs.pc_even hs.lr_even
      mem_wf := h.ram.wf hs.mem_wf
      mem_in_ram := h.cfg ▸ h.ram.in_ram hsize hs.mem_in_ram
      ext_wf := h.ext ▸ hs.ext_wf
      ext_in_dram := h.ext ▸ hs.ext_in_dram
      tx_bound := hd.tx_bound
      rx_bound := hd.rx_bound
      transfer := hd.transfer }

/-! ### State operations of the agents -/

theorem StateInv.setPeriph {s : State} (h : StateInv s) {p : Periph} (hp : DevicesOk s p) :
    StateInv (s.setPeriph p) :=
  { h with
    tx_bound := hp.tx_bound, rx_bound := hp.rx_bound
    transfer := fun x hx => (hp.transfer x hx).of_cfg rfl }

/-- The invariant does not speak of the free values drawn, nor of what the outside has seen or the moves
to come. -/
theorem StateInv.drawn {s : State} (h : StateInv s) (n : Nat) : StateInv (s.drawn n) :=
  { h with transfer := fun x hx => (h.transfer x hx).of_cfg rfl }

theorem StateInv.emit {s : State} (h : StateInv s) (o : Output) : StateInv (s.emit o) :=
  { h with transfer := fun x hx => (h.transfer x hx).of_cfg rfl }

theorem StateInv.withAgenda {s : State} (h : StateInv s) (later : List (List AgentMove)) :
    StateInv { s with agenda := later } :=
  { h with transfer := fun x hx => (h.transfer x hx).of_cfg rfl }

theorem StateInv.setRam {s : State} (h : StateInv s) {a : Nat} (ha : a < s.cfg.ramSize) (b : Byte) :
    StateInv (s.setRam a b) :=
  { h with
    mem_wf := Memory.write_wf h.mem_wf a b
    mem_in_ram := Memory.write_lt b h.mem_in_ram ha
    transfer := fun x hx => (h.transfer x hx).of_cfg rfl }

theorem StateInv.setExt {s : State} (h : StateInv s) {k : Nat} (hk : k < 2 ^ extWidth) (b : Byte) :
    StateInv (s.setExt k b) :=
  { h with
    ext_wf := Memory.setExt_wf s h.ext_wf k b
    ext_in_dram := Memory.setExt_mem_lt b h.ext_in_dram hk
    transfer := fun x hx => (h.transfer x hx).of_cfg rfl }

theorem StateInv.storeExt {s : State} (h : StateInv s) (a : Nat) (b : Byte) :
    StateInv (s.storeExt a b) := by
  rcases State.storeExt_cases s a b with ⟨k, -, hk, he⟩ | ⟨-, he⟩ <;> rw [he]
  · exact h.setExt hk b
  · exact h

/-! ### Moves of the agents -/

theorem uartReceive_inv {s : State} (h : StateInv s) (b : Byte) : StateInv (uartReceive s b) := by
  rcases uartReceive_cases s b with ⟨hroom, he⟩ | ⟨-, he⟩ <;> rw [he]
  · exact h.setPeriph { h.devices with rx_bound := by simpa using hroom }
  · exact h.setPeriph { h.devices with }

theorem uartTransmit_inv {s : State} (h : StateInv s) : StateInv (uartTransmit s) := by
  rcases uartTransmit_cases s with ⟨-, he⟩ | ⟨b, rest, htx, he⟩ <;> rw [he]
  · exact h
  · have hle := h.tx_bound
    rw [htx, List.length_cons] at hle
    have hd : DevicesOk s { s.periph with uartTx := rest } :=
      { h.devices with tx_bound := Nat.le_of_succ_le hle }
    exact (h.setPeriph hd).emit _

theorem timerTick_inv {s : State} (h : StateInv s) : StateInv (timerTick s) := by
  rcases timerTick_cases s with ⟨-, he⟩ | ⟨-, he⟩ <;> rw [he]
  · exact h
  · exact h.setPeriph { h.devices with }

/-- A byte a legal transfer moves lies within its local range, so in RAM, or within the external DRAM. -/
theorem dmaMoveByte_inv {s : State} (h : StateInv s) {x : Transfer} (hx : TransferOk s x) {i : Nat}
    (hi : i < x.count.toNat) : StateInv (dmaMoveByte s x i) := by
  have hlocal : x.localStart.toNat + i < s.cfg.ramSize := by have := hx.in_ram; omega
  rcases dmaMoveByte_cases s x i with ⟨-, b, -, he⟩ | ⟨-, -, he⟩ | ⟨-, k, -, he⟩ | ⟨-, -, he⟩ <;> rw [he]
  · exact h.storeExt _ b
  · exact (h.storeExt _ _).drawn 1
  · exact h.setRam hlocal _
  · exact (h.setRam hlocal _).drawn 1

/-- A byte not copied before and below the count may be noted as copied. -/
theorem TransferOk.copy {s : State} {x : Transfer} (h : TransferOk s x) {i : Nat}
    (hi : i < x.count.toNat) (hnew : i ∉ x.copied) :
    TransferOk s { x with copied := i :: x.copied } :=
  { h with
    nodup := List.nodup_cons.mpr ⟨hnew, h.nodup⟩
    copied_lt := List.forall_mem_cons.mpr ⟨hi, h.copied_lt⟩ }

theorem dmaCopy_inv {s : State} (h : StateInv s) (i : Nat) : StateInv (dmaCopy s i) := by
  rcases dmaCopy_cases s i with he | ⟨x, hx, hi, hnew, he⟩ <;> rw [he]
  · exact h
  · have hok : TransferOk s x := h.transfer x hx
    have hcfg : (dmaMoveByte s x i).cfg = s.cfg := by
      have hp := (agentMove_sameProcessor s (.dmaCopy i)).cfg
      rwa [agentMove, he] at hp
    refine (dmaMoveByte_inv h hok hi).setPeriph { h.devices with transfer := fun y hy => ?_ }
    obtain rfl := Option.some.inj hy
    exact (hok.copy hi hnew).of_cfg hcfg

theorem dmaFinish_inv {s : State} (h : StateInv s) : StateInv (dmaFinish s) := by
  rcases dmaFinish_cases s with he | ⟨x, -, -, he⟩ <;> rw [he]
  · exact h
  · refine (h.setPeriph ?_).drawn 2
    exact { h.devices with transfer := nofun }

theorem agentMove_inv (s : State) (m : AgentMove) (h : StateInv s) : StateInv (agentMove s m) := by
  cases m with
  | uartReceive b => exact uartReceive_inv h b
  | uartTransmit => exact uartTransmit_inv h
  | timerTick => exact timerTick_inv h
  | dmaCopy i => exact dmaCopy_inv h i
  | dmaFinish => exact dmaFinish_inv h

theorem runAgents_inv {s : State} (h : StateInv s) : StateInv (runAgents s) := by
  unfold runAgents
  split
  · exact h
  · next ms later _ => exact agentMoves_induct agentMove_inv (h.withAgenda later) ms

/-- Settles O11: the instruction keeps the invariant by its effect, the agents' moves one by one. -/
theorem everyStepKeepsTheInvariant : Obligations.EveryStepKeepsTheInvariant := by
  unfold Obligations.EveryStepKeepsTheInvariant
  intro s t hs h
  obtain ⟨i, u, hi, rfl⟩ := step_next h
  exact runAgents_inv ((exec_effect hi).keeps_inv hs)

end Sys2Proof.Machine
end

section
/-! PROOFS. The four flags of sums and differences (10_state.md R21 to R23; 40_arithmetic.md R100 to R104),
and the flags read as cr0 (42_move.md R133). -/

namespace Sys2Proof.Machine

/-! ### ADD, ADC, SUB, SBB -/

/-- A result written back is in rD with its flags, the pc stands at the next instruction, and nothing else
has changed. -/
theorem writeResult_next {x : Result State} {s : State} {d : Reg} {a : AluResult} {n : Word}
    {P : Word → Flags → Prop} (hx : x = .next (writeResult s d a n)) (h : P a.value a.flags) :
    ∃ t, x = .next t ∧ P (t.reg d) t.flags ∧ t.pc = s.pc + n ∧ OnlyRegisters [d] s t :=
  ⟨_, hx, by simpa using h, rfl, writeResult_frame s d a n⟩

/-- Settles O14: both write AddFlags back, ADC's with the old C as carry-in. -/
theorem addAndAdcComputeTheSum : Obligations.AddAndAdcComputeTheSum := by
  unfold Obligations.AddAndAdcComputeTheSum
  intro s d o
  exact ⟨writeResult_next (exec_add d o s) (addFlags_spec s.cfg (s.reg d) (o.value s) false),
    writeResult_next (exec_adc d o s) (addFlags_spec s.cfg (s.reg d) (o.value s) s.flags.c)⟩

/-- The borrow-in of SBB is the borrow C stands for under SUB_CARRY. -/
theorem bitNat_borrowBit (s : State) : bitNat (borrowBit s.cfg s.flags.c) = borrowIn s := by
  unfold borrowBit borrowIn
  cases s.cfg.subCarry <;> cases s.flags.c <;> rfl

/-- Settles O15: both write SubFlags back, SBB's with the borrow C stands for as borrow-in. -/
theorem subAndSbbComputeTheDifference : Obligations.SubAndSbbComputeTheDifference := by
  unfold Obligations.SubAndSbbComputeTheDifference
  intro s d o
  have hsbb := subFlags_spec s.cfg (s.reg d) (o.value s) (borrowBit s.cfg s.flags.c)
  rw [bitNat_borrowBit] at hsbb
  exact ⟨writeResult_next (exec_sub d o s) (subFlags_spec s.cfg (s.reg d) (o.value s) false),
    writeResult_next (exec_sbb d o s) hsbb⟩

/-! ### NEG -/

/-- 0 - b leaves the signed range for the least number alone. -/
theorem neg_outOfRange_iff (b : Word) :
    OutOfRange ((0 : Word).toInt - b.toInt - (0 : Nat)) ↔ b = 0x8000 := by
  have h8000 : b = 0x8000 ↔ b.toNat = 32768 := BitVec.toNat_inj.symm
  have h0 : (0 : Word).toInt = 0 := rfl
  have hlt := b.isLt
  rw [h8000, OutOfRange, h0]
  rcases toInt_cases b with ⟨_, h⟩ | ⟨_, h⟩ <;> omega

/-- 0 - b borrows unless b is zero. -/
theorem neg_borrows_iff (b : Word) : (0 : Word).toNat < b.toNat + 0 ↔ b ≠ 0 := by
  have hb : b = 0 ↔ b.toNat = 0 := BitVec.toNat_inj.symm
  have h0 : (0 : Word).toNat = 0 := rfl
  rw [Ne, hb, h0]
  omega

/-- Settles O16: NEG writes SubFlags of 0 and rD back; V and C are read off that difference. -/
theorem negSubtractsFromZero : Obligations.NegSubtractsFromZero := by
  unfold Obligations.NegSubtractsFromZero
  intro s d
  have hdiff := subFlags_spec s.cfg 0 (s.reg d) false
  obtain ⟨t, hx, hval, hpc, hframe⟩ := writeResult_next (x := exec (.negR d) s) rfl hdiff
  have ⟨_, _, _, hc, hv⟩ := hval
  refine ⟨t, hx, hval, hv.trans (neg_outOfRange_iff _), fun hb => ?_, hpc, hframe⟩
  rw [CarrySaysBorrow, hb] at hc
  exact hc.trans (neg_borrows_iff _)

/-! ### LDCP -/

/-- LDCP of cr0 moves the flags' word (10_state.md R26). -/
theorem execLdcp_zero (d : Reg) (s : State) : execLdcp d 0 s = opMove d s.flags.toWord 2 s := if_pos rfl

/-- LDCP of any other coprocessor register moves a free value, where UNIMPL_CR_READ reads one
(10_state.md R27). -/
theorem execLdcp_anyValue {cr : Nat} {s : State} (hcr : cr ≠ 0) (hs : s.cfg.unimplCrRead = .anyValue)
    (d : Reg) : execLdcp d cr s = opMove d (Config.freeWord s.draws) 2 (s.drawn 1) := by
  rw [execLdcp, if_neg hcr, hs]

theorem execLdcp_refuse {cr : Nat} {s : State} (hcr : cr ≠ 0) (hs : s.cfg.unimplCrRead = .refuse)
    (d : Reg) : execLdcp d cr s = .refused .unimplementedCoprocessorRegister := by
  rw [execLdcp, if_neg hcr, hs]

/-- Settles O30: LDCP is a move of the flags' word, or by UNIMPL_CR_READ of a free value or none. -/
theorem ldcpReadsTheFlags : Obligations.LdcpReadsTheFlags := by
  unfold Obligations.LdcpReadsTheFlags
  intro s d
  constructor
  · refine ⟨_, execLdcp_zero d s, ?_, rfl, rfl, opMove_frame s d _ 2⟩
    rw [State.reg_advance, State.reg_setReg_same, toWord_toNat]
    simp only [bitNat, mul_ite, mul_one, mul_zero]
  · intro cr hpos _
    have hcr : cr ≠ 0 := Nat.ne_of_gt hpos
    exact ⟨fun hs => ⟨_, execLdcp_anyValue hcr hs d, rfl, rfl, (opMove_frame s d _ 2).drawn 1⟩,
      fun hs => execLdcp_refuse hcr hs d⟩

end Sys2Proof.Machine
end

section
/-! PROOFS. Where a data access or a fetch stops (20_memory.md R41, R44, R45, R48, R50), and what a fetch
makes of a word the processor has stored (R60). -/

namespace Sys2Proof.Machine

/-! ### The data access of an instruction -/

/-- An operation that cannot stop after `x` stops just as `x` does. -/
theorem andThen_total_eq_fault {α β : Type} {x : Result α} {g : α → β} {r : Fault} :
    (andThen x fun a => .next (g a)) = .fault r ↔ x = .fault r := by
  cases x <;> simp

@[simp] theorem pushPointer_reg (r : Reg) (s : State) : (pushPointer r s).reg r = s.reg r - 2 :=
  State.reg_setReg_same ..

/-- An instruction with a word access is a load or a store of that word at the address Safety.lean gives,
and nothing after the access can stop it; PUSH and PUSHLR store from the state with the pointer moved. -/
theorem exec_wordAccess {s : State} {i : Instr} {ea : Word} (h : wordAddress s i = some ea) :
    (isLoad i = true ∧ ∃ g : Word × State → State,
      exec i s = andThen (readWord s ea) fun vt => .next (g vt)) ∨
    (isLoad i = false ∧ ∃ (u : State) (v : Word) (g : State → State), u.cfg = s.cfg ∧
      exec i s = andThen (writeWord u ea v) fun t => .next (g t)) := by
  cases i with
  | ldR | ldA | ldD | pop =>
    obtain rfl := Option.some.inj h
    exact .inl ⟨rfl, _, rfl⟩
  | stR | stA | stD =>
    obtain rfl := Option.some.inj h
    exact .inr ⟨rfl, s, _, _, rfl, rfl⟩
  | pushR | pushI | pushLr =>
    obtain rfl := Option.some.inj h
    rw [← pushPointer_reg]
    exact .inr ⟨rfl, pushPointer _ s, _, _, rfl, rfl⟩
  | _ => cases h

/-- The same for an instruction with a byte access. -/
theorem exec_byteAccess {s : State} {i : Instr} {ea : Word} (h : byteAddress s i = some ea) :
    (isLoad i = true ∧ ∃ g : Byte × State → State,
      exec i s = andThen (readByte s ea) fun bt => .next (g bt)) ∨
    (isLoad i = false ∧ ∃ (v : Byte) (g : State → State),
      exec i s = andThen (writeByte s ea v) fun t => .next (g t)) := by
  cases i with
  | ldbR | ldbA | ldbD =>
    obtain rfl := Option.some.inj h
    exact .inl ⟨rfl, _, rfl⟩
  | stbR | stbA | stbD =>
    obtain rfl := Option.some.inj h
    exact .inr ⟨rfl, _, _, rfl⟩
  | _ => cases h

/-! ### Where every word access stops -/

/-- A word access at `a` stops for its address alone: odd (R50), no memory (R41), an 8 bit register (R45)
or no register (R44). -/
inductive WordFault (c : Config) (a : Word) : Fault → Prop where
  | odd (h : a.toNat % 2 = 1) : WordFault c a .misalignedAccess
  | noMemory (heven : a.toNat % 2 = 0) (hlow : c.ramSize ≤ a.toNat) (hhigh : a.toNat < 0xFF00) :
      WordFault c a .noMemory
  | byteRegister (heven : a.toNat % 2 = 0) (hlow : 0xFF00 ≤ a.toNat) (r : ByteReg)
      (h : periphAt a = .byteReg r) : WordFault c a .wordAccessToByteRegister
  | noRegister (heven : a.toNat % 2 = 0) (hlow : 0xFF00 ≤ a.toNat) (h : periphAt a = .nothing) :
      WordFault c a .noPeripheralRegister

theorem readWord_fault {s : State} {a : Word} {r : Fault} (h : WordFault s.cfg a r) :
    readWord s a = .fault r := by
  unfold readWord
  cases h with
  | odd h => rw [if_pos h]
  | noMemory heven hlow hhigh => rw [if_neg (by omega), if_neg (by omega), if_pos hlow]
  | byteRegister heven hlow q h => rw [if_neg (by omega), if_pos hlow, periphReadWord, h]
  | noRegister heven hlow h => rw [if_neg (by omega), if_pos hlow, periphReadWord, h]

theorem writeWord_fault {s : State} {a : Word} {r : Fault} (h : WordFault s.cfg a r) (v : Word) :
    writeWord s a v = .fault r := by
  unfold writeWord
  cases h with
  | odd h => rw [if_pos h]
  | noMemory heven hlow hhigh => rw [if_neg (by omega), if_neg (by omega), if_pos hlow]
  | byteRegister heven hlow q h => rw [if_neg (by omega), if_pos hlow, periphWriteWord, h]
  | noRegister heven hlow h => rw [if_neg (by omega), if_pos hlow, periphWriteWord, h]

/-- Loads and stores stop alike, so every instruction with a word access does. -/
theorem exec_wordFault {s : State} {i : Instr} {ea : Word} {r : Fault} (h : wordAddress s i = some ea)
    (hf : WordFault s.cfg ea r) : exec i s = .fault r := by
  rcases exec_wordAccess h with ⟨-, g, he⟩ | ⟨-, u, v, g, hc, he⟩ <;> rw [he, andThen_total_eq_fault]
  · exact readWord_fault hf
  · exact writeWord_fault (hc ▸ hf) v

/-! ### Where every byte access stops -/

/-- A byte access at `a` stops for its address alone: no memory (R41), a 16 bit register (R45) or no
register (R44). -/
inductive ByteFault (c : Config) (a : Word) : Fault → Prop where
  | noMemory (hlow : c.ramSize ≤ a.toNat) (hhigh : a.toNat < 0xFF00) : ByteFault c a .noMemory
  | wordRegister (hlow : 0xFF00 ≤ a.toNat) (r : WordReg) (h : periphAt a = .wordReg r) :
      ByteFault c a .byteAccessToWordRegister
  | noRegister (hlow : 0xFF00 ≤ a.toNat) (h : periphAt a = .nothing) : ByteFault c a .noPeripheralRegister

theorem readByte_fault {s : State} {a : Word} {r : Fault} (h : ByteFault s.cfg a r) :
    readByte s a = .fault r := by
  unfold readByte
  cases h with
  | noMemory hlow hhigh => rw [if_neg (by omega), if_pos hlow]
  | wordRegister hlow q h => rw [if_pos hlow, periphReadByte, h]
  | noRegister hlow h => rw [if_pos hlow, periphReadByte, h]

theorem writeByte_fault {s : State} {a : Word} {r : Fault} (h : ByteFault s.cfg a r) (v : Byte) :
    writeByte s a v = .fault r := by
  unfold writeByte
  cases h with
  | noMemory hlow hhigh => rw [if_neg (by omega), if_pos hlow]
  | wordRegister hlow q h => rw [if_pos hlow, periphWriteByte, h]
  | noRegister hlow h => rw [if_pos hlow, periphWriteByte, h]

theorem exec_byteFault {s : State} {i : Instr} {ea : Word} {r : Fault} (h : byteAddress s i = some ea)
    (hf : ByteFault s.cfg ea r) : exec i s = .fault r := by
  rcases exec_byteAccess h with ⟨-, g, he⟩ | ⟨-, v, g, he⟩ <;> rw [he, andThen_total_eq_fault]
  · exact readByte_fault hf
  · exact writeByte_fault hf v

/-- A byte read has no check of its alignment; nor has a register of the peripherals. -/
theorem readByte_ne_misaligned (s : State) (a : Word) : readByte s a ≠ .fault .misalignedAccess := by
  unfold readByte periphReadByte
  split_ifs
  · cases periphAt a <;> simp
  · simp
  · cases s.ramByte a.toNat <;> simp

theorem writeByteReg_ne_misaligned (s : State) (r : ByteReg) (v : Byte) :
    writeByteReg s r v ≠ .fault .misalignedAccess := by
  cases r with
  | ledData => simp [writeByteReg]
  | uartData => simp only [writeByteReg]; split <;> simp
  | uartStatus => simp [writeByteReg]

theorem writeByte_ne_misaligned (s : State) (a : Word) (v : Byte) :
    writeByte s a v ≠ .fault .misalignedAccess := by
  unfold writeByte periphWriteByte
  split_ifs
  · cases periphAt a with
    | byteReg r => exact writeByteReg_ne_misaligned s r v
    | wordReg r => simp
    | nothing => simp
  · simp
  · simp

/-! ### What the peripheral region holds at an address (R43, R44) -/

theorem periphAt_byteReg {a : Word} (h : a = 0xFF00 ∨ a = 0xFF02) : ∃ r, periphAt a = .byteReg r := by
  rcases h with rfl | rfl
  · exact ⟨.ledData, rfl⟩
  · exact ⟨.uartData, rfl⟩

theorem periphAt_wordReg {a : Word} (hlow : 0xFF04 ≤ a.toNat) (hhigh : a.toNat ≤ 0xFF11) :
    ∃ r, periphAt a = .wordReg r := by
  unfold periphAt
  split_ifs
  any_goals exact ⟨_, rfl⟩
  all_goals bv_omega

theorem periphAt_nothing {a : Word} (h : a = 0xFF01 ∨ 0xFF12 ≤ a.toNat) : periphAt a = .nothing := by
  rcases h with rfl | h
  · rfl
  · have hne (k : Word) (hk : k.toNat < 0xFF12) : a ≠ k := by rintro rfl; omega
    simp [periphAt, hne]

/-! ### Where a fetch stops (R48), and the step with it -/

theorem fetchWord_odd {s : State} {a : Word} (h : a.toNat % 2 = 1) :
    fetchWord s a = .fault .misalignedFetch := if_pos h

theorem fetchWord_noMemory {s : State} {a : Word} (heven : a.toNat % 2 = 0)
    (hlow : s.cfg.ramSize ≤ a.toNat) (hhigh : a.toNat < 0xFF00) : fetchWord s a = .fault .noMemory := by
  rw [fetchWord, if_neg (by omega), if_neg (by omega), if_pos hlow]

theorem fetchWord_periph {s : State} {a : Word} (heven : a.toNat % 2 = 0) (h : 0xFF00 ≤ a.toNat) :
    fetchWord s a = .fault .fetchFromPeripheral := by
  rw [fetchWord, if_neg (by omega), if_pos h]

/-- A step stops where the fetch of its instruction word does. -/
theorem step_fetch_fault {s : State} {r : Fault} (h : fetchWord s s.pc = .fault r) :
    step s = .fault r := by
  rw [step, instruction, h, andThen_fault, andThen_fault]

/-- A step of an instruction with an immediate word stops where that word's fetch does (R74). -/
theorem step_immediate_fault {s : State} {w : Word} {k : Word → Instr} {r : Fault}
    (hw : fetchWord s s.pc = .next w) (hk : decodeHead s.cfg w = .long k)
    (h : fetchWord s (s.pc + 2) = .fault r) : step s = .fault r := by
  simp only [step, instruction, hw, andThen_next, hk, h, andThen_fault]

/-! ### Alignment -/

/-- Settles O38: oddness is the first check of a word access and of a fetch, and no check of a byte one. -/
theorem misalignedWordAccessFaults : Obligations.MisalignedWordAccessFaults := by
  unfold Obligations.MisalignedWordAccessFaults
  refine ⟨fun s i ea h hodd => exec_wordFault h (.odd hodd),
    fun s hodd => step_fetch_fault (fetchWord_odd hodd), fun s i ea h => ?_⟩
  rcases exec_byteAccess h with ⟨-, g, he⟩ | ⟨-, v, g, he⟩ <;> rw [he, Ne, andThen_total_eq_fault]
  · exact readByte_ne_misaligned s ea
  · exact writeByte_ne_misaligned s ea v

/-! ### Absent memory, absent registers and the wrong size -/

/-- The word after a fetched one stands two bytes further up, short of a wrap: fetches end below 0xFF00. -/
theorem pc_add_two_toNat {s : State} {w : Word} (hw : fetchWord s s.pc = .next w) :
    (s.pc + 2).toNat = s.pc.toNat + 2 := by
  obtain ⟨⟨-, -, hhigh⟩, -, -⟩ := fetchWord_next hw
  have htwo : (2 : Word).toNat = 2 := rfl
  rw [BitVec.toNat_add, htwo]
  omega

/-- Settles O39: the address alone decides, for reads and stores and for both fetches alike. -/
theorem accessesOutsideMemoryFault : Obligations.AccessesOutsideMemoryFault := by
  unfold Obligations.AccessesOutsideMemoryFault
  refine ⟨fun s i ea h heven => ⟨fun hlow hhigh => ?_, fun hea => ?_, fun hea => ?_⟩,
    fun s i ea h => ⟨fun hlow hhigh => ?_, fun hlow hhigh => ?_, fun hea => ?_⟩,
    fun s heven => ⟨fun hlow hhigh => ?_, fun hlow => ?_, fun w k hw hk => ?_⟩⟩
  · exact exec_wordFault h (.noMemory heven hlow hhigh)
  · obtain ⟨r, hr⟩ := periphAt_byteReg hea
    exact exec_wordFault h (.byteRegister heven (by rcases hea with rfl | rfl <;> decide) r hr)
  · exact exec_wordFault h (.noRegister heven (by omega) (periphAt_nothing (.inr hea)))
  · exact exec_byteFault h (.noMemory hlow hhigh)
  · obtain ⟨r, hr⟩ := periphAt_wordReg hlow hhigh
    exact exec_byteFault h (.wordRegister (by omega) r hr)
  · have hlow : 0xFF00 ≤ ea.toNat := by
      rcases hea with rfl | hea
      · decide
      · omega
    exact exec_byteFault h (.noRegister hlow (periphAt_nothing hea))
  · exact step_fetch_fault (fetchWord_noMemory heven hlow hhigh)
  · exact step_fetch_fault (fetchWord_periph heven hlow)
  · rw [← pc_add_two_toNat hw]
    have heven' : (s.pc + 2).toNat % 2 = 0 := by rw [pc_add_two_toNat hw]; omega
    exact ⟨fun hlow hhigh => step_immediate_fault hw hk (fetchWord_noMemory heven' hlow hhigh),
      fun hlow => step_immediate_fault hw hk (fetchWord_periph heven' hlow)⟩

/-! ### Fetching what was stored (R60) -/

/-- The form's address is the effective address R155 lists. -/
theorem EffectiveAddress.value_eq {s : State} {a : Address} {ea n : Word}
    (h : EffectiveAddress s a ea n) : a.value s = ea := by
  cases h with
  | reg | abs => rfl
  | disp r imm ea h => exact BitVec.eq_of_toNat_eq ((BitVec.toNat_add ..).trans h.symm)

/-- Two below a pointer, modulo 65536. -/
theorem sub_two_eq {x p : Word} (h : p.toNat = (x.toNat + 65534) % 65536) : x - 2 = p := by
  apply BitVec.eq_of_toNat_eq
  rw [h, BitVec.toNat_sub, Nat.add_comm]
  rfl

/-- Where IFETCH_COHERENT refuses, it does so for a word whose first byte the processor has written. -/
theorem fetchWord_selfModified {s : State} {a v : Word} (ha : WordInRam s a) (hv : HoldsWord s a v)
    (hc : s.cfg.ifetchCoherent = .refuseSelfModifying) (hw : a.toNat ∈ s.selfWritten) :
    fetchWord s a = .refused .selfModified := by
  obtain ⟨heven, hlow, hhigh⟩ := ha
  have hcoherent : fetchCoherent s a = false := by simp [fetchCoherent, hc, hw]
  rw [fetchWord, if_neg (by omega), if_neg (by omega), if_neg (by omega), ramWord_holds.mpr hv]
  simp [hcoherent]

theorem fetchWord_coherent {s : State} {a v : Word} (ha : WordInRam s a) (hv : HoldsWord s a v)
    (hc : s.cfg.ifetchCoherent = .yes) : fetchWord s a = .next v :=
  fetchWord_ram ha (ramWord_holds.mpr hv) (by simp [fetchCoherent, hc])

theorem storeRamWord_selfWritten {s : State} (a v : Word)
    (hc : s.cfg.ifetchCoherent = .refuseSelfModifying) : a.toNat ∈ (storeRamWord s a v).selfWritten := by
  simp [storeRamWord, State.storeRam_selfWritten, hc, mem_noteAddress]

/-- A word stored in RAM is fetched as IFETCH_COHERENT says, wherever the pc then stands. -/
theorem storeRamWord_fetchesStored {s : State} {a : Word} (ha : WordInRam s a) (v n : Word) :
    FetchesStored ((storeRamWord s a v).advance n) a v := by
  obtain ⟨heven, hin⟩ := ha
  obtain ⟨hcfg, -⟩ := storeRamWord_frame s a v
  have ha' : WordInRam ((storeRamWord s a v).advance n) a := ⟨heven, inRam_of_cfg hin hcfg⟩
  have hv : HoldsWord ((storeRamWord s a v).advance n) a v := storeRamWord_holds s a v
  unfold FetchesStored
  split
  next hc => exact fetchWord_coherent ha' hv hc
  next hc => exact fetchWord_selfModified ha' hv hc (storeRamWord_selfWritten a v (hcfg ▸ hc))

theorem writeWord_fetchesStored {s u : State} {a v : Word} (ha : WordInRam s a)
    (h : writeWord s a v = .next u) (n : Word) : FetchesStored (u.advance n) a v := by
  rw [writeWord_ram v ha] at h
  obtain rfl := Host.Outcome.next.inj h
  exact storeRamWord_fetchesStored ha v n

/-- PUSH and PUSHLR store the value two below the old pointer. -/
theorem pushStore_fetchesStored {s t : State} {r : Reg} {p v n : Word}
    (hp : p.toNat = ((s.reg r).toNat + 65534) % 65536) (hin : WordInRam s p)
    (h : pushStore r v n (pushPointer r s) = .next t) : FetchesStored t p v := by
  obtain ⟨u, hw, rfl⟩ := pushStore_next h
  rw [pushPointer_reg, sub_two_eq hp] at hw
  exact writeWord_fetchesStored (s := pushPointer r s) hin hw n

/-- Settles O7: ST, PUSH and PUSHLR all end in storing a word of RAM and moving the pc on; PUSH reads its
value after the pointer's update (log 18). -/
theorem storedWordsAreFetched : Obligations.StoredWordsAreFetched := by
  unfold Obligations.StoredWordsAreFetched
  refine ⟨fun _ _ _ => fetchWord_coherent, fun s t d a ea n hea hin h => ?_,
    fun s t r o p hp hin h => ?_, fun _ _ _ => pushStore_fetchesStored⟩
  · rw [exec_stAt] at h
    obtain ⟨u, hw, rfl⟩ := opSt_next h
    rw [hea.value_eq] at hw
    exact writeWord_fetchesStored hin hw _
  · rw [exec_pushAt] at h
    have hstored : FetchesStored t p (o.value (pushPointer r s)) := pushStore_fetchesStored hp hin h
    refine ⟨?_, ?_, ?_⟩
    · rintro w rfl
      exact hstored
    · rintro d rfl hd
      rwa [Operand.value, pushPointer, State.reg_setReg_other s _ hd] at hstored
    · rintro rfl
      rwa [Operand.value, pushPointer_reg, sub_two_eq hp] at hstored

end Sys2Proof.Machine
end

section
/-! PROOFS. The fields of an instruction word (30_encoding.md R71): when a word is the one each format
(R77 to R82) lays out. -/

namespace Sys2Proof

/-! ### Fields as numbers -/

theorem append_toNat {m n : Nat} (x : BitVec m) (y : BitVec n) :
    (x ++ y).toNat = x.toNat * 2 ^ n + y.toNat := by
  rw [BitVec.toNat_append, Nat.shiftLeft_eq, Nat.mul_comm, ← Nat.two_pow_add_eq_or_of_lt y.isLt]

theorem extract_toNat {n : Nat} (w : BitVec n) (k m : Nat) :
    (w.extractLsb' k m).toNat = w.toNat / 2 ^ k % 2 ^ m := by
  rw [BitVec.extractLsb'_toNat, Nat.shiftRight_eq_div_pow]

theorem bit_toNat {n : Nat} (w : BitVec n) (k : Nat) : (w.getLsbD k).toNat = w.toNat / 2 ^ k % 2 := by
  rw [BitVec.getLsbD, Nat.toNat_testBit]

theorem bit_eq_iff {n : Nat} (w : BitVec n) (k : Nat) (b : Bool) :
    w.getLsbD k = b ↔ w.toNat / 2 ^ k % 2 = b.toNat := by
  rw [← bit_toNat]
  cases b <;> cases w.getLsbD k <;> decide

/-- The quotients 30_encoding.md R87's table is written in, as fields of the word. -/
theorem word_div_fields (w : Word) :
    w.toNat / 256 % 64 = opcodeOf w ∧ w.toNat / 64 % 4 = (w.extractLsb' 6 2).toNat ∧
    w.toNat / 128 % 2 = (w.getLsbD 7).toNat ∧ w.toNat / 64 % 2 = (w.getLsbD 6).toNat ∧
    w.toNat % 256 = (dataOf w).toNat ∧ w.toNat / 8 % 8 = (rSField w).toNat ∧
    w.toNat % 8 = (w.extractLsb' 0 3).toNat ∧ w.toNat / 32768 = (immBit w).toNat := by
  simp only [opcodeOf, dataOf, rSField, immBit, extract_toNat, bit_toNat]
  omega

/-! ### Registers, conditions and numbers of a field -/

theorem Reg.toBits_eq_iff {b : BitVec 3} {r : Reg} : b = r.toBits ↔ Reg.ofBits b = r := by
  cases r <;> revert b <;> decide

theorem Cond.toBits_eq_iff {b : BitVec 4} {cond : Cond} : b = cond.toBits ↔ Cond.ofBits b = cond := by
  cases cond <;> revert b <;> decide

/-- Under either STACK_RS_FIELD the pointer's field determines the pointer, since complementing twice
changes nothing. -/
theorem stackField_toBits_eq_iff {c : Config} {b : BitVec 3} {r : Reg} :
    b = stackField c r.toBits ↔ Reg.ofBits (stackField c b) = r := by
  rw [← Reg.toBits_eq_iff, stackField, stackField]
  cases c.stackRsField
  · rfl
  · exact ⟨fun h => by rw [h, BitVec.not_not], fun h => by rw [← h, BitVec.not_not]⟩

/-- The field of LDCP determines its coprocessor register among the sixteen it can name. -/
theorem eq_ofNat_iff {b : BitVec 4} {k : Nat} : k < 16 ∧ b = .ofNat 4 k ↔ b.toNat = k :=
  ⟨fun h => by rw [h.2, BitVec.toNat_ofNat, Nat.mod_eq_of_lt h.1],
   fun h => h ▸ ⟨b.isLt, by rw [BitVec.ofNat_toNat, BitVec.setWidth_eq]⟩⟩

/-- NOT and NEG check the reserved field and the source field at once. -/
theorem sourceField_zero_iff (w : Word) :
    w.extractLsb' 3 5 = 0 ↔ w.extractLsb' 6 2 = 0 ∧ rSField w = 0 := by
  simp only [rSField, ← BitVec.toNat_inj, extract_toNat, BitVec.ofNat_eq_ofNat, BitVec.toNat_ofNat]
  omega

/-! ### The word of a format, by its fields -/

/-- Bit 14 of the word is clear and its opcode is `n` (R71, R72). -/
def OfOpcode (n : Nat) (w : Word) : Prop := w.getLsbD 14 = false ∧ opcodeOf w = n % 64

theorem ofOpcode_iff (n : Nat) (w : Word) :
    OfOpcode n w ↔ w.toNat / 2 ^ 14 % 2 = 0 ∧ w.toNat / 2 ^ 8 % 2 ^ 6 = n % 64 := by
  rw [OfOpcode, opcodeOf, extract_toNat, ← bit_toNat, Bool.toNat_eq_zero]

theorem ofOpcode_of_clear {w : Word} {n : Nat} (h14 : ¬ w.getLsbD 14 = true) (hop : opcodeOf w = n) :
    OfOpcode n w := by
  have hlt : n < 64 := hop ▸ (w.extractLsb' 8 6).isLt
  exact ⟨Bool.eq_false_of_not_eq_true h14, hop.trans (Nat.mod_eq_of_lt hlt).symm⟩

theorem wordRR_eq_iff {imm : Bool} {n : Nat} {rS rD : BitVec 3} {w : Word} :
    wordRR imm n rS rD = w ↔ OfOpcode n w ∧
      immBit w = imm ∧ w.extractLsb' 6 2 = 0 ∧ rSField w = rS ∧ w.extractLsb' 0 3 = rD := by
  have := imm.toNat_lt
  simp only [wordRR, ofOpcode_iff, immBit, rSField, bit_eq_iff, ← BitVec.toNat_inj, extract_toNat,
    append_toNat, BitVec.toNat_ofBool, BitVec.ofNat_eq_ofNat, BitVec.toNat_ofNat]
  omega

theorem wordM_eq_iff {imm : Bool} {n : Nat} {byte disp : Bool} {rS rD : BitVec 3} {w : Word} :
    wordM imm n byte disp rS rD = w ↔ OfOpcode n w ∧ immBit w = imm ∧
      w.getLsbD 7 = byte ∧ w.getLsbD 6 = disp ∧ rSField w = rS ∧ w.extractLsb' 0 3 = rD := by
  have := imm.toNat_lt; have := byte.toNat_lt; have := disp.toNat_lt
  simp only [wordM, ofOpcode_iff, immBit, rSField, bit_eq_iff, ← BitVec.toNat_inj, extract_toNat,
    append_toNat, BitVec.toNat_ofBool, BitVec.toNat_ofNat]
  omega

theorem wordC_eq_iff {imm : Bool} {n : Nat} {cc : BitVec 4} {rD : BitVec 3} {w : Word} :
    wordC imm n cc rD = w ↔ OfOpcode n w ∧
      immBit w = imm ∧ w.getLsbD 7 = false ∧ w.extractLsb' 3 4 = cc ∧ w.extractLsb' 0 3 = rD := by
  have := imm.toNat_lt
  simp only [wordC, ofOpcode_iff, immBit, bit_eq_iff, ← BitVec.toNat_inj, extract_toNat,
    append_toNat, BitVec.toNat_ofBool, BitVec.toNat_ofNat, Bool.toNat_false]
  omega

theorem wordP_eq_iff {n : Nat} {cr : BitVec 4} {rD : BitVec 3} {w : Word} :
    wordP n cr rD = w ↔ OfOpcode n w ∧
      immBit w = false ∧ w.getLsbD 7 = false ∧ w.extractLsb' 3 4 = cr ∧ w.extractLsb' 0 3 = rD :=
  wordC_eq_iff (imm := false)

theorem wordB_eq_iff {r : Nat} {b : Byte} {w : Word} :
    wordB r b = w ↔ OfOpcode (5 + r) w ∧ immBit w = false ∧ dataOf w = b := by
  simp only [wordB, ofOpcode_iff, immBit, dataOf, bit_eq_iff, ← BitVec.toNat_inj, extract_toNat,
    append_toNat, BitVec.toNat_ofNat, Bool.toNat_false]
  omega

theorem wordN_eq_iff {n : Nat} {w : Word} :
    wordN n = w ↔ OfOpcode n w ∧ immBit w = false ∧ dataOf w = 0 := by
  simp only [wordN, ofOpcode_iff, immBit, dataOf, bit_eq_iff, ← BitVec.toNat_inj, extract_toNat,
    append_toNat, BitVec.ofNat_eq_ofNat, BitVec.toNat_ofNat, Bool.toNat_false]
  omega

end Sys2Proof
end

section
/-! PROOFS. The decoder and the encoder agree (30_encoding.md R73, R74, R84, R85): first on the first word,
format by format, then on bytes. -/

namespace Sys2Proof

/-- The decoder's answer to a first word, completed by the words `imms` after it, is the instruction `i`. -/
def Head.Gives (imms : List Word) (i : Instr) : Head → Prop
  | .reserved _ => False
  | .short j => j = i ∧ [] = imms
  | .long k => ∃ imm, k imm = i ∧ [imm] = imms

/-! ### One format: its instructions are read from just the words it lays out -/

section Formats
variable {c : Config} {w : Word} {n : Nat} {imms : List Word} {i : Instr}

/-! In each proof the equation of words becomes one of fields, and each branch of the format's tests fixes
the fields it tests. -/

/-- R77: a register form and an immediate form, whose source field is zero. -/
theorem headRR_gives_iff {short : Reg → Reg → Instr} {long : Reg → Word → Instr} (hw : OfOpcode n w) :
    (headRR w short long).Gives imms i ↔
      (∃ d s, short d s = i ∧ [wordRR false n s.toBits d.toBits] = w :: imms) ∨
      (∃ d imm, long d imm = i ∧ [wordRR true n 0 d.toBits, imm] = w :: imms) := by
  simp only [List.cons.injEq, wordRR_eq_iff, hw, Reg.toBits_eq_iff, true_and]
  unfold headRR
  split_ifs <;> simp_all [Head.Gives, rDOf, rSOf]

/-- PUSH (41_stack.md R120): the immediate form has rD zero. -/
theorem headPush_gives_iff (hw : OfOpcode 3 w) :
    (headPush c w).Gives imms i ↔
      (∃ d s, .pushR d s = i ∧ [wordRR false 3 (stackField c s.toBits) d.toBits] = w :: imms) ∨
      (∃ s imm, .pushI s imm = i ∧ [wordRR true 3 (stackField c s.toBits) 0, imm] = w :: imms) := by
  simp only [List.cons.injEq, wordRR_eq_iff, hw, Reg.toBits_eq_iff, stackField_toBits_eq_iff, true_and]
  unfold headPush
  split_ifs <;> simp_all [Head.Gives, rDOf]

/-- POP (41_stack.md R121): a register form only. -/
theorem headPop_gives_iff (hw : OfOpcode 4 w) :
    (headPop c w).Gives imms i ↔
      ∃ d s, .pop d s = i ∧ [wordRR false 4 (stackField c s.toBits) d.toBits] = w :: imms := by
  simp only [List.cons.injEq, wordRR_eq_iff, hw, Reg.toBits_eq_iff, stackField_toBits_eq_iff, true_and]
  unfold headPop
  split_ifs <;> simp_all [Head.Gives, rDOf]

/-- NOT and NEG (R77, R87): the source field is zero. -/
theorem headR_gives_iff {short : Reg → Instr} (hw : OfOpcode n w) :
    (headR w short).Gives imms i ↔
      ∃ d, short d = i ∧ [wordRR false n 0 d.toBits] = w :: imms := by
  simp only [List.cons.injEq, wordRR_eq_iff, hw, Reg.toBits_eq_iff, true_and]
  simp only [headR, ne_eq, sourceField_zero_iff]
  split_ifs <;> simp_all [Head.Gives, rDOf]

/-- R78: the opcode is 5 plus the register number. -/
theorem headB_gives_iff {short : Byte → Instr} (hw : OfOpcode n w) (hn : 5 ≤ n) :
    (headB w short).Gives imms i ↔ ∃ b, short b = i ∧ [wordB (n - 5) b] = w :: imms := by
  simp only [List.cons.injEq, wordB_eq_iff, Nat.add_sub_cancel' hn, hw, true_and]
  unfold headB
  split_ifs <;> simp_all [Head.Gives]

/-- R79, for one value of the byte flag: the four forms of 44_load_store.md R155 and R154. -/
theorem headM_gives_iff {reg undef : Reg → Reg → Instr} {abs : Reg → Word → Instr}
    {disp : Reg → Reg → Word → Instr} {byte : Bool} (hw : OfOpcode n w) (hb : w.getLsbD 7 = byte) :
    (headM w reg abs disp undef).Gives imms i ↔
      (∃ d s, reg d s = i ∧ [wordM false n byte false s.toBits d.toBits] = w :: imms) ∨
      (∃ d imm, abs d imm = i ∧ [wordM true n byte false 0 d.toBits, imm] = w :: imms) ∨
      (∃ d s imm, disp d s imm = i ∧ [wordM true n byte true s.toBits d.toBits, imm] = w :: imms) ∨
      (∃ d s, undef d s = i ∧ [wordM false n byte true s.toBits d.toBits] = w :: imms) := by
  simp only [List.cons.injEq, wordM_eq_iff, hw, hb, Reg.toBits_eq_iff, true_and]
  unfold headM
  split_ifs <;> simp_all [Head.Gives, rDOf, rSOf]

/-- R80: JMP and CALL. -/
theorem headC_gives_iff {short : Cond → Reg → Instr} {long : Cond → Word → Instr} (hw : OfOpcode n w) :
    (headC w short long).Gives imms i ↔
      (∃ cond d, short cond d = i ∧ [wordC false n cond.toBits d.toBits] = w :: imms) ∨
      (∃ cond imm, long cond imm = i ∧ [wordC true n cond.toBits 0, imm] = w :: imms) := by
  simp only [List.cons.injEq, wordC_eq_iff, hw, Reg.toBits_eq_iff, Cond.toBits_eq_iff, true_and]
  unfold headC
  split_ifs <;> simp_all [Head.Gives, rDOf, ccOf]

/-- SET (R80, R87): a register form only. -/
theorem headSet_gives_iff (hw : OfOpcode 33 w) :
    (headSet w).Gives imms i ↔
      ∃ cond d, .setCc cond d = i ∧ [wordC false 33 cond.toBits d.toBits] = w :: imms := by
  simp only [List.cons.injEq, wordC_eq_iff, hw, Reg.toBits_eq_iff, Cond.toBits_eq_iff, true_and]
  unfold headSet
  split_ifs <;> simp_all [Head.Gives, rDOf, ccOf]

/-- R82: the register field of LDCP holds cr0 to cr15. -/
theorem headP_gives_iff (hw : OfOpcode 29 w) :
    (headP w).Gives imms i ↔
      ∃ d cr, .ldcp d cr = i ∧ cr < 16 ∧ [wordP 29 (.ofNat 4 cr) d.toBits] = w :: imms := by
  simp only [List.cons.injEq, wordP_eq_iff, hw, Reg.toBits_eq_iff, true_and]
  unfold headP
  split_ifs
  · simp_all [Head.Gives]
  · simp_all [Head.Gives]
  · simp_all [Head.Gives, rDOf, -BitVec.extractLsb'_toNat, ← and_assoc (a := _ < _), eq_ofNat_iff]

/-- R81: RET and PUSHLR. -/
theorem headN_gives_iff {j : Instr} (hw : OfOpcode n w) :
    (headN w j).Gives imms i ↔ j = i ∧ [wordN n] = w :: imms := by
  simp only [List.cons.injEq, wordN_eq_iff, hw, true_and]
  unfold headN
  split_ifs <;> simp_all [Head.Gives]

end Formats

/-! ### The opcode map (R84) -/

/-- What is read from a first word is encoded with that first word. The number of a case of the map is its
opcode up to `h_29`, and one less after it, since opcode 30 is not in the map. -/
theorem encodeWords_of_gives {c : Config} {w : Word} {imms : List Word} {i : Instr}
    (h : (decodeHead c w).Gives imms i) : i.wellFormed = true ∧ encodeWords c i = w :: imms := by
  unfold decodeHead at h
  split_ifs at h with h14
  · exact h.elim
  split at h
  case h_1 hop | h_2 hop | h_13 hop | h_14 hop | h_15 hop | h_16 hop | h_21 hop | h_25 hop | h_26 hop
      | h_27 hop | h_28 hop | h_30 hop | h_31 hop | h_33 hop | h_35 hop =>
    rcases (headRR_gives_iff (ofOpcode_of_clear h14 hop)).mp h with
      ⟨d, s, rfl, he⟩ | ⟨d, imm, rfl, he⟩ <;> exact ⟨rfl, he⟩
  case h_3 hop =>
    rcases (headPush_gives_iff (ofOpcode_of_clear h14 hop)).mp h with
      ⟨d, s, rfl, he⟩ | ⟨s, imm, rfl, he⟩ <;> exact ⟨rfl, he⟩
  case h_4 hop =>
    obtain ⟨d, s, rfl, he⟩ := (headPop_gives_iff (ofOpcode_of_clear h14 hop)).mp h
    exact ⟨rfl, he⟩
  case h_5 hop | h_6 hop | h_7 hop | h_8 hop | h_9 hop | h_10 hop | h_11 hop | h_12 hop =>
    obtain ⟨b, rfl, he⟩ := (headB_gives_iff (ofOpcode_of_clear h14 hop) (by decide)).mp h
    exact ⟨rfl, he⟩
  case h_17 hop | h_18 hop =>
    obtain ⟨d, rfl, he⟩ := (headR_gives_iff (ofOpcode_of_clear h14 hop)).mp h
    exact ⟨rfl, he⟩
  case h_19 hop | h_20 hop =>
    simp only [headLd, headSt] at h
    cases hb : w.getLsbD 7 <;> simp only [hb, Bool.false_eq_true, if_false, if_true] at h <;>
      rcases (headM_gives_iff (ofOpcode_of_clear h14 hop) hb).mp h with
        ⟨d, s, rfl, he⟩ | ⟨d, imm, rfl, he⟩ | ⟨d, s, imm, rfl, he⟩ | ⟨d, s, rfl, he⟩ <;>
        exact ⟨rfl, he⟩
  case h_22 hop | h_23 hop =>
    rcases (headC_gives_iff (ofOpcode_of_clear h14 hop)).mp h with
      ⟨cond, d, rfl, he⟩ | ⟨cond, imm, rfl, he⟩ <;> exact ⟨rfl, he⟩
  case h_24 hop | h_34 hop =>
    obtain ⟨rfl, he⟩ := (headN_gives_iff (ofOpcode_of_clear h14 hop)).mp h
    exact ⟨rfl, he⟩
  case h_29 hop =>
    obtain ⟨d, cr, rfl, hcr, he⟩ := (headP_gives_iff (ofOpcode_of_clear h14 hop)).mp h
    exact ⟨decide_eq_true hcr, he⟩
  case h_32 hop =>
    obtain ⟨cond, d, rfl, he⟩ := (headSet_gives_iff (ofOpcode_of_clear h14 hop)).mp h
    exact ⟨rfl, he⟩
  case h_36 => exact h.elim

/-- The first word of an encoding is read back, each constructor by its format. -/
theorem gives_of_encodeWords {c : Config} {w : Word} {imms : List Word} {i : Instr}
    (hi : i.wellFormed = true) (h : encodeWords c i = w :: imms) : (decodeHead c w).Gives imms i := by
  cases i with
  | addR d s | subR d s | movR d s | andR d s | orR d s | xorR d s | cmpR d s | shlR d s | shrR d s | rolR d s
  | rclR d s | adcR d s | sbbR d s | testR d s | sarR d s =>
    obtain ⟨hw, -⟩ := wordRR_eq_iff.mp (List.head_eq_of_cons_eq h)
    rw [decodeHead, hw.1, hw.2]
    exact (headRR_gives_iff hw).mpr (.inl ⟨d, s, rfl, h⟩)
  | addI d imm | subI d imm | movI d imm | andI d imm | orI d imm | xorI d imm | cmpI d imm | shlI d imm
  | shrI d imm | rolI d imm | rclI d imm | adcI d imm | sbbI d imm | testI d imm | sarI d imm =>
    obtain ⟨hw, -⟩ := wordRR_eq_iff.mp (List.head_eq_of_cons_eq h)
    rw [decodeHead, hw.1, hw.2]
    exact (headRR_gives_iff hw).mpr (.inr ⟨d, imm, rfl, h⟩)
  | pushR d s =>
    obtain ⟨hw, -⟩ := wordRR_eq_iff.mp (List.head_eq_of_cons_eq h)
    rw [decodeHead, hw.1, hw.2]
    exact (headPush_gives_iff hw).mpr (.inl ⟨d, s, rfl, h⟩)
  | pushI s imm =>
    obtain ⟨hw, -⟩ := wordRR_eq_iff.mp (List.head_eq_of_cons_eq h)
    rw [decodeHead, hw.1, hw.2]
    exact (headPush_gives_iff hw).mpr (.inr ⟨s, imm, rfl, h⟩)
  | pop d s =>
    obtain ⟨hw, -⟩ := wordRR_eq_iff.mp (List.head_eq_of_cons_eq h)
    rw [decodeHead, hw.1, hw.2]
    exact (headPop_gives_iff hw).mpr ⟨d, s, rfl, h⟩
  | movB0 b | movB1 b | movB2 b | movB3 b | movB4 b | movB5 b | movB6 b | movB7 b =>
    obtain ⟨hw, -⟩ := wordB_eq_iff.mp (List.head_eq_of_cons_eq h)
    rw [decodeHead, hw.1, hw.2]
    exact (headB_gives_iff hw (by decide)).mpr ⟨b, rfl, h⟩
  | notR d | negR d =>
    obtain ⟨hw, -⟩ := wordRR_eq_iff.mp (List.head_eq_of_cons_eq h)
    rw [decodeHead, hw.1, hw.2]
    exact (headR_gives_iff hw).mpr ⟨d, rfl, h⟩
  | ldR d s | ldbR d s | stR d s | stbR d s =>
    obtain ⟨hw, -, hb, -⟩ := wordM_eq_iff.mp (List.head_eq_of_cons_eq h)
    simp only [decodeHead, hw.1, hw.2, headLd, headSt, hb]
    exact (headM_gives_iff hw hb).mpr (.inl ⟨d, s, rfl, h⟩)
  | ldA d imm | ldbA d imm | stA d imm | stbA d imm =>
    obtain ⟨hw, -, hb, -⟩ := wordM_eq_iff.mp (List.head_eq_of_cons_eq h)
    simp only [decodeHead, hw.1, hw.2, headLd, headSt, hb]
    exact (headM_gives_iff hw hb).mpr (.inr (.inl ⟨d, imm, rfl, h⟩))
  | ldD d s imm | ldbD d s imm | stD d s imm | stbD d s imm =>
    obtain ⟨hw, -, hb, -⟩ := wordM_eq_iff.mp (List.head_eq_of_cons_eq h)
    simp only [decodeHead, hw.1, hw.2, headLd, headSt, hb]
    exact (headM_gives_iff hw hb).mpr (.inr (.inr (.inl ⟨d, s, imm, rfl, h⟩)))
  | ldU d s | ldbU d s | stU d s | stbU d s =>
    obtain ⟨hw, -, hb, -⟩ := wordM_eq_iff.mp (List.head_eq_of_cons_eq h)
    simp only [decodeHead, hw.1, hw.2, headLd, headSt, hb]
    exact (headM_gives_iff hw hb).mpr (.inr (.inr (.inr ⟨d, s, rfl, h⟩)))
  | jmpR cond d | callR cond d =>
    obtain ⟨hw, -⟩ := wordC_eq_iff.mp (List.head_eq_of_cons_eq h)
    rw [decodeHead, hw.1, hw.2]
    exact (headC_gives_iff hw).mpr (.inl ⟨cond, d, rfl, h⟩)
  | jmpI cond imm | callI cond imm =>
    obtain ⟨hw, -⟩ := wordC_eq_iff.mp (List.head_eq_of_cons_eq h)
    rw [decodeHead, hw.1, hw.2]
    exact (headC_gives_iff hw).mpr (.inr ⟨cond, imm, rfl, h⟩)
  | setCc cond d =>
    obtain ⟨hw, -⟩ := wordC_eq_iff.mp (List.head_eq_of_cons_eq h)
    rw [decodeHead, hw.1, hw.2]
    exact (headSet_gives_iff hw).mpr ⟨cond, d, rfl, h⟩
  | ldcp d cr =>
    obtain ⟨hw, -⟩ := wordP_eq_iff.mp (List.head_eq_of_cons_eq h)
    rw [decodeHead, hw.1, hw.2]
    exact (headP_gives_iff hw).mpr ⟨d, cr, rfl, of_decide_eq_true hi, h⟩
  | ret | pushLr =>
    obtain ⟨hw, -⟩ := wordN_eq_iff.mp (List.head_eq_of_cons_eq h)
    rw [decodeHead, hw.1, hw.2]
    exact (headN_gives_iff hw).mpr ⟨rfl, h⟩

/-- A first word and its immediate are read as an instruction just when they are its encoding. -/
theorem decodeHead_gives_iff {c : Config} {w : Word} {imms : List Word} {i : Instr} :
    (decodeHead c w).Gives imms i ↔ i.wellFormed = true ∧ encodeWords c i = w :: imms :=
  ⟨encodeWords_of_gives, fun h => gives_of_encodeWords h.1 h.2⟩

/-! ### Bytes -/

@[simp] theorem wordBytes_wordOfBytes (o : ByteOrder) (b0 b1 : Byte) :
    wordBytes o (wordOfBytes o b0 b1) = [b0, b1] := by
  obtain ⟨h0, h1⟩ := (wordOfBytes_eq_iff o b0 b1 _).mp rfl
  rw [wordBytes, ← h0, ← h1]

theorem decode_of_gives {c : Config} {w : Word} {imms : List Word} {i : Instr}
    (h : (decodeHead c w).Gives imms i) (rest : List Byte) :
    decode c ((w :: imms).flatMap (wordBytes c.byteOrder) ++ rest) = .ok i rest := by
  cases hd : decodeHead c w <;> rw [hd] at h
  case reserved => exact h.elim
  case short =>
    obtain ⟨rfl, rfl⟩ := h
    simp [decode, wordBytes, hd]
  case long =>
    obtain ⟨imm, rfl, rfl⟩ := h
    simp [decode, wordBytes, hd]

theorem gives_of_decode {c : Config} {bytes rest : List Byte} {i : Instr}
    (h : decode c bytes = .ok i rest) :
    ∃ w imms, (decodeHead c w).Gives imms i ∧
      (w :: imms).flatMap (wordBytes c.byteOrder) ++ rest = bytes := by
  match bytes with
  | [] | [_] => cases h
  | b0 :: b1 :: tail =>
    refine ⟨wordOfBytes c.byteOrder b0 b1, ?_⟩
    cases hd : decodeHead c (wordOfBytes c.byteOrder b0 b1) <;> simp only [decode, hd, reduceCtorEq] at h
    case short =>
      cases h
      exact ⟨[], ⟨rfl, rfl⟩, by simp⟩
    case long k =>
      match tail with
      | [] | [_] => cases h
      | b2 :: b3 :: tail =>
        cases h
        exact ⟨[wordOfBytes c.byteOrder b2 b3], ⟨_, rfl, rfl⟩, by simp⟩

/-- Settles O2: the first word of the encoding is read back, and the bytes follow. -/
theorem decodeInvertsEncode : Obligations.DecodeInvertsEncode := by
  intro c i rest hi
  obtain ⟨w, imms, h⟩ : ∃ w imms, encodeWords c i = w :: imms := by cases i <;> exact ⟨_, _, rfl⟩
  rw [encode, h]
  exact decode_of_gives (decodeHead_gives_iff.mpr ⟨hi, h⟩) rest

/-- Settles O3: bytes that decode begin with a word that is read, and such a word is an encoding's. -/
theorem encodeInvertsDecode : Obligations.EncodeInvertsDecode := by
  intro c bytes i rest h
  obtain ⟨w, imms, hgives, hbytes⟩ := gives_of_decode h
  obtain ⟨hi, hwords⟩ := decodeHead_gives_iff.mp hgives
  exact ⟨hi, by rw [encode, hwords, hbytes]⟩

/-- Settles O1: each word is closed, and so is each answer. -/
theorem sampleWordsDecode : Obligations.SampleWordsDecode := by
  unfold Obligations.SampleWordsDecode
  decide

end Sys2Proof
end

section
/-! PROOFS. The words that are refused (30_encoding.md R72, R86, R87). -/

namespace Sys2Proof

theorem decodeHead_bit14 {c : Config} {w : Word} (h : w.getLsbD 14 = true) :
    decodeHead c w = .reserved .bit14 := if_pos h

theorem decodeHead_undocumented {c : Config} {w : Word} (h14 : w.getLsbD 14 = false)
    (hop : opcodeOf w = 0 ∨ opcodeOf w = 30 ∨ 37 ≤ opcodeOf w) :
    decodeHead c w = .reserved .opcode := by
  rw [decodeHead, if_neg (by simp only [h14, Bool.false_eq_true, not_false_eq_true])]
  split
  case h_36 => rfl
  all_goals omega

/-- The formats put zero in every field R87 lists, so no word of its table begins an encoding. -/
theorem not_reservedByR87_of_encodeWords {c : Config} {w : Word} {imms : List Word} {i : Instr}
    (h : encodeWords c i = w :: imms) : ¬ Machine.ReservedByR87 w.toNat := by
  simp only [Machine.ReservedByR87, word_div_fields]
  cases i with
  | addR | subR | pushR | pop | movR | andR | orR | xorR | notR | negR | cmpR | shlR | shrR | rolR | rclR
  | adcR | sbbR | testR | sarR | addI | subI | pushI | movI | andI | orI | xorI | cmpI | shlI | shrI | rolI
  | rclI | adcI | sbbI | testI | sarI =>
    obtain ⟨⟨-, hop⟩, himm, hres, hrS, hrD⟩ := wordRR_eq_iff.mp (List.head_eq_of_cons_eq h)
    simp [hop, himm, hres, hrS, hrD]
  | movB0 | movB1 | movB2 | movB3 | movB4 | movB5 | movB6 | movB7 =>
    obtain ⟨⟨-, hop⟩, himm, -⟩ := wordB_eq_iff.mp (List.head_eq_of_cons_eq h)
    simp [hop, himm]
  | ldR | ldbR | stR | stbR | ldA | ldbA | stA | stbA | ldD | ldbD | stD | stbD | ldU | ldbU | stU | stbU =>
    obtain ⟨⟨-, hop⟩, himm, -, hdisp, hrS, -⟩ := wordM_eq_iff.mp (List.head_eq_of_cons_eq h)
    simp [hop, himm, hdisp, hrS]
  | jmpR | jmpI | callR | callI | setCc =>
    obtain ⟨⟨-, hop⟩, himm, hres, -, hrD⟩ := wordC_eq_iff.mp (List.head_eq_of_cons_eq h)
    simp [hop, himm, hres, hrD, -BitVec.getLsbD_eq_getElem]
  | ldcp =>
    obtain ⟨⟨-, hop⟩, himm, hres, -, -⟩ := wordP_eq_iff.mp (List.head_eq_of_cons_eq h)
    simp [hop, himm, hres, -BitVec.getLsbD_eq_getElem]
  | ret | pushLr =>
    obtain ⟨⟨-, hop⟩, himm, hdata⟩ := wordN_eq_iff.mp (List.head_eq_of_cons_eq h)
    simp [hop, himm, hdata]

theorem Head.gives_of_not_reserved {h : Head} (hr : ∀ r, h ≠ .reserved r) :
    ∃ imms i, h.Gives imms i := by
  cases h with
  | reserved r => exact absurd rfl (hr r)
  | short i => exact ⟨[], i, rfl, rfl⟩
  | long k => exact ⟨[0], k 0, 0, rfl, rfl⟩

theorem decodeHead_reservedByR87 {c : Config} {w : Word} (h : Machine.ReservedByR87 w.toNat) :
    ∃ r, decodeHead c w = .reserved r := by
  by_contra hr
  obtain ⟨imms, i, hgives⟩ := Head.gives_of_not_reserved (not_exists.mp hr)
  exact not_reservedByR87_of_encodeWords (decodeHead_gives_iff.mp hgives).2 h

namespace Machine

/-- A step stops where the fetched word is Reserved. -/
theorem step_reserved {s : State} {w : Word} {r : ReservedReason} (hw : fetchWord s s.pc = .next w)
    (h : decodeHead s.cfg w = .reserved r) : step s = .refused (.reserved r) := by
  rw [step, instruction, hw, andThen_next, h, andThen_refused]

/-- Settles O4: bit 14 is examined before the opcode, and the opcode map has no other opcode. -/
theorem undocumentedWordsAreRefused : Obligations.UndocumentedWordsAreRefused := by
  refine fun s w hw => ⟨fun h14 => step_reserved hw (decodeHead_bit14 ((bit_eq_iff ..).mpr h14)),
    fun h14 hop => step_reserved hw (decodeHead_undocumented ((bit_eq_iff ..).mpr h14) ?_)⟩
  rwa [(word_div_fields w).1] at hop

/-- Settles O5: a word that is not refused begins an encoding, and no word of R87's table does. -/
theorem reservedFieldsAreRefused : Obligations.ReservedFieldsAreRefused := by
  intro s w hw h
  obtain ⟨r, hr⟩ := decodeHead_reservedByR87 h
  exact ⟨r, step_reserved hw hr⟩

end Machine

end Sys2Proof
end

section
/-! PROOFS. CMP and TEST, which keep the flags of a result and drop its value (40_arithmetic.md R105;
43_logic.md R144), and arithmetic on two words through C (40_arithmetic.md R107). -/

namespace Sys2Proof.Machine

/-! ### CMP and TEST -/

/-- Where one instruction writes the flags of a result and another the whole result, the first sets the
flags the second sets and changes no register. -/
theorem writeFlags_next {x y : Result State} {s : State} {d : Reg} {a : AluResult} {n : Word}
    {P : Word → Flags → Prop} (hx : x = .next (writeFlags s a n)) (hy : y = .next (writeResult s d a n))
    (h : P a.value a.flags) :
    ∃ t u, x = .next t ∧ y = .next u ∧ t.flags = u.flags ∧ P (u.reg d) t.flags ∧ t.pc = s.pc + n ∧
      OnlyRegisters [] s t :=
  ⟨_, _, hx, hy, rfl, by simpa using h, rfl, writeFlags_frame s a n⟩

/-- Settles O17: CMP keeps the flags of SUB's result, TEST those of AND's. -/
theorem cmpAndTestOnlySetFlags : Obligations.CmpAndTestOnlySetFlags := by
  unfold Obligations.CmpAndTestOnlySetFlags
  intro s d o
  constructor
  · exact writeFlags_next (exec_cmp d o s) (exec_sub d o s) (subFlags_spec s.cfg (s.reg d) (o.value s) false)
  · obtain ⟨hval, hflags⟩ := logicFlags_spec (s.reg d &&& o.value s)
    obtain ⟨t, u, ht, hu, heq, ⟨hreg, hsay⟩, hrest⟩ :=
      writeFlags_next (P := fun r f => r = s.reg d &&& o.value s ∧ FlagsSay f r False False)
        (exec_test d o s) (exec_and d o s) ⟨hval, hflags⟩
    exact ⟨t, u, ht, hu, heq, fun k _ => by rw [hreg, BitVec.getLsbD_and], hsay, hrest⟩

/-! ### Two words at a time -/

/-- Z and S of a result, said of the word and of its signed value. -/
theorem FlagsSay.zero_and_sign {f : Flags} {r : Word} {c v : Prop} (h : FlagsSay f r c v) :
    (f.z = true ↔ r = 0) ∧ (f.s = true ↔ r.toInt < 0) := by
  obtain ⟨hz, hs, -, -⟩ := h
  refine ⟨hz.trans (BitVec.toNat_inj (y := 0)), hs.trans ?_⟩
  rcases toInt_cases r with ⟨_, h⟩ | ⟨_, h⟩ <;> omega

/-- The sum without its reduction modulo 65536: the carry-in ADC takes from C stands for 65536. -/
theorem SumIs.carry_eq {cfg : Config} {a b r : Word} {cin : Nat} {f : Flags} (h : SumIs cfg a b cin r f)
    (hcin : cin ≤ 1) :
    a.toNat + b.toNat + cin = (if f.c then 1 else 0) * 65536 + r.toNat := by
  obtain ⟨hr, -, -, hc, -⟩ := h
  have ha := a.isLt
  have hb := b.isLt
  simp only [hc]
  split <;> omega

/-- The borrow-in SBB takes from C is the borrow of the difference that left it there, under either setting
of SUB_CARRY. -/
theorem DifferenceIs.borrowIn_eq {t : State} {a b r : Word} {bin : Nat}
    (h : DifferenceIs t.cfg a b bin r t.flags) :
    borrowIn t = if a.toNat < b.toNat + bin then 1 else 0 := by
  obtain ⟨-, -, -, hc, -⟩ := h
  unfold CarrySaysBorrow at hc
  unfold borrowIn
  cases hcfg : t.cfg.subCarry <;> simp only [hcfg] at hc ⊢ <;> simp only [hc, ite_not]

/-- The difference without its reduction modulo 65536: the borrow-in SBB takes from C stands for 65536. -/
theorem DifferenceIs.borrow_eq {t : State} {a b r : Word} {bin : Nat}
    (h : DifferenceIs t.cfg a b bin r t.flags) (hbin : bin ≤ 1) :
    (a.toNat : Int) - b.toNat - bin = r.toNat - borrowIn t * 65536 := by
  have ha := a.isLt
  have hb := b.isLt
  have hr := h.1
  rw [h.borrowIn_eq]
  split <;> omega

/-- Whether an integer above a low word fits 32 signed bits does not depend on the low word. -/
theorem outOfRange_iff_pair (t : Int) (low : Word) :
    OutOfRange t ↔ ¬ (-2147483648 ≤ t * 65536 + low.toNat ∧ t * 65536 + low.toNat ≤ 2147483647) := by
  have hlow := low.isLt
  unfold OutOfRange
  omega

/-- A sum whose carry-in is the carry of the sum of the low words is the 32 bit sum (40_arithmetic.md
R107). -/
theorem SumIs.pair {cfg : Config} {al ah bl bh rl rh : Word} {fl fh : Flags} (hl : SumIs cfg al bl 0 rl fl)
    (hh : SumIs cfg ah bh (if fl.c then 1 else 0) rh fh) :
    rh.toNat * 65536 + rl.toNat =
      (ah.toNat * 65536 + al.toNat + (bh.toNat * 65536 + bl.toNat)) % 4294967296 ∧
    (fh.c = true ↔ 4294967296 ≤ ah.toNat * 65536 + al.toNat + (bh.toNat * 65536 + bl.toNat)) ∧
    (cfg.vRule = .signedOverflow →
      (fh.v = true ↔
        ¬ (-2147483648 ≤ ah.toInt * 65536 + al.toNat + (bh.toInt * 65536 + bl.toNat) ∧
          ah.toInt * 65536 + al.toNat + (bh.toInt * 65536 + bl.toNat) ≤ 2147483647))) := by
  have hlow := hl.carry_eq (Nat.zero_le 1)
  have hrl := rl.isLt
  generalize (if fl.c then 1 else 0) = carry at hlow hh
  obtain ⟨hsum, -, -, hc, hv⟩ := hh
  refine ⟨by omega, hc.trans (by omega), fun hrule => ?_⟩
  rw [AddOverflows, hrule] at hv
  have hwide : ah.toInt * 65536 + al.toNat + (bh.toInt * 65536 + bl.toNat) =
      (ah.toInt + bh.toInt + carry) * 65536 + rl.toNat := by omega
  rw [hwide]
  exact hv.trans (outOfRange_iff_pair _ rl)

/-- A difference whose borrow-in is the borrow of the difference of the low words is the 32 bit difference
(40_arithmetic.md R107). -/
theorem DifferenceIs.pair {t : State} {al ah bl bh rl rh : Word} {fh : Flags}
    (hl : DifferenceIs t.cfg al bl 0 rl t.flags) (hh : DifferenceIs t.cfg ah bh (borrowIn t) rh fh) :
    (rh.toNat * 65536 + rl.toNat : Int) =
      ((ah.toNat * 65536 + al.toNat : Int) - (bh.toNat * 65536 + bl.toNat)) % 4294967296 ∧
    (fh.c = true ↔
      CarrySaysBorrow t.cfg (ah.toNat * 65536 + al.toNat < bh.toNat * 65536 + bl.toNat)) ∧
    (fh.v = true ↔
      ¬ (-2147483648 ≤ ah.toInt * 65536 + al.toNat - (bh.toInt * 65536 + bl.toNat) ∧
        ah.toInt * 65536 + al.toNat - (bh.toInt * 65536 + bl.toNat) ≤ 2147483647)) := by
  have hlow := hl.borrow_eq (Nat.zero_le 1)
  have hrl := rl.isLt
  obtain ⟨hdiff, -, -, hc, hv⟩ := hh
  have hborrow : ah.toNat < bh.toNat + borrowIn t ↔
      ah.toNat * 65536 + al.toNat < bh.toNat * 65536 + bl.toNat := by omega
  have hwide : ah.toInt * 65536 + al.toNat - (bh.toInt * 65536 + bl.toNat) =
      (ah.toInt - bh.toInt - borrowIn t) * 65536 + rl.toNat := by omega
  refine ⟨by omega, by rwa [← hborrow], ?_⟩
  rw [hwide]
  exact hv.trans (outOfRange_iff_pair _ rl)

/-- Settles O18: the second instruction works on the high words as the first found them, with the carry or
borrow the first left in C, and keeps the low word of the result. -/
theorem multiWordArithmetic : Obligations.MultiWordArithmetic := by
  unfold Obligations.MultiWordArithmetic
  intro s dl dh sl sh hd hs
  have hdl : dl ∉ [dh] := by simpa using hd.symm
  have hdh : dh ∉ [dl] := by simpa using hd
  have hsh : sh ∉ [dl] := by simpa using hs
  constructor
  · obtain ⟨t, ht, hlow, -, htf⟩ := (addAndAdcComputeTheSum s dl (.reg sl)).1
    obtain ⟨u, hu, hhigh, -, huf⟩ := (addAndAdcComputeTheSum t dh (.reg sh)).2
    simp only [Operand.value] at hlow hhigh
    rw [htf.world.cfg, htf.regs dh hdh, htf.regs sh hsh] at hhigh
    rw [← huf.regs dl hdl] at hlow
    obtain ⟨hval, hc, hv⟩ := hlow.pair hhigh
    exact ⟨t, u, ht, hu, hval, hc, hv, hhigh.2.zero_and_sign⟩
  · obtain ⟨t, ht, hlow, -, htf⟩ := (subAndSbbComputeTheDifference s dl (.reg sl)).1
    obtain ⟨u, hu, hhigh, -, huf⟩ := (subAndSbbComputeTheDifference t dh (.reg sh)).2
    simp only [Operand.value] at hlow hhigh
    rw [htf.regs dh hdh, htf.regs sh hsh] at hhigh
    rw [← huf.regs dl hdl, ← htf.world.cfg] at hlow
    obtain ⟨hval, hc, hv⟩ := hlow.pair hhigh
    rw [htf.world.cfg] at hc
    exact ⟨t, u, ht, hu, hval, hc, hv, hhigh.2.zero_and_sign⟩

end Sys2Proof.Machine
end

section
/-! PROOFS. The instructions that keep the flags (10_state.md, index of flag writers). -/

namespace Sys2Proof.Machine

/-! ### Accesses and shared operations that keep the flags -/

section KeptFlags
variable {s t : State} {d r : Reg} {a : Address}

theorem writeByte_flags {p : Word} {v : Byte} (h : writeByte s p v = .next t) : t.flags = s.flags := by
  rcases writeByte_next h with ⟨_, -, -, hr⟩ | ⟨-, rfl⟩
  · exact (writeByteReg_same hr).flags
  · exact State.storeRam_flags ..

theorem storeRamWord_flags (s : State) (p v : Word) : (storeRamWord s p v).flags = s.flags := by
  simp only [storeRamWord, State.storeRam_flags]

theorem writeWord_flags {p v : Word} (h : writeWord s p v = .next t) : t.flags = s.flags := by
  rcases writeWord_next h with ⟨_, -, -, -, hr⟩ | ⟨-, rfl⟩
  · exact (writeWordReg_same hr).flags
  · exact storeRamWord_flags s p v

theorem opMove_flags {v n : Word} (h : opMove d v n s = .next t) : t.flags = s.flags := by
  cases h; rfl

/-- LDCP is a move, from a state that may have drawn a free value. -/
theorem execLdcp_flags {cr : Nat} (h : execLdcp d cr s = .next t) : t.flags = s.flags := by
  unfold execLdcp at h
  split at h
  · exact opMove_flags h
  · split at h
    · exact (opMove_flags h).trans (State.drawn_flags s 1)
    · cases h

theorem opLd_flags (h : opLd d a s = .next t) : t.flags = s.flags := by
  obtain ⟨_, _, hr, rfl⟩ := opLd_next h
  exact (readWord_same hr).flags

theorem opLdb_flags (h : opLdb d a s = .next t) : t.flags = s.flags := by
  obtain ⟨b, u, hr, rfl⟩ := opLdb_next h
  have hu : (ldbValue u b).2.flags = u.flags := by
    rcases ldbValue_cases u b with hv | hv <;> rw [hv]
    rfl
  exact hu.trans (readByte_same hr).flags

theorem opSt_flags (h : opSt d a s = .next t) : t.flags = s.flags := by
  obtain ⟨_, hw, rfl⟩ := opSt_next h
  exact (State.advance_flags ..).trans (writeWord_flags hw)

theorem opStb_flags (h : opStb d a s = .next t) : t.flags = s.flags := by
  obtain ⟨_, hw, rfl⟩ := opStb_next h
  exact (State.advance_flags ..).trans (writeByte_flags hw)

@[simp] theorem pushPointer_flags (r : Reg) (s : State) : (pushPointer r s).flags = s.flags := rfl

theorem pushStore_flags {v n : Word} (h : pushStore r v n (pushPointer r s) = .next t) :
    t.flags = s.flags := by
  obtain ⟨_, hw, rfl⟩ := pushStore_next h
  rw [State.advance_flags, writeWord_flags hw, pushPointer_flags]

theorem execPop_flags (h : execPop d r s = .next t) : t.flags = s.flags := by
  obtain ⟨_, _, hr, rfl⟩ := execPop_next h
  exact (readWord_same hr).flags

theorem jumpTo_flags {v : Word} (h : jumpTo v s = .next t) : t.flags = s.flags := by
  obtain ⟨-, rfl⟩ := jumpTo_next h
  rfl

theorem opJmp_flags {cond : Cond} {o : Operand} (h : opJmp cond o s = .next t) : t.flags = s.flags := by
  rcases opJmp_next h with ⟨-, -, rfl⟩ | ⟨-, rfl⟩ <;> rfl

theorem opCall_flags {cond : Cond} {o : Operand} (h : opCall cond o s = .next t) :
    t.flags = s.flags := by
  rcases opCall_next h with ⟨-, -, rfl⟩ | ⟨-, rfl⟩ <;> rfl

end KeptFlags

/-! ### Every instruction that is not a flag writer -/

/-- Settles O12: what is left beside the flag writers is built over the operations above; the last case
holds the flag writers. -/
theorem onlyFlagWritersChangeFlags : Obligations.OnlyFlagWritersChangeFlags := by
  unfold Obligations.OnlyFlagWritersChangeFlags
  intro i s t h hw
  cases i with
  | movB0 | movB1 | movB2 | movB3 | movB4 | movB5 | movB6 | movB7 | movR | movI | setCc =>
    exact opMove_flags h
  | ldcp => exact execLdcp_flags h
  | ldR | ldA | ldD => exact opLd_flags h
  | ldbR | ldbA | ldbD => exact opLdb_flags h
  | stR | stA | stD => exact opSt_flags h
  | stbR | stbA | stbD => exact opStb_flags h
  | ldU | ldbU | stU | stbU => cases h
  | pushR | pushI | pushLr => exact pushStore_flags h
  | pop => exact execPop_flags h
  | jmpR | jmpI => exact opJmp_flags h
  | callR | callI => exact opCall_flags h
  | ret => exact jumpTo_flags h
  | _ => cases hw

end Sys2Proof.Machine
end

section
/-! PROOFS. The stack (41_stack.md R120 to R122): one rule for the store of PUSH and PUSHLR and one for POP,
at a pointer into RAM and at one to a 16 bit peripheral register. -/

namespace Sys2Proof.Machine

/-! ### The pointer moved down -/

theorem pushPointer_reg_other (s : State) {r q : Reg} (h : q ≠ r) : (pushPointer r s).reg q = s.reg q :=
  State.reg_setReg_other s _ h

/-- Moving the pointer changes no other register and no byte of RAM. -/
theorem pushPointer_frame (r : Reg) (s : State) (p n : Nat) :
    OnlyRegistersAndRam [r] p n s (pushPointer r s) where
  regs _ hq := pushPointer_reg_other s (List.ne_of_not_mem_cons hq)
  flags := pushPointer_flags r s
  lr := rfl
  ram _ _ := rfl
  world := ⟨rfl, fun _ => rfl, rfl, rfl, rfl⟩

/-! ### The store of PUSH and PUSHLR -/

/-- Where the word can be written, the store completes and the pc moves on. -/
theorem pushStore_of_writeWord {r : Reg} {s u : State} {p v : Word} (hp : s.reg r - 2 = p)
    (h : writeWord (pushPointer r s) p v = .next u) (n : Word) :
    pushStore r v n (pushPointer r s) = .next (u.advance n) := by
  rw [pushStore, pushPointer_reg, hp, h, andThen_next]

/-- A word stored within the bytes a frame leaves open, and the pc moved on, stay within the frame. -/
theorem OnlyRegistersAndRam.storeWord {rs : List Reg} {p : Word} {s t : State}
    (h : OnlyRegistersAndRam rs p.toNat 2 s t) (v n : Word) :
    OnlyRegistersAndRam rs p.toNat 2 s ((storeRamWord t p v).advance n) := by
  obtain ⟨hcfg, hregs, -, hlr, hflags, hperiph, hext, hagenda, houtput, -⟩ := storeRamWord_frame t p v
  refine ⟨fun q hq => ?_, hflags.trans h.flags, hlr.trans h.lr, fun a ha => ?_,
    ⟨hperiph.trans h.world.periph, fun a => ?_, hcfg.trans h.world.cfg, hagenda.trans h.world.agenda,
      houtput.trans h.world.output⟩⟩
  · rw [State.reg_advance, State.reg, hregs]
    exact h.regs q hq
  · rw [State.ramByte_advance, ramByte_storeRamWord, if_neg (by omega), if_neg (by omega)]
    exact h.ram a ha
  · rw [State.extByte_advance, State.extByte, hext]
    exact h.world.ext a

/-- A push to RAM: the pointer is two lower, the word there is the value, and nothing else changes. -/
theorem pushStore_ram {s : State} {r : Reg} {p : Word} (hp : p.toNat = ((s.reg r).toNat + 65534) % 65536)
    (hin : WordInRam s p) (v n : Word) :
    ∃ t, pushStore r v n (pushPointer r s) = .next t ∧ t.reg r = p ∧ HoldsWord t p v ∧
      t.pc = s.pc + n ∧ OnlyRegistersAndRam [r] p.toNat 2 s t := by
  have hptr : s.reg r - 2 = p := sub_two_eq hp
  have hw : writeWord (pushPointer r s) p v = .next (storeRamWord (pushPointer r s) p v) :=
    writeWord_ram v hin
  obtain ⟨-, hregs, hpc, -⟩ := storeRamWord_frame (pushPointer r s) p v
  refine ⟨_, pushStore_of_writeWord hptr hw n, ?_, storeRamWord_holds _ p v, congrArg (· + n) hpc,
    (pushPointer_frame r s p.toNat 2).storeWord v n⟩
  rw [State.reg_advance, State.reg, hregs]
  exact (pushPointer_reg r s).trans hptr

/-- Settles O41: PUSH's value is read after the pointer's update (log 18), which a register other than the
pointer does not see. -/
theorem pushStoresBelowThePointer : Obligations.PushStoresBelowThePointer := by
  unfold Obligations.PushStoresBelowThePointer
  intro s r o p hp hin
  obtain ⟨t, ht, hptr, hheld, hpc, hframe⟩ := pushStore_ram hp hin (o.value (pushPointer r s)) o.size
  refine ⟨t, (exec_pushAt r o s).trans ht, hptr, ?_, ?_, ?_, hpc, hframe⟩
  · rintro w rfl
    exact hheld
  · rintro d rfl hd
    rwa [Operand.value, pushPointer_reg_other s hd] at hheld
  · rintro rfl
    rwa [Operand.value, pushPointer_reg, sub_two_eq hp] at hheld

/-- Settles O43: PUSHLR is the push of LR through r7. -/
theorem pushLrStoresTheLinkRegister : Obligations.PushLrStoresTheLinkRegister := by
  unfold Obligations.PushLrStoresTheLinkRegister
  intro s p hp hin
  exact pushStore_ram hp hin s.lr 2

/-! ### POP -/

theorem pop_frame (s : State) (d r : Reg) (v w n : Word) :
    OnlyRegisters [d, r] s (((s.setReg d v).setReg r w).advance n) where
  regs q hq := by
    obtain ⟨hqd, hqr⟩ : q ≠ d ∧ q ≠ r := by simpa using hq
    rw [State.reg_advance, State.reg_setReg_other _ _ hqr, State.reg_setReg_other _ _ hqd]
  lr := rfl
  ram _ := rfl
  selfWritten := rfl
  world := ⟨rfl, fun _ => rfl, rfl, rfl, rfl⟩

/-- A POP whose word is read without a change of state: rD is written before the pointer is advanced, so a
POP of its own pointer advances the value read (log 18). -/
theorem pop_of_readWord {s : State} {r : Reg} {v : Word} (h : readWord s (s.reg r) = .next (v, s))
    (d : Reg) :
    ∃ t, exec (.pop d r) s = .next t ∧ (d ≠ r → t.reg d = v ∧ t.reg r = s.reg r + 2) ∧
      (d = r → t.reg r = v + 2) ∧ t.flags = s.flags ∧ t.pc = s.pc + 2 ∧ OnlyRegisters [d, r] s t := by
  have hpop : execPop d r s =
      .next (((s.setReg d v).setReg r ((s.setReg d v).reg r + 2)).advance 2) := by
    rw [execPop, h, andThen_next]
  refine ⟨_, hpop, fun hd => ⟨?_, ?_⟩, ?_, rfl, rfl, pop_frame s d r v _ 2⟩
  · rw [State.reg_advance, State.reg_setReg_other _ _ hd, State.reg_setReg_same]
  · rw [State.reg_advance, State.reg_setReg_same, State.reg_setReg_other _ _ hd.symm]
  · rintro rfl
    rw [State.reg_advance, State.reg_setReg_same, State.reg_setReg_same]

/-- Settles O42: the word at the pointer is read from RAM, which changes nothing. -/
theorem popLoadsAtThePointer : Obligations.PopLoadsAtThePointer := by
  unfold Obligations.PopLoadsAtThePointer
  intro s d r v hin hv
  obtain ⟨t, ht, hother, hown, hrest⟩ := pop_of_readWord (readWord_ram hin hv) d
  refine ⟨t, ht, fun hd => ?_, fun hd => ?_, hrest⟩
  · obtain ⟨hval, hptr⟩ := hother hd
    exact ⟨hval, by rw [hptr]; exact BitVec.toNat_add ..⟩
  · rw [hown hd]
    exact BitVec.toNat_add ..

/-- Settles O44: POP finds the pointer where PUSH left it, and there the word PUSH stored. -/
theorem pushThenPopRestores : Obligations.PushThenPopRestores := by
  unfold Obligations.PushThenPopRestores
  intro s x y p hxp hyp _ hin
  have hp : (s.reg p - 2).toNat = ((s.reg p).toNat + 65534) % 65536 := by
    rw [BitVec.toNat_sub, Nat.add_comm]; rfl
  obtain ⟨t, ht, hptr, -, hheld, -, -, hpush⟩ := pushStoresBelowThePointer s p (.reg x) _ hp hin
  have hin' : WordInRam t (t.reg p) := by
    obtain ⟨heven, hram⟩ := hin
    rw [hptr]
    exact ⟨heven, inRam_of_cfg hram hpush.world.cfg⟩
  have hheld' : HoldsWord t (t.reg p) (s.reg x) := by rw [hptr]; exact hheld x rfl hxp
  obtain ⟨u, hu, hother, -, hflags, -, hpop⟩ := pop_of_readWord (readWord_ram hin' hheld') y
  obtain ⟨hval, hback⟩ := hother hyp
  have hback' : u.reg p = s.reg p := by rw [hback, hptr, BitVec.sub_add_cancel]
  refine ⟨t, u, ht, hu, hval, hback', fun q hq => ?_, hflags.trans hpush.flags⟩
  by_cases hqp : q = p
  · rw [hqp, hback']
  · rw [hpop.regs q (by simp [hq, hqp]), hpush.regs q (by simp [hqp])]

/-! ### A pointer to IO_UART_BAUD (60_exceptions.md R217) -/

theorem readWord_uartBaud (s : State) : readWord s 0xFF04 = .next (s.periph.uartBaud, s) := rfl

theorem writeWord_uartBaud (s : State) (v : Word) :
    writeWord s 0xFF04 v = .next (s.setPeriph { s.periph with uartBaud := v }) := rfl

/-- A push from 0xFF06 sets the divisor: the pointer is two lower, and nothing else changes. -/
theorem pushStore_uartBaud {s : State} {r : Reg} (hr : s.reg r = 0xFF06) (v n : Word) :
    ∃ t, pushStore r v n (pushPointer r s) = .next t ∧ t.reg r = 0xFF04 ∧
      t.periph = { s.periph with uartBaud := v } ∧ t.pc = s.pc + n ∧
      OnlyRegistersAndDevices [r] s t := by
  have hptr : s.reg r - 2 = 0xFF04 := by rw [hr]; rfl
  exact ⟨_, pushStore_of_writeWord hptr (writeWord_uartBaud _ v) n, (pushPointer_reg r s).trans hptr, rfl, rfl,
    { regs := fun _ hq => pushPointer_reg_other s (List.ne_of_not_mem_cons hq)
      flags := rfl, lr := rfl, ram := fun _ => rfl, selfWritten := rfl, ext := fun _ => rfl
      cfg := rfl, agenda := rfl }⟩

/-- Settles O45: each push is the store of its value at IO_UART_BAUD, and POP reads the divisor without a
change of state. -/
theorem stackReachesWordRegisters : Obligations.StackReachesWordRegisters := by
  unfold Obligations.StackReachesWordRegisters
  intro s r
  refine ⟨fun w hr => pushStore_uartBaud hr w 4, fun d hd hr => ?_,
    fun hr => pushStore_uartBaud hr s.lr 2, fun d hd hr => ?_⟩
  · obtain ⟨t, ht, hptr, hbaud, hrest⟩ := pushStore_uartBaud hr ((pushPointer r s).reg d) 2
    rw [pushPointer_reg_other s hd] at hbaud
    exact ⟨t, ht, hptr, hbaud, hrest⟩
  · have hread : readWord s (s.reg r) = .next (s.periph.uartBaud, s) := by
      rw [hr]; exact readWord_uartBaud s
    obtain ⟨t, ht, hother, -, hrest⟩ := pop_of_readWord hread d
    obtain ⟨hval, hptr⟩ := hother hd
    exact ⟨t, ht, hval, by rw [hptr, hr]; rfl, hrest⟩

end Sys2Proof.Machine
end

section
/-! PROOFS. The moves (42_move.md R130 to R132) and SET (R134): one rule for the register write they share,
and the value each one writes. -/

namespace Sys2Proof.Machine

/-- What a move leaves: its value in rD, the pc at the next instruction, and all else, the flags too, as it
was. -/
theorem opMove_next {x : Result State} {s : State} {d : Reg} {v n : Word} (hx : x = opMove d v n s) :
    ∃ t, x = .next t ∧ t.reg d = v ∧ t.flags = s.flags ∧ t.pc = s.pc + n ∧ OnlyRegisters [d] s t :=
  ⟨_, hx, State.reg_setReg_same s d v, rfl, rfl, opMove_frame s d v n⟩

/-! ### The value of the byte MOV -/

theorem movbValue_zero {cfg : Config} (h : cfg.movbExtend = .zero) (b : Byte) : movbValue cfg b = zext b := by
  rw [movbValue, h]

theorem movbValue_sign {cfg : Config} (h : cfg.movbExtend = .sign) (b : Byte) : movbValue cfg b = sext b := by
  rw [movbValue, h]

theorem zext_toNat (b : Byte) : (zext b).toNat = b.toNat :=
  BitVec.toNat_setWidth_of_le (by decide)

theorem sext_toInt (b : Byte) : (sext b).toInt = b.toInt :=
  BitVec.toInt_signExtend_of_le (by decide)

/-- A word below 256 is its low byte, zero extended. -/
theorem zext_low_byte {w : Word} (h : w.toNat < 256) : zext (w.extractLsb' 0 8) = w := by
  apply BitVec.eq_of_toNat_eq
  rw [zext_toNat, BitVec.extractLsb'_toNat, Nat.shiftRight_zero, Nat.mod_eq_of_lt h]

/-! ### MOV -/

/-- Settles O28: every MOV is a move, of op2 or of the byte extended by MOVB_EXTEND. -/
theorem movCopiesItsOperand : Obligations.MovCopiesItsOperand := by
  unfold Obligations.MovCopiesItsOperand
  intro s d o b
  refine ⟨opMove_next (exec_movAt d o s), ?_⟩
  obtain ⟨t, ht, hval, hrest⟩ := opMove_next (exec_movbAt d b s)
  refine ⟨t, ht, fun hzero => ?_, fun hsign => ?_, hrest⟩
  · rw [hval, movbValue_zero hzero, zext_toNat]
  · rw [hval, movbValue_sign hsign, sext_toInt]

/-- Settles O29: both are moves of the same word; only the sizes, 2 and 4 bytes, differ. -/
theorem movEncodingsAgree : Obligations.MovEncodingsAgree := by
  unfold Obligations.MovEncodingsAgree
  intro s d w hw hzero
  have hbyte : exec (movbAt d (w.extractLsb' 0 8)) s = opMove d w 2 s := by
    rw [exec_movbAt, movbValue_zero hzero, zext_low_byte hw]
  have hpc : s.pc + 4 = s.pc + 2 + 2 := (BitVec.add_assoc s.pc 2 2).symm
  exact ⟨_, _, hbyte, exec_movAt d (.imm w) s, hpc, rfl⟩

/-! ### SET -/

theorem exec_setCc (cond : Cond) (d : Reg) (s : State) :
    exec (.setCc cond d) s = opMove d (if condHolds s.cfg cond s.flags then 1 else 0) 2 s := rfl

/-- Settles O31: SET moves the number its condition stands for, and the condition is the Expression column
(45_control.md R160). -/
theorem setMaterialisesTheCondition : Obligations.SetMaterialisesTheCondition := by
  unfold Obligations.SetMaterialisesTheCondition
  intro s cond d
  obtain ⟨t, ht, hval, hrest⟩ := opMove_next (exec_setCc cond d s)
  rw [← condHolds_iff]
  exact ⟨t, ht, fun hc => by rw [hval, if_pos hc], fun hc => by rw [hval, if_neg hc], hrest⟩

end Sys2Proof.Machine
end

section
/-! PROOFS. AND, OR, XOR, NOT and ROL (43_logic.md R140 to R143; 10_state.md R24): one rule for the result
they write back with LogicFlags, and what the conditions say once C and V are clear (43_logic.md R145). -/

namespace Sys2Proof.Machine

/-! ### Results written back with LogicFlags -/

/-- What a logic instruction leaves: its result in rD, the flags of that result with C and V clear, the pc
at the next instruction, and all else as it was. -/
theorem logicResult_next {x : Result State} {s : State} {d : Reg} {r n : Word}
    (hx : x = .next (writeResult s d (logicFlags r) n)) :
    ∃ t, x = .next t ∧ t.reg d = r ∧ FlagsSay t.flags (t.reg d) False False ∧ t.pc = s.pc + n ∧
      OnlyRegisters [d] s t := by
  obtain ⟨hval, hflags⟩ := logicFlags_spec r
  obtain ⟨t, ht, ⟨hreg, hsay⟩, hrest⟩ :=
    writeResult_next (P := fun w f => w = r ∧ FlagsSay f r False False) hx ⟨hval, hflags⟩
  exact ⟨t, ht, hreg, by rwa [hreg], hrest⟩

/-- The same for a result known bit by bit. -/
theorem logicResult_bits {x : Result State} {s : State} {d : Reg} {r n : Word} {bit : Nat → Bool}
    (hx : x = .next (writeResult s d (logicFlags r) n)) (hbit : ∀ k, k < 16 → r.getLsbD k = bit k) :
    ∃ t, x = .next t ∧ (∀ k, k < 16 → (t.reg d).getLsbD k = bit k) ∧
      FlagsSay t.flags (t.reg d) False False ∧ t.pc = s.pc + n ∧ OnlyRegisters [d] s t := by
  obtain ⟨t, ht, hreg, hrest⟩ := logicResult_next hx
  exact ⟨t, ht, by rwa [hreg], hrest⟩

/-- Settles O19: each writes its result back with LogicFlags; AND, OR, XOR and NOT know theirs by its bits. -/
theorem logicActsBitByBit : Obligations.LogicActsBitByBit := by
  unfold Obligations.LogicActsBitByBit
  intro s d o
  have hnot (k : Nat) (hk : k < 16) : (~~~ s.reg d).getLsbD k = !(s.reg d).getLsbD k := by
    rw [BitVec.getLsbD_not, decide_eq_true hk, Bool.true_and]
  refine ⟨logicResult_bits (exec_and d o s) fun _ _ => BitVec.getLsbD_and,
    logicResult_bits (exec_or d o s) fun _ _ => BitVec.getLsbD_or,
    logicResult_bits (exec_xor d o s) fun _ _ => BitVec.getLsbD_xor,
    logicResult_bits rfl hnot, ?_⟩
  obtain ⟨t, ht, -, hrest⟩ := logicResult_next (exec_rol d o s)
  exact ⟨t, ht, hrest⟩

/-! ### The conditions after a logic instruction -/

/-- An operation that answers a state with the flags of LogicFlags leaves C and V clear. -/
theorem clear_of_logicFlags {u t : State} {r : Word} (h : (.next u : Result State) = .next t)
    (hu : u.flags = (logicFlags r).flags) : t.flags.c = false ∧ t.flags.v = false := by
  cases h
  rw [hu]
  exact ⟨rfl, rfl⟩

/-- AND, OR, XOR, TEST and NOT leave C and V clear: TEST writes LogicFlags alone, the others a result with
it (10_state.md R24). -/
theorem exec_logic_clear {s t : State} {d : Reg} {o : Operand} {i : Instr}
    (hi : i ∈ [twoOp .and d o, twoOp .or d o, twoOp .xor d o, twoOp .test d o, .notR d])
    (h : exec i s = .next t) : t.flags.c = false ∧ t.flags.v = false := by
  simp only [List.mem_cons, List.not_mem_nil, or_false] at hi
  obtain rfl | rfl | rfl | rfl | rfl := hi
  · exact clear_of_logicFlags ((exec_and d o s).symm.trans h) (writeResult_flags s d _ _)
  · exact clear_of_logicFlags ((exec_or d o s).symm.trans h) (writeResult_flags s d _ _)
  · exact clear_of_logicFlags ((exec_xor d o s).symm.trans h) (writeResult_flags s d _ _)
  · exact clear_of_logicFlags ((exec_test d o s).symm.trans h) (writeFlags_flags s _ _)
  · exact clear_of_logicFlags h (writeResult_flags s d _ _)

/-- Settles O20: with C and V clear, the signed comparisons of S with V speak of S alone. -/
theorem conditionsAfterLogic : Obligations.ConditionsAfterLogic := by
  unfold Obligations.ConditionsAfterLogic
  intro s t d o i hi h
  obtain ⟨hc, hv⟩ := exec_logic_clear hi h
  simp [CondExpr, hc, hv]

end Sys2Proof.Machine
end

section
/-! PROOFS. LD, LD.b, ST and ST.b of local RAM in their three address forms (44_load_store.md R150 to R153,
R155), and the words with displacement flag and no immediate flag (R154). -/

namespace Sys2Proof.Machine

/-- The form's length is the one R155 lists. -/
theorem EffectiveAddress.size_eq {s : State} {a : Address} {ea n : Word}
    (h : EffectiveAddress s a ea n) : a.size = n := by
  cases h <;> rfl

/-! ### Loads are moves of what was read -/

theorem opLd_of_readWord {s u : State} {a : Address} {v : Word}
    (h : readWord s (a.value s) = .next (v, u)) (d : Reg) : opLd d a s = opMove d v a.size u := by
  rw [opLd, h, andThen_next, opMove]

theorem opLdb_of_readByte {s u : State} {a : Address} {b : Byte}
    (h : readByte s (a.value s) = .next (b, u)) (d : Reg) :
    opLdb d a s = opMove d (ldbValue u b).1 a.size (ldbValue u b).2 := by
  rw [opLdb, h, andThen_next, opMove]

/-- What a move leaves when finding its value may have drawn a free one, as under the third setting of
LDB_EXTEND (R151). -/
theorem opMove_next_of_drawn {x : Result State} {s u : State} {d : Reg} {v n : Word}
    (hu : u = s ∨ u = s.drawn 1) (hx : x = opMove d v n u) :
    ∃ t, x = .next t ∧ t.reg d = v ∧ t.flags = s.flags ∧ t.pc = s.pc + n ∧ OnlyRegisters [d] s t := by
  rcases hu with rfl | rfl
  · exact opMove_next hx
  · exact ⟨_, hx, State.reg_setReg_same _ d v, rfl, rfl, (opMove_frame s d v n).drawn 1⟩

/-- Settles O33: the word is read from RAM, which changes nothing, and moved to rD. -/
theorem ldReadsAWordOfRam : Obligations.LdReadsAWordOfRam := by
  unfold Obligations.LdReadsAWordOfRam
  intro s d a ea n v hea hin hv
  obtain rfl := hea.value_eq
  obtain rfl := hea.size_eq
  have hmove : exec (ldAt d a) s = opMove d v a.size s :=
    (exec_ldAt d a s).trans (opLd_of_readWord (readWord_ram hin hv) d)
  exact opMove_next hmove

/-- Settles O34: the byte is read from RAM, extended by LDB_EXTEND and moved to rD; the extension draws at
most a free value. -/
theorem ldbReadsAByteOfRam : Obligations.LdbReadsAByteOfRam := by
  unfold Obligations.LdbReadsAByteOfRam
  intro s d a ea n b hea hin hb
  obtain rfl := hea.value_eq
  obtain rfl := hea.size_eq
  have hmove : exec (ldbAt d a) s = opMove d (ldbValue s b).1 a.size (ldbValue s b).2 :=
    (exec_ldbAt d a s).trans (opLdb_of_readByte (readByte_ram hin hb) d)
  obtain ⟨t, ht, hval, hrest⟩ := opMove_next_of_drawn (ldbValue_cases s b) hmove
  exact ⟨t, ht, by rw [hval]; exact ldbValue_loaded s b, hrest⟩

/-! ### Stores -/

theorem opSt_of_writeWord {s u : State} {d : Reg} {a : Address}
    (h : writeWord s (a.value s) (s.reg d) = .next u) : opSt d a s = .next (u.advance a.size) := by
  rw [opSt, h, andThen_next]

theorem opStb_of_writeByte {s u : State} {d : Reg} {a : Address}
    (h : writeByte s (a.value s) ((s.reg d).extractLsb' 0 8) = .next u) :
    opStb d a s = .next (u.advance a.size) := by
  rw [opStb, h, andThen_next]

theorem OnlyRegistersAndRam.refl (rs : List Reg) (p n : Nat) (s : State) :
    OnlyRegistersAndRam rs p n s s where
  regs _ _ := rfl
  flags := rfl
  lr := rfl
  ram _ _ := rfl
  world := ⟨rfl, fun _ => rfl, rfl, rfl, rfl⟩

/-- A byte stored in RAM, and the pc moved on, change no other byte, no register and no flag. -/
theorem storeRam_frame (s : State) (p : Nat) (b : Byte) (n : Word) :
    OnlyRegistersAndRam [] p 1 s ((s.storeRam p b).advance n) where
  regs q _ := State.reg_storeRam s p b q
  flags := State.storeRam_flags s p b
  lr := State.storeRam_lr s p b
  ram k hk := by rw [State.ramByte_advance, State.ramByte_storeRam, if_neg (by omega)]
  world := ⟨State.storeRam_periph s p b, State.extByte_storeRam s p b, State.storeRam_cfg s p b,
    State.storeRam_agenda s p b, State.storeRam_output s p b⟩

/-- Settles O35: the word is stored in RAM, where it then stands in the machine's byte order. -/
theorem stWritesAWordOfRam : Obligations.StWritesAWordOfRam := by
  unfold Obligations.StWritesAWordOfRam
  intro s d a ea n hea hin
  obtain rfl := hea.value_eq
  obtain rfl := hea.size_eq
  obtain ⟨-, -, hpc, -⟩ := storeRamWord_frame s (a.value s) (s.reg d)
  exact ⟨_, (exec_stAt d a s).trans (opSt_of_writeWord (writeWord_ram _ hin)), storeRamWord_holds s _ _,
    congrArg (· + a.size) hpc, (OnlyRegistersAndRam.refl [] _ 2 s).storeWord _ _⟩

/-- Settles O36: the low byte of rD is stored in RAM. -/
theorem stbWritesAByteOfRam : Obligations.StbWritesAByteOfRam := by
  unfold Obligations.StbWritesAByteOfRam
  intro s d a ea n hea hin
  obtain rfl := hea.value_eq
  obtain rfl := hea.size_eq
  refine ⟨_, (exec_stbAt d a s).trans (opStb_of_writeByte (writeByte_ram _ hin)), ?_,
    congrArg (· + a.size) (State.storeRam_pc s _ _), storeRam_frame s _ _ _⟩
  rw [State.ramByte_advance, State.ramByte_storeRam, if_pos rfl]

/-! ### Displacement flag without immediate flag (R154) -/

/-- The four instructions whose words have the displacement flag and no immediate flag. -/
def dispOnly (d r : Reg) : List Instr := [.ldU d r, .ldbU d r, .stU d r, .stbU d r]

theorem exec_dispOnly {i : Instr} {d r : Reg} (h : i ∈ dispOnly d r) (s : State) :
    exec i s = .fault .displacementWithoutImmediate := by
  simp only [dispOnly, List.mem_cons, List.not_mem_nil, or_false] at h
  obtain rfl | rfl | rfl | rfl := h <;> rfl

theorem headM_dispOnly {w : Word} (himm : immBit w = false) (hdisp : w.getLsbD 6 = true)
    (reg undef : Reg → Reg → Instr) (abs : Reg → Word → Instr) (disp : Reg → Reg → Word → Instr) :
    headM w reg abs disp undef = .short (undef (rDOf w) (rSOf w)) := by
  rw [headM, himm, hdisp]
  rfl

/-- The byte flag, bit 7, tells LD from LD.b. -/
theorem headLd_dispOnly {w : Word} (himm : immBit w = false) (hdisp : w.getLsbD 6 = true) :
    headLd w = .short (if w.getLsbD 7 then .ldbU (rDOf w) (rSOf w) else .ldU (rDOf w) (rSOf w)) := by
  rw [headLd, headM_dispOnly himm hdisp, headM_dispOnly himm hdisp, apply_ite Head.short]

/-- The byte flag, bit 7, tells ST from ST.b. -/
theorem headSt_dispOnly {w : Word} (himm : immBit w = false) (hdisp : w.getLsbD 6 = true) :
    headSt w = .short (if w.getLsbD 7 then .stbU (rDOf w) (rSOf w) else .stU (rDOf w) (rSOf w)) := by
  rw [headSt, headM_dispOnly himm hdisp, headM_dispOnly himm hdisp, apply_ite Head.short]

/-- LD has opcode 19 and ST opcode 20. The form fixes bits 15, 14 and 6; bit 7, the byte flag, is free and
makes two ranges of each opcode's words. -/
theorem dispOnly_fields {w : Word}
    (h : (0x1340 ≤ w.toNat ∧ w.toNat ≤ 0x137F) ∨ (0x13C0 ≤ w.toNat ∧ w.toNat ≤ 0x13FF) ∨
      (0x1440 ≤ w.toNat ∧ w.toNat ≤ 0x147F) ∨ (0x14C0 ≤ w.toNat ∧ w.toNat ≤ 0x14FF)) :
    immBit w = false ∧ w.getLsbD 6 = true ∧ (OfOpcode 19 w ∨ OfOpcode 20 w) := by
  simp only [immBit, bit_eq_iff, ofOpcode_iff, Bool.toNat_false, Bool.toNat_true]
  omega

/-- The words of R154 decode to an instruction without a meaning. -/
theorem decodeHead_dispOnly {w : Word} (c : Config) (himm : immBit w = false) (hdisp : w.getLsbD 6 = true)
    (hop : OfOpcode 19 w ∨ OfOpcode 20 w) :
    ∃ i ∈ dispOnly (rDOf w) (rSOf w), decodeHead c w = .short i := by
  obtain ⟨h14, hop⟩ | ⟨h14, hop⟩ := hop <;> rw [decodeHead, h14, hop]
  · exact ⟨_, by split <;> simp [dispOnly], headLd_dispOnly himm hdisp⟩
  · exact ⟨_, by split <;> simp [dispOnly], headSt_dispOnly himm hdisp⟩

/-- A step of an instruction that is one word long stops where the instruction does. -/
theorem step_short_fault {s : State} {w : Word} {i : Instr} {r : Fault} (hw : fetchWord s s.pc = .next w)
    (hi : decodeHead s.cfg w = .short i) (h : exec i s = .fault r) : step s = .fault r := by
  simp only [step, instruction, hw, andThen_next, hi, h, andThen_fault]

/-- Settles O37: the words of the four ranges decode to the four instructions, and each of these stops. -/
theorem displacementWithoutImmediateFaults : Obligations.DisplacementWithoutImmediateFaults := by
  unfold Obligations.DisplacementWithoutImmediateFaults
  refine ⟨fun s d r i hi => exec_dispOnly hi s, fun s w hw hrange => ?_⟩
  obtain ⟨himm, hdisp, hop⟩ := dispOnly_fields hrange
  obtain ⟨i, hi, hhead⟩ := decodeHead_dispOnly s.cfg himm hdisp hop
  exact step_short_fault hw hhead (exec_dispOnly hi s)

end Sys2Proof.Machine
end

section
/-! PROOFS. JMP, CALL and RET (45_control.md R161 to R163): one rule for the write of the pc they share, and
what CMP tells the conditions (R160, R164). -/

namespace Sys2Proof.Machine

/-! ### Writing the pc -/

/-- Writing the pc changes nothing a frame speaks of. -/
theorem setPc_frame (s : State) (v : Word) : OnlyRegisters [] s (s.setPc v) where
  regs _ _ := rfl
  lr := rfl
  ram _ := rfl
  selfWritten := rfl
  world := ⟨rfl, fun _ => rfl, rfl, rfl, rfl⟩

/-- What an instruction that only writes the pc leaves: all else as it was. -/
theorem setPc_next {x : Result State} {s : State} {v : Word} (hx : x = .next (s.setPc v)) :
    ∃ t, x = .next t ∧ t.pc = v ∧ t.flags = s.flags ∧ OnlyRegisters [] s t :=
  ⟨_, hx, rfl, rfl, setPc_frame s v⟩

/-- A target must be even (10_state.md R16). -/
theorem jumpTo_odd {v : Word} (s : State) (h : v.toNat % 2 = 1) : jumpTo v s = .fault .misalignedTarget :=
  if_pos h

/-! ### Taken and untaken -/

section Branches
variable {s : State} {cond : Cond}

theorem exec_jmp_taken (h : CondExpr s.cfg s.flags cond) (o : Operand) :
    exec (jmpAt cond o) s = jumpTo (o.value s) s :=
  (exec_jmpAt cond o s).trans (if_pos ((condHolds_iff ..).mpr h))

theorem exec_jmp_untaken (h : ¬ CondExpr s.cfg s.flags cond) (o : Operand) :
    exec (jmpAt cond o) s = .next (s.advance o.size) :=
  (exec_jmpAt cond o s).trans (if_neg (mt (condHolds_iff ..).mp h))

theorem exec_call_taken (h : CondExpr s.cfg s.flags cond) (o : Operand) :
    exec (callAt cond o) s = jumpTo (o.value s) (s.setLr (s.pc + o.size)) :=
  (exec_callAt cond o s).trans (if_pos ((condHolds_iff ..).mpr h))

theorem exec_call_untaken (h : ¬ CondExpr s.cfg s.flags cond) (o : Operand) :
    exec (callAt cond o) s = .next (s.advance o.size) :=
  (exec_callAt cond o s).trans (if_neg (mt (condHolds_iff ..).mp h))

end Branches

theorem exec_ret (s : State) : exec .ret s = jumpTo s.lr s := rfl

/-! ### JMP, CALL and RET -/

/-- Settles O46: taken, JMP is the jump, which asks for an even target; untaken, it goes on. -/
theorem jmpGoesToItsTarget : Obligations.JmpGoesToItsTarget := by
  unfold Obligations.JmpGoesToItsTarget
  intro s cond o
  refine ⟨fun htaken heven => ?_, fun htaken hodd => ?_, fun huntaken => ?_⟩
  · exact setPc_next ((exec_jmp_taken htaken o).trans (jumpTo_even s heven))
  · exact (exec_jmp_taken htaken o).trans (jumpTo_odd s hodd)
  · exact setPc_next (exec_jmp_untaken huntaken o)

/-- Settles O47: taken, CALL is the jump from the state with the link in LR, so that putting the old LR back
leaves a change of the pc alone; untaken, it goes on. -/
theorem callLinksAndJumps : Obligations.CallLinksAndJumps := by
  unfold Obligations.CallLinksAndJumps
  intro s cond o
  refine ⟨fun htaken heven => ?_, fun htaken hodd => ?_, fun huntaken => ?_⟩
  · exact ⟨_, (exec_call_taken htaken o).trans (jumpTo_even _ heven), rfl, rfl, rfl, setPc_frame s _⟩
  · exact (exec_call_taken htaken o).trans (jumpTo_odd _ hodd)
  · exact setPc_next (exec_call_untaken huntaken o)

/-- Settles O48: RET is the jump to LR. -/
theorem retGoesToTheLinkRegister : Obligations.RetGoesToTheLinkRegister := by
  unfold Obligations.RetGoesToTheLinkRegister
  intro s
  refine ⟨fun heven => ?_, fun hodd => ?_⟩
  · exact setPc_next ((exec_ret s).trans (jumpTo_even s heven))
  · exact (exec_ret s).trans (jumpTo_odd s hodd)

/-- Settles O49: from an even pc the CALL leaves an even LR, which RET takes, and the frames of the
two compose. -/
theorem callThenRetReturns : Obligations.CallThenRetReturns := by
  unfold Obligations.CallThenRetReturns
  intro s cond o htaken heven hpc
  obtain ⟨t, ht, -, hlink, hflags, hcall⟩ := (callLinksAndJumps s cond o).1 htaken heven
  have hlr : t.lr.toNat % 2 = 0 := by
    rw [hlink]
    exact add_even o.size_even hpc
  obtain ⟨u, hu, hback, hkept, hret⟩ := (retGoesToTheLinkRegister t).1 hlr
  refine ⟨t, u, ht, hu, hback.trans hlink, fun r => ?_, hkept.trans hflags, fun a => ?_⟩
  · exact (hret.regs r List.not_mem_nil).trans (hcall.regs r List.not_mem_nil)
  · exact (hret.ram a).trans (hcall.ram a)

/-! ### The conditions after a comparison

Each lemma reads its group of conditions off the flags of `a - b`. -/

section Comparison
variable {cfg : Config} {a b r : Word} {f : Flags}

theorem DifferenceIs.value_eq (h : DifferenceIs cfg a b 0 r f) : r = a - b := by
  have hr := h.1
  apply BitVec.eq_of_toNat_eq
  rw [BitVec.toNat_sub]
  omega

theorem DifferenceIs.zero_iff (h : DifferenceIs cfg a b 0 r f) : f.z = true ↔ a = b := by
  obtain ⟨hz, -⟩ := h.2.zero_and_sign
  rw [hz, h.value_eq, sub_eq_zero]

theorem DifferenceIs.carry_iff (h : DifferenceIs cfg a b 0 r f) :
    f.c = true ↔ CarrySaysBorrow cfg (a.toNat < b.toNat) := by
  obtain ⟨-, -, -, hc, -⟩ := h
  exact hc

theorem DifferenceIs.overflow_iff (h : DifferenceIs cfg a b 0 r f) :
    f.v = true ↔ OutOfRange (a.toInt - b.toInt) := by
  obtain ⟨-, -, -, -, hv⟩ := h
  rwa [Int.ofNat_zero, Int.sub_zero] at hv

theorem DifferenceIs.sign_iff (h : DifferenceIs cfg a b 0 r f) :
    f.s = true ↔ (a - b).getLsbD 15 = true := by
  rw [← h.value_eq, getLsbD_15]
  obtain ⟨-, -, hs, -⟩ := h
  exact hs

/-- S differs from V just where the true difference, before its reduction to 16 bits, is negative. -/
theorem DifferenceIs.sign_ne_overflow_iff (h : DifferenceIs cfg a b 0 r f) :
    f.s ≠ f.v ↔ a.toInt < b.toInt := by
  obtain ⟨hr, -, hs, -, hv⟩ := h
  rw [ne_eq, Bool.eq_iff_iff, hs, hv, OutOfRange]
  have hlt := r.isLt
  rcases toInt_cases a with ⟨_, ha⟩ | ⟨_, ha⟩ <;> rcases toInt_cases b with ⟨_, hb⟩ | ⟨_, hb⟩ <;> omega

theorem DifferenceIs.cond_eq_and_ne (h : DifferenceIs cfg a b 0 r f) :
    (CondExpr cfg f .eq ↔ a = b) ∧ (CondExpr cfg f .ne ↔ a ≠ b) := by
  simp only [CondExpr, Bool.eq_false_iff, ne_eq, h.zero_iff, and_self]

/-- The unsigned comparisons where C is the borrow: HI, which asks for C, says less than (R160). -/
theorem DifferenceIs.cond_unsigned_of_borrow (h : DifferenceIs cfg a b 0 r f)
    (hcfg : cfg.subCarry = .borrow) :
    (CondExpr cfg f .cs ↔ a.toNat < b.toNat) ∧ (CondExpr cfg f .cc ↔ b.toNat ≤ a.toNat) ∧
    (CondExpr cfg f .hi ↔ a.toNat < b.toNat) ∧
    (cfg.lsExpr = .conj → (CondExpr cfg f .ls ↔ a = b)) := by
  have hc := h.carry_iff
  simp only [CarrySaysBorrow, hcfg] at hc
  simp only [CondExpr, Bool.eq_false_iff, ne_eq, h.zero_iff, hc, ← BitVec.toNat_inj]
  refine ⟨trivial, by omega, by omega, fun hls => ?_⟩
  simp only [hls]
  omega

/-- The unsigned comparisons where C is the absence of a borrow: HI says greater than, and LS as a
conjunction asks for a borrow of equal words (R160). -/
theorem DifferenceIs.cond_unsigned_of_notBorrow (h : DifferenceIs cfg a b 0 r f)
    (hcfg : cfg.subCarry = .notBorrow) :
    (CondExpr cfg f .hi ↔ b.toNat < a.toNat) ∧ (cfg.lsExpr = .conj → ¬ CondExpr cfg f .ls) ∧
    (cfg.lsExpr = .disj → (CondExpr cfg f .ls ↔ a.toNat ≤ b.toNat)) := by
  have hc := h.carry_iff
  simp only [CarrySaysBorrow, hcfg] at hc
  simp only [CondExpr, Bool.eq_false_iff, ne_eq, h.zero_iff, hc, ← BitVec.toNat_inj]
  refine ⟨by omega, fun hls => ?_, fun hls => ?_⟩ <;> simp only [hls] <;> omega

theorem DifferenceIs.cond_signed (h : DifferenceIs cfg a b 0 r f) :
    (CondExpr cfg f .ge ↔ b.toInt ≤ a.toInt) ∧ (CondExpr cfg f .g ↔ b.toInt < a.toInt) ∧
    (CondExpr cfg f .le ↔ a.toInt ≤ b.toInt) ∧ (CondExpr cfg f .l ↔ a.toInt < b.toInt) := by
  have hge : f.s = f.v ↔ b.toInt ≤ a.toInt := by
    rw [← not_lt, ← h.sign_ne_overflow_iff, ne_eq, not_not]
  simp only [CondExpr, Bool.eq_false_iff, ne_eq, h.zero_iff, hge, ← BitVec.toInt_inj]
  exact ⟨trivial, by omega, by omega, by omega⟩

theorem DifferenceIs.cond_sign (h : DifferenceIs cfg a b 0 r f) :
    (CondExpr cfg f .n ↔ (a - b).getLsbD 15 = true) ∧
    (CondExpr cfg f .p ↔ (a - b).getLsbD 15 = false) := by
  simp only [CondExpr, Bool.eq_false_iff, ne_eq, h.sign_iff, and_self]

/-- V of a subtraction is signed overflow under either V_RULE (log 20). -/
theorem DifferenceIs.cond_overflow (h : DifferenceIs cfg a b 0 r f) :
    (CondExpr cfg f .os ↔ OutOfRange (a.toInt - b.toInt)) ∧
    (CondExpr cfg f .oc ↔ ¬ OutOfRange (a.toInt - b.toInt)) := by
  simp only [CondExpr, Bool.eq_false_iff, ne_eq, h.overflow_iff, and_self]

end Comparison

/-- Settles O32: CMP leaves the flags of the difference, from which each group of conditions is read. -/
theorem conditionsAfterCmp : Obligations.ConditionsAfterCmp := by
  unfold Obligations.ConditionsAfterCmp
  intro s d o
  obtain ⟨t, _, ht, -, -, hdiff, -, hframe⟩ := (cmpAndTestOnlySetFlags s d o).1
  obtain ⟨heq, hne⟩ := hdiff.cond_eq_and_ne
  obtain ⟨hn, hp⟩ := hdiff.cond_sign
  refine ⟨t, ht, ?_⟩
  rw [hframe.world.cfg]
  exact ⟨heq, hne, hdiff.cond_unsigned_of_borrow, hdiff.cond_unsigned_of_notBorrow,
    fun _ => hdiff.cond_signed, hn, hp, hdiff.cond_overflow⟩

end Sys2Proof.Machine
end

section
/-! PROOFS. SHL, SHR, SAR, ROL and RCL (46_shift_rotate.md R180 to R187): one rule for the result SHL, SHR
and SAR write back and one for RCL's, what SHIFT_AMOUNT_GE16 makes of large amounts, and two words shifted
through C. -/

namespace Sys2Proof.Machine

/-! ### Results written back -/

section Results
variable {s : State} {d : Reg} {o : Operand} {n : Nat}

theorem opShift_some (op : ShiftOp) (d : Reg) (h : shiftAmount s.cfg (o.value s) = some n) :
    opShift op d o s = .next (writeResult s d (shiftFlags s.cfg op (s.reg d) n s.flags.c) o.size) := by
  rw [opShift, h]

theorem opRcl_some (d : Reg) (h : shiftAmount s.cfg (o.value s) = some n) :
    opRcl d o s = .next (writeResult s d (rclFlags (s.reg d) n s.flags.c) o.size) := by
  rw [opRcl, h]

theorem opShift_none (op : ShiftOp) (d : Reg) (h : shiftAmount s.cfg (o.value s) = none) :
    opShift op d o s = .next ((writeResult s d (freeShift s) o.size).drawn 3) := by
  rw [opShift, h]

theorem opRcl_none (d : Reg) (h : shiftAmount s.cfg (o.value s) = none) :
    opRcl d o s = .next ((writeResult s d (freeShift s) o.size).drawn 3) := by
  rw [opRcl, h]

/-- Under the default SHIFT_CARRY, C is the last bit shifted out (D11). -/
theorem shiftCarry_lastBitOut {cfg : Config} (h : cfg.shiftCarry = .lastBitOut) (op : ShiftOp) (x : Word)
    (n : Nat) (c : Bool) : shiftCarry cfg op x n c = lastBitOut op x n := by
  rw [shiftCarry, h]

/-- What SHL, SHR and SAR leave: the shifted value `r` in rD, its Z and S, V clear, `C` in C under the default
SHIFT_CARRY, the pc at the next instruction, and all else as it was. -/
theorem opShift_next {x : Result State} {op : ShiftOp} {r : Word} {C : Prop} (hx : x = opShift op d o s)
    (hn : shiftAmount s.cfg (o.value s) = some n) (hval : shiftValue op (s.reg d) n = r)
    (hlast : lastBitOut op (s.reg d) n = true ↔ C) :
    ∃ t, x = .next t ∧ t.reg d = r ∧ FlagsSay t.flags (t.reg d) (t.flags.c = true) False ∧
      (s.cfg.shiftCarry = .lastBitOut → (t.flags.c = true ↔ C)) ∧ t.pc = s.pc + o.size ∧
      OnlyRegisters [d] s t := by
  obtain ⟨hvalue, hflags⟩ := shiftFlags_spec s.cfg op (s.reg d) n s.flags.c
  obtain ⟨t, ht, ⟨hreg, hsay⟩, hrest⟩ :=
    writeResult_next (P := fun w f => w = shiftValue op (s.reg d) n ∧ FlagsSay f (shiftValue op (s.reg d) n)
      (shiftCarry s.cfg op (s.reg d) n s.flags.c = true) False)
      (hx.trans (opShift_some op d hn)) ⟨hvalue, hflags⟩
  obtain ⟨hz, hs, hc, hv⟩ := hsay
  refine ⟨t, ht, hreg.trans hval, ?_, fun hcfg => ?_, hrest⟩
  · rw [hreg]
    exact ⟨hz, hs, Iff.rfl, hv⟩
  · rw [hc, shiftCarry_lastBitOut hcfg, hlast]

/-- What RCL leaves: the 17 bits of C and rD rotated, Z and S of rD, V clear, the pc at the next instruction,
and all else as it was. -/
theorem rcl_next (hn : shiftAmount s.cfg (o.value s) = some n) :
    ∃ t, exec (twoOp .rcl d o) s = .next t ∧
      (∀ k, k < 17 → carryBit t.flags.c (t.reg d) ((k + n) % 17) = carryBit s.flags.c (s.reg d) k) ∧
      FlagsSay t.flags (t.reg d) (t.flags.c = true) False ∧ t.pc = s.pc + o.size ∧
      OnlyRegisters [d] s t := by
  obtain ⟨t, ht, ⟨hbits, hv, hz, hs⟩, hrest⟩ :=
    writeResult_next (P := fun r f =>
      (∀ k, k < 17 → carryBit f.c r ((k + n) % 17) = carryBit s.flags.c (s.reg d) k) ∧ f.v = false ∧
        (f.z = true ↔ r.toNat = 0) ∧ (f.s = true ↔ 32768 ≤ r.toNat))
      ((exec_rcl d o s).trans (opRcl_some d hn)) (rclFlags_spec (s.reg d) n s.flags.c)
  exact ⟨t, ht, hbits, ⟨hz, hs, Iff.rfl, by simp [hv]⟩, hrest⟩

end Results

/-! ### By 0 to 15 positions -/

/-- Settles O21: the amount is op2 itself, and a shift multiplies or divides by that power of two. -/
theorem shlAndShrByLessThanSixteen : Obligations.ShlAndShrByLessThanSixteen := by
  unfold Obligations.ShlAndShrByLessThanSixteen
  intro s d o hlt
  have hn := shiftAmount_lt (cfg := s.cfg) hlt
  constructor
  · obtain ⟨hval, hlast⟩ := shiftValue_shl (s.reg d) (o.value s).toNat
    obtain ⟨t, ht, hreg, hrest⟩ := opShift_next (exec_shl d o s) hn rfl hlast
    exact ⟨t, ht, by rw [hreg, hval], hrest⟩
  · obtain ⟨hval, hlast⟩ := shiftValue_shr (s.reg d) (o.value s).toNat
    obtain ⟨t, ht, hreg, hrest⟩ := opShift_next (exec_shr d o s) hn rfl hlast
    exact ⟨t, ht, by rw [hreg, hval], hrest⟩

/-- Settles O22: division by a positive number rounding down keeps the sign, and below 16 positions the last
bit out is a bit of rD, not a copy of its sign. -/
theorem sarDividesRoundingDown : Obligations.SarDividesRoundingDown := by
  unfold Obligations.SarDividesRoundingDown
  intro s d o hlt
  have hpos : (0 : Int) < 2 ^ (o.value s).toNat := by positivity
  have hmin : min ((o.value s).toNat - 1) 15 = (o.value s).toNat - 1 := by omega
  obtain ⟨hval, hlast⟩ := shiftValue_sar (s.reg d) (o.value s).toNat
  rw [hmin] at hlast
  obtain ⟨t, ht, hreg, hsay, hrest⟩ := opShift_next (exec_sar d o s) (shiftAmount_lt hlt) rfl hlast
  rw [← hreg] at hval
  have hsign : (t.reg d).toInt < 0 ↔ (s.reg d).toInt < 0 := by
    rw [hval, Int.ediv_lt_iff_lt_mul hpos, zero_mul]
  exact ⟨t, ht, hval, hsay, hsay.zero_and_sign.2.trans hsign, hrest⟩

/-- Settles O23: ROL writes the rotated bits back with LogicFlags. -/
theorem rolRotatesSixteenBits : Obligations.RolRotatesSixteenBits := by
  unfold Obligations.RolRotatesSixteenBits
  intro s d o
  obtain ⟨t, ht, hreg, hrest⟩ := logicResult_next (exec_rol d o s)
  exact ⟨t, ht, fun k hk => by rw [hreg, rolValue_spec _ _ k hk], hrest⟩

/-- Settles O24: the amount is op2 itself. -/
theorem rclRotatesSeventeenBits : Obligations.RclRotatesSeventeenBits := by
  unfold Obligations.RclRotatesSeventeenBits
  intro s d o hlt
  exact rcl_next (shiftAmount_lt hlt)

/-! ### By 16 or more positions -/

section AnyShift
variable {k : TwoOp}

/-- The amount alone determines the result and the flags, whichever operand gives it. -/
theorem exec_shift_of_amount (hk : k ∈ [.shl, .shr, .sar, .rcl]) (s : State) (d : Reg) (n : Nat) :
    ∃ a, ∀ o : Operand, shiftAmount s.cfg (o.value s) = some n →
      exec (twoOp k d o) s = .next (writeResult s d a o.size) := by
  simp only [List.mem_cons, List.not_mem_nil, or_false] at hk
  obtain rfl | rfl | rfl | rfl := hk
  · exact ⟨_, fun o h => (exec_shl d o s).trans (opShift_some .shl d h)⟩
  · exact ⟨_, fun o h => (exec_shr d o s).trans (opShift_some .shr d h)⟩
  · exact ⟨_, fun o h => (exec_sar d o s).trans (opShift_some .sar d h)⟩
  · exact ⟨_, fun o h => (exec_rcl d o s).trans (opRcl_some d h)⟩

/-- An amount the parameters leave unspecified gives free values (R180). -/
theorem exec_shift_unspecified (hk : k ∈ [.shl, .shr, .sar, .rcl]) {s : State} {o : Operand} (d : Reg)
    (h : shiftAmount s.cfg (o.value s) = none) :
    exec (twoOp k d o) s = .next ((writeResult s d (freeShift s) o.size).drawn 3) := by
  simp only [List.mem_cons, List.not_mem_nil, or_false] at hk
  obtain rfl | rfl | rfl | rfl := hk
  · exact (exec_shl d o s).trans (opShift_none .shl d h)
  · exact (exec_shr d o s).trans (opShift_none .shr d h)
  · exact (exec_sar d o s).trans (opShift_none .sar d h)
  · exact (exec_rcl d o s).trans (opRcl_none d h)

end AnyShift

/-- Settles O25: free values are written back, V clear among them. -/
theorem shiftBySixteenOrMoreCompletes : Obligations.ShiftBySixteenOrMoreCompletes := by
  unfold Obligations.ShiftBySixteenOrMoreCompletes
  intro s d o k hk hge hcfg
  have hn : shiftAmount s.cfg (o.value s) = none := by rw [shiftAmount_ge hge, hcfg]
  exact ⟨_, exec_shift_unspecified hk d hn, rfl, rfl, (writeResult_frame s d _ o.size).drawn 3⟩

section Full
variable {n : Nat}

/-- SHL by 16 or more leaves 0, and its last bit out is bit 0 of `x` or a 0 shifted in after it (R186). -/
theorem shiftValue_shl_ge (x : Word) (h : 16 ≤ n) :
    shiftValue .shl x n = 0 ∧ (lastBitOut .shl x n = true ↔ n = 16 ∧ x.getLsbD 0 = true) := by
  constructor
  · apply BitVec.eq_of_toNat_eq
    have hdvd : 65536 ∣ x.toNat * 2 ^ n := Dvd.dvd.mul_left (pow_dvd_pow 2 h) _
    rw [(shiftValue_shl x n).1, Nat.mod_eq_zero_of_dvd hdvd]
    rfl
  · rw [lastBitOut, Nat.testBit_shiftLeft]
    obtain rfl | hgt := h.eq_or_lt
    · simp [BitVec.getLsbD]
    · simp [show ¬ n ≤ 16 by omega, show n ≠ 16 by omega]

/-- SHR by 16 or more leaves 0, and its last bit out is bit 15 of `x` or a 0 shifted in after it (R186). -/
theorem shiftValue_shr_ge (x : Word) (h : 16 ≤ n) :
    shiftValue .shr x n = 0 ∧ (lastBitOut .shr x n = true ↔ n = 16 ∧ x.getLsbD 15 = true) := by
  constructor
  · apply BitVec.eq_of_toNat_eq
    have hlt : x.toNat < 2 ^ n := x.isLt.trans_le (Nat.pow_le_pow_right (by decide) h)
    rw [(shiftValue_shr x n).1, Nat.div_eq_of_lt hlt]
    rfl
  · rw [lastBitOut, if_neg (by omega)]
    obtain rfl | hgt := h.eq_or_lt
    · simp [BitVec.getLsbD]
    · have hbit : x.toNat.testBit (n - 1) = false := BitVec.getLsbD_of_ge x (n - 1) (by omega)
      simp [hbit, show n ≠ 16 by omega]

/-- SAR by 16 or more leaves sixteen copies of the sign, and its last bit out is one too (R186, D12). -/
theorem shiftValue_sar_ge (x : Word) (h : 16 ≤ n) :
    shiftValue .sar x n = (if x.getLsbD 15 then 0xFFFF else 0) ∧
      (lastBitOut .sar x n = true ↔ x.getLsbD 15 = true) := by
  constructor
  · apply BitVec.eq_of_toInt_eq
    have hpow : (2 : Int) ^ 16 ≤ 2 ^ n := pow_le_pow_right₀ (by decide) h
    have hx := x.isLt
    rw [(shiftValue_sar x n).1]
    obtain ⟨hnat, hint⟩ | ⟨hnat, hint⟩ := toInt_cases x
    · rw [if_neg (by rw [getLsbD_15]; omega), Int.ediv_eq_zero_of_lt (by omega) (by omega)]
      rfl
    · rw [if_pos (getLsbD_15 x |>.mpr hnat), Int.ediv_eq_neg_one_of_neg_of_le (by omega) (by omega)]
      rfl
  · rw [lastBitOut, if_neg (by omega), show min (n - 1) 15 = 15 by omega]

end Full

/-- Settles O26: under full the amount is op2 itself and SHL, SHR and SAR have shifted every bit out; under
low4 it is the amount an immediate of op2 modulo 16 gives. -/
theorem shiftBySixteenOrMoreFullOrLow4 : Obligations.ShiftBySixteenOrMoreFullOrLow4 := by
  unfold Obligations.ShiftBySixteenOrMoreFullOrLow4
  intro s d o hge
  constructor
  · intro hcfg
    have hn : shiftAmount s.cfg (o.value s) = some (o.value s).toNat := by rw [shiftAmount_ge hge, hcfg]
    obtain ⟨hshl, hshlOut⟩ := shiftValue_shl_ge (s.reg d) hge
    obtain ⟨hshr, hshrOut⟩ := shiftValue_shr_ge (s.reg d) hge
    obtain ⟨hsar, hsarOut⟩ := shiftValue_sar_ge (s.reg d) hge
    exact ⟨opShift_next (exec_shl d o s) hn hshl hshlOut, opShift_next (exec_shr d o s) hn hshr hshrOut,
      opShift_next (exec_sar d o s) hn hsar hsarOut, rcl_next hn⟩
  · intro hcfg k hk
    have hlow : (BitVec.ofNat 16 ((o.value s).toNat % 16)).toNat = (o.value s).toNat % 16 := by
      rw [BitVec.toNat_ofNat]
      omega
    have hn : shiftAmount s.cfg (o.value s) = some ((o.value s).toNat % 16) := by
      rw [shiftAmount_ge hge, hcfg]
    have himm : shiftAmount s.cfg (BitVec.ofNat 16 ((o.value s).toNat % 16)) =
        some ((o.value s).toNat % 16) := by
      rw [shiftAmount_lt (by omega), hlow]
    obtain ⟨a, ha⟩ := exec_shift_of_amount hk s d ((o.value s).toNat % 16)
    exact ⟨_, _, ha o hn, ha (.imm _) himm, by simp, rfl, rfl, writeResult_frame s d a o.size⟩

/-! ### Two words at a time -/

/-- The 17 bits of C above a word rotated left by one, as numbers: the word doubles and takes the old C in at
the bottom, and C takes its top bit. -/
theorem carryBit_rotated_by_one {c c' : Bool} {x r : Word}
    (h : ∀ k, k < 17 → carryBit c' r ((k + 1) % 17) = carryBit c x k) :
    r.toNat = x.toNat * 2 % 65536 + c.toNat ∧ (c' = true ↔ 32768 ≤ x.toNat) := by
  constructor
  · have hr : r = (x.setWidth 15).concat c := by
      apply BitVec.eq_of_getLsbD_eq
      rintro (_ | i) hi
      · exact (h 16 (by decide)).trans (by simp [carryBit])
      · have hbit := h i (by omega)
        rw [Nat.mod_eq_of_lt (by omega), carryBit, carryBit, if_neg (by omega), if_neg (by omega)] at hbit
        simp [hbit, BitVec.getLsbD_setWidth]
        omega
    rw [hr, BitVec.toNat_concat, BitVec.toNat_setWidth]
    omega
  · have htop : c' = x.getLsbD 15 := h 15 (by decide)
    rw [htop, getLsbD_15]

/-- Settles O27: SHL leaves the top bit of the low word in C, from where RCL takes it into the high word. -/
theorem multiWordShiftLeft : Obligations.MultiWordShiftLeft := by
  unfold Obligations.MultiWordShiftLeft
  intro s lo hi hne hcfg
  obtain ⟨t, ht, hlow, -, hcarry, -, htf⟩ :=
    (shlAndShrByLessThanSixteen s lo (.imm 1) (by decide : 1 < 16)).1
  obtain ⟨u, hu, hbits, -, -, huf⟩ := rclRotatesSeventeenBits t hi (.imm 1) (by decide : 1 < 16)
  obtain ⟨hhigh, htop⟩ := carryBit_rotated_by_one hbits
  rw [htf.regs hi (by simpa using hne)] at hhigh htop
  rw [← huf.regs lo (by simpa using hne.symm)] at hlow
  have hdouble : (u.reg lo).toNat = (s.reg lo).toNat * 2 % 65536 := hlow
  have hpassed : t.flags.c.toNat = (s.reg lo).toNat * 2 / 65536 := by
    have hlt := (s.reg lo).isLt
    have hc : t.flags.c = true ↔ (s.reg lo).toNat * 2 / 65536 % 2 = 1 := hcarry hcfg
    rw [Bool.toNat, Bool.cond_eq_ite, if_congr hc rfl rfl]
    split <;> omega
  exact ⟨t, u, ht, hu, by omega, htop⟩

end Sys2Proof.Machine
end

section
/-! PROOFS. The peripheral registers (60_exceptions.md Part B) at their addresses (20_memory.md R43): one rule
for a load and one for a store of each size, and with them the LED latch and the UART's registers. -/

namespace Sys2Proof.Machine

/-! ### The registers at their addresses -/

/-- The address of an 8 bit register (60_exceptions.md R210). -/
def ByteReg.address : ByteReg → Word
  | .ledData => 0xFF00 | .uartData => 0xFF02 | .uartStatus => 0xFF03

/-- The even address of a 16 bit register (60_exceptions.md R210). -/
def WordReg.address : WordReg → Word
  | .uartBaud => 0xFF04 | .timerData => 0xFF06 | .soundData => 0xFF08 | .dmaControl => 0xFF0A
  | .dmaLocal => 0xFF0C | .dmaRemote => 0xFF0E | .dmaCount => 0xFF10

theorem readByte_address (s : State) (r : ByteReg) : readByte s r.address = .next (readByteReg s r) := by
  cases r <;> rfl

theorem writeByte_address (s : State) (r : ByteReg) (v : Byte) :
    writeByte s r.address v = writeByteReg s r v := by
  cases r <;> rfl

theorem readWord_address (s : State) (r : WordReg) : readWord s r.address = .next (readWordReg s r) := by
  cases r <;> rfl

theorem writeWord_address (s : State) (r : WordReg) (v : Word) :
    writeWord s r.address v = writeWordReg s r v := by
  cases r <;> rfl

/-! ### Frames that leave the devices open -/

section Frames
variable {rs : List Reg} {s t : State}

theorem SameButDevices.devices_frame (h : SameButDevices s t) (rs : List Reg) :
    OnlyRegistersAndDevices rs s t where
  regs r _ := congrArg (RegFile.get · r) h.regs
  flags := h.flags
  lr := h.lr
  ram a := congrArg (Memory.read · a) h.mem
  selfWritten := h.selfWritten
  ext a := by rw [State.extByte, h.ext, State.extByte]
  cfg := h.cfg
  agenda := h.agenda

theorem OnlyRegistersAndDevices.advance (h : OnlyRegistersAndDevices rs s t) (n : Word) :
    OnlyRegistersAndDevices rs s (t.advance n) := { h with }

theorem OnlyRegistersAndDevices.drawn (h : OnlyRegistersAndDevices rs s t) (n : Nat) :
    OnlyRegistersAndDevices rs s (t.drawn n) := { h with }

theorem OnlyRegistersAndDevices.setReg (h : OnlyRegistersAndDevices rs s t) {d : Reg} (hd : d ∈ rs)
    (v : Word) : OnlyRegistersAndDevices rs s (t.setReg d v) :=
  { h with
    regs := fun r hr => by
      rw [State.reg_setReg_other t v (by rintro rfl; exact hr hd)]; exact h.regs r hr }

/-- Where the devices and what the outside has seen are as before, only registers have changed. -/
theorem OnlyRegistersAndDevices.onlyRegisters (h : OnlyRegistersAndDevices rs s t)
    (hp : t.periph = s.periph) (ho : t.output = s.output) : OnlyRegisters rs s t :=
  ⟨h.regs, h.lr, h.ram, h.selfWritten, ⟨hp, h.ext, h.cfg, h.agenda, ho⟩⟩

end Frames

/-! ### Loads and stores of a register -/

section Registers
variable {s u : State} {d : Reg} {a : Address} {n : Word}

/-- LD.b of an 8 bit register: the byte, extended, in rD; the devices as the read leaves them. -/
theorem exec_ldbAt_byteReg {r : ByteReg} (h : EffectiveAddress s a r.address n) (d : Reg) :
    ∃ t, exec (ldbAt d a) s = .next t ∧ ByteLoaded s.cfg (t.reg d) (readByteReg s r).1 ∧
      t.periph = (readByteReg s r).2.periph ∧ t.output = s.output ∧ t.pc = s.pc + n ∧
      OnlyRegistersAndDevices [d] s t := by
  have hread : readByte s (a.value s) = .next (readByteReg s r) := by rw [h.value_eq, readByte_address]
  have hsame := readByteReg_same s r
  have houtput := readByteReg_output s r
  generalize readByteReg s r = bu at hread hsame houtput ⊢
  obtain ⟨b, u⟩ := bu
  have hmove : exec (ldbAt d a) s = opMove d (ldbValue u b).1 n (ldbValue u b).2 := by
    rw [exec_ldbAt, opLdb_of_readByte hread, h.size_eq]
  have hloaded : ByteLoaded s.cfg (ldbValue u b).1 b := hsame.cfg ▸ ldbValue_loaded u b
  have hframe : OnlyRegistersAndDevices [d] s u := hsame.devices_frame [d]
  have hd : d ∈ [d] := List.mem_singleton_self d
  rw [opMove] at hmove
  refine ⟨_, hmove, by rwa [State.reg_advance, State.reg_setReg_same], ?_⟩
  rcases ldbValue_cases u b with hv | hv <;> rw [hv]
  · exact ⟨rfl, houtput, congrArg (· + n) hsame.pc, (hframe.setReg hd _).advance n⟩
  · exact ⟨rfl, houtput, congrArg (· + n) hsame.pc, ((hframe.drawn 1).setReg hd _).advance n⟩

/-- LD of a 16 bit register: the word in rD, and nothing else has changed. -/
theorem exec_ldAt_wordReg {r : WordReg} (h : EffectiveAddress s a r.address n) (d : Reg) :
    ∃ t, exec (ldAt d a) s = .next t ∧ t.reg d = (readWordReg s r).1 ∧ t.flags = s.flags ∧
      t.pc = s.pc + n ∧ OnlyRegisters [d] s t := by
  have hread : readWord s (a.value s) = .next ((readWordReg s r).1, (readWordReg s r).2) := by
    rw [h.value_eq, readWord_address]
  have hmove : exec (ldAt d a) s = opMove d (readWordReg s r).1 n (readWordReg s r).2 := by
    rw [exec_ldAt, opLd_of_readWord hread, h.size_eq]
  exact opMove_next_of_drawn (readWordReg_cases s r) hmove

theorem exec_stbAt_eq {r : ByteReg} (h : EffectiveAddress s a r.address n) (d : Reg) :
    exec (stbAt d a) s =
      andThen (writeByteReg s r ((s.reg d).extractLsb' 0 8)) fun t => .next (t.advance n) := by
  rw [exec_stbAt, opStb, h.value_eq, writeByte_address, h.size_eq]

theorem exec_stAt_eq {r : WordReg} (h : EffectiveAddress s a r.address n) (d : Reg) :
    exec (stAt d a) s = andThen (writeWordReg s r (s.reg d)) fun t => .next (t.advance n) := by
  rw [exec_stAt, opSt, h.value_eq, writeWord_address, h.size_eq]

/-- What a store to a register leaves once the register is written: the devices as written, the pc at the
next instruction, and all else as it was. -/
theorem store_next {x y : Result State} (hu : SameButDevices s u)
    (hx : x = andThen y fun t => .next (t.advance n)) (hy : y = .next u) :
    ∃ t, x = .next t ∧ t.periph = u.periph ∧ t.output = u.output ∧ t.pc = s.pc + n ∧
      OnlyRegistersAndDevices [] s t :=
  ⟨u.advance n, by rw [hx, hy, andThen_next], rfl, rfl, congrArg (· + n) hu.pc,
    (hu.devices_frame []).advance n⟩

/-- ST.b to an 8 bit register. -/
theorem exec_stbAt_byteReg {r : ByteReg} (h : EffectiveAddress s a r.address n)
    (hw : writeByteReg s r ((s.reg d).extractLsb' 0 8) = .next u) :
    ∃ t, exec (stbAt d a) s = .next t ∧ t.periph = u.periph ∧ t.output = u.output ∧ t.pc = s.pc + n ∧
      OnlyRegistersAndDevices [] s t :=
  store_next (writeByteReg_same hw) (exec_stbAt_eq h d) hw

/-- ST to a 16 bit register. -/
theorem exec_stAt_wordReg {r : WordReg} (h : EffectiveAddress s a r.address n)
    (hw : writeWordReg s r (s.reg d) = .next u) :
    ∃ t, exec (stAt d a) s = .next t ∧ t.periph = u.periph ∧ t.output = u.output ∧ t.pc = s.pc + n ∧
      OnlyRegistersAndDevices [] s t :=
  store_next (writeWordReg_same hw) (exec_stAt_eq h d) hw

/-- A store stops where the write of the register does. -/
theorem exec_stbAt_fault {r : ByteReg} {f : Fault} (h : EffectiveAddress s a r.address n)
    (hw : writeByteReg s r ((s.reg d).extractLsb' 0 8) = .fault f) : exec (stbAt d a) s = .fault f := by
  rw [exec_stbAt_eq h, hw, andThen_fault]

theorem exec_stAt_fault {r : WordReg} {f : Fault} (h : EffectiveAddress s a r.address n)
    (hw : writeWordReg s r (s.reg d) = .fault f) : exec (stAt d a) s = .fault f := by
  rw [exec_stAt_eq h, hw, andThen_fault]

end Registers

/-! ### The LED latch -/

/-- Settles O50: the write is of the latch alone, and the read changes nothing. -/
theorem ledLatchHoldsWhatWasWritten : Obligations.LedLatchHoldsWhatWasWritten := by
  unfold Obligations.LedLatchHoldsWhatWasWritten
  intro s d a n hea
  obtain ⟨t, ht, hval, hp, ho, hpc, hframe⟩ := exec_ldbAt_byteReg (r := .ledData) hea d
  exact ⟨exec_stbAt_byteReg (r := .ledData) hea rfl,
    t, ht, hval, hframe.flags, hpc, hframe.onlyRegisters hp ho⟩

/-! ### The UART's FIFOs -/

theorem writeByteReg_uartData {s : State} (h : s.periph.uartTx.length < 8) (v : Byte) :
    writeByteReg s .uartData v = .next (s.setPeriph { s.periph with uartTx := s.periph.uartTx ++ [v] }) :=
  if_pos h

theorem writeByteReg_uartData_full {s : State} (h : 8 ≤ s.periph.uartTx.length) (v : Byte) :
    writeByteReg s .uartData v = .fault .uartTxFull := if_neg (by omega)

theorem readByteReg_uartData {s : State} {b : Byte} {rest : List Byte} (h : s.periph.uartRx = b :: rest) :
    readByteReg s .uartData = (b, s.setPeriph { s.periph with uartRx := rest }) := by
  simp only [readByteReg, h]

theorem readByteReg_uartData_empty {s : State} (h : s.periph.uartRx = []) :
    readByteReg s .uartData = (Config.freeByte s.draws, s.drawn 1) := by
  simp only [readByteReg, h]

/-- Settles O51: room in Tx and a byte in Rx decide what the write and the read of the register do. -/
theorem uartDataUsesTheFifos : Obligations.UartDataUsesTheFifos := by
  unfold Obligations.UartDataUsesTheFifos
  intro s d a n hea
  obtain ⟨t, ht, hval, hp, ho, hpc, hframe⟩ := exec_ldbAt_byteReg (r := .uartData) hea d
  refine ⟨fun hroom => exec_stbAt_byteReg (r := .uartData) hea (writeByteReg_uartData hroom _),
    fun hfull => exec_stbAt_fault (r := .uartData) hea (writeByteReg_uartData_full hfull _),
    fun b rest hrx => ?_, fun hrx => ?_⟩
  · rw [readByteReg_uartData hrx] at hval hp
    exact ⟨t, ht, hval, hp, ho, hpc, hframe⟩
  · rw [readByteReg_uartData_empty hrx] at hp
    exact ⟨t, _, ht, hval, hframe.flags, hpc, hframe.onlyRegisters hp ho⟩

/-! ### The UART's status -/

theorem uartStatusValue_spaceFree (s : State) :
    (uartStatusValue s).getLsbD 0 = true ↔ s.periph.uartTx.length < 8 := by
  simp only [uartStatusValue, BitVec.getLsbD_append]
  simp

theorem uartStatusValue_txEmpty (s : State) :
    (uartStatusValue s).getLsbD 1 = true ↔ s.periph.uartTx = [] := by
  simp only [uartStatusValue, BitVec.getLsbD_append]
  simp

theorem uartStatusValue_rxReady (s : State) :
    (uartStatusValue s).getLsbD 2 = true ↔ s.periph.uartRx ≠ [] := by
  simp only [uartStatusValue, BitVec.getLsbD_append]
  simp

theorem uartStatusValue_overrun {s : State} (h : s.periph.uartOverrun = false) :
    (uartStatusValue s).getLsbD 3 = false := by
  simp only [uartStatusValue, BitVec.getLsbD_append, h]
  simp

/-- The eight low bits of a loaded byte are the byte's, whatever LDB_EXTEND is (44_load_store.md R151). -/
theorem ByteLoaded.getLsbD_eq {c : Config} {r : Word} {b : Byte} (h : ByteLoaded c r b) {k : Nat}
    (hk : k < 8) : r.getLsbD k = b.getLsbD k := by
  obtain ⟨hlow, -⟩ := h
  rw [← hlow, BitVec.getLsbD_extractLsb', Nat.zero_add, decide_eq_true hk, Bool.true_and]

/-- Settles O52: the status byte's bits are read off its definition; a read draws free bits alone. -/
theorem uartStatusReportsTheFifos : Obligations.UartStatusReportsTheFifos := by
  unfold Obligations.UartStatusReportsTheFifos
  intro s d a n hea
  obtain ⟨t, ht, hval, hp, ho, hpc, hframe⟩ := exec_ldbAt_byteReg (r := .uartStatus) hea d
  have hbit {k : Nat} (hk : k < 8) : (t.reg d).getLsbD k = (uartStatusValue s).getLsbD k :=
    hval.getLsbD_eq hk
  refine ⟨⟨t, _, ht, hval, ?_, ?_, ?_, fun hov => ?_, hframe.flags, hpc, hframe.onlyRegisters hp ho⟩,
    exec_stbAt_fault (r := .uartStatus) hea rfl⟩
  · rw [hbit (by decide), uartStatusValue_spaceFree]
  · rw [hbit (by decide), uartStatusValue_txEmpty]
  · rw [hbit (by decide), uartStatusValue_rxReady]
  · rw [hbit (by decide), uartStatusValue_overrun hov]

end Sys2Proof.Machine
end

section
/-! PROOFS. The 16 bit peripheral registers: IO_UART_BAUD and IO_TIMER_DATA (60_exceptions.md R217, R220),
IO_SOUND_DATA (R225), and the registers of the DMA controller (R231 to R237). -/

namespace Sys2Proof.Machine

/-! ### IO_UART_BAUD and IO_TIMER_DATA -/

/-- Settles O53: the write is of the one register, and the read changes nothing. -/
theorem baudAndTimerAreReadAndWritten : Obligations.BaudAndTimerAreReadAndWritten := by
  unfold Obligations.BaudAndTimerAreReadAndWritten
  intro s d a n
  exact ⟨fun hea => ⟨exec_stAt_wordReg (r := .uartBaud) hea rfl, exec_ldAt_wordReg (r := .uartBaud) hea d⟩,
    fun hea => ⟨exec_stAt_wordReg (r := .timerData) hea rfl, exec_ldAt_wordReg (r := .timerData) hea d⟩⟩

/-! ### IO_SOUND_DATA -/

theorem voice_cases (k : BitVec 2) : k = 0 ∨ k = 1 ∨ k = 2 ∨ k = 3 := by bv_omega

/-- A divisor set is that voice's, and the other three are as they were. -/
theorem Sound.div_setDiv (x : Sound) (k j : BitVec 2) (v : BitVec 14) :
    (x.setDiv k v).div j = if j = k then v else x.div j := by
  rcases voice_cases k with rfl | rfl | rfl | rfl <;> rcases voice_cases j with rfl | rfl | rfl | rfl <;> rfl

/-- The word's upper two bits are the voice and its lower fourteen the divisor (60_exceptions.md R225). -/
theorem Sound.div_setDiv_word (x : Sound) (v : Word) (k : BitVec 2) :
    ((x.setDiv (v.extractLsb' 14 2) (v.extractLsb' 0 14)).div k).toNat =
      if k.toNat = v.toNat / 16384 then v.toNat % 16384 else (x.div k).toNat := by
  have hvoice : k = v.extractLsb' 14 2 ↔ k.toNat = v.toNat / 16384 := by
    have hlt := v.isLt
    rw [← BitVec.toNat_inj, extract_toNat]
    omega
  have hdivisor : (v.extractLsb' 0 14).toNat = v.toNat % 16384 := by rw [extract_toNat]; omega
  rw [Sound.div_setDiv, apply_ite BitVec.toNat, hdivisor]
  exact if_congr hvoice rfl rfl

/-- Settles O54: the write sets one voice and is seen outside; the read answers a free value. -/
theorem soundWriteSetsOneVoice : Obligations.SoundWriteSetsOneVoice := by
  unfold Obligations.SoundWriteSetsOneVoice
  intro s d a n hea
  obtain ⟨t, ht, hp, ho, hpc, hframe⟩ := exec_stAt_wordReg (r := .soundData) (d := d) hea rfl
  obtain ⟨u, hu, -, hread⟩ := exec_ldAt_wordReg (r := .soundData) hea d
  refine ⟨⟨t, ht, fun k => ?_, ?_, ho, hpc, hframe⟩, u, hu, hread⟩
  · rw [hp]
    exact Sound.div_setDiv_word _ _ k
  · rw [hp]
    rfl

/-! ### The registers that hold a transfer's parameters -/

/-- A write to any register of the DMA controller during a transfer stops (60_exceptions.md R236). -/
theorem writeWordReg_dmaBusy {s : State} {r : WordReg} (hr : r ∈ [.dmaControl, .dmaLocal, .dmaRemote, .dmaCount])
    (h : s.periph.dmaTransfer ≠ none) (v : Word) : writeWordReg s r v = .fault .dmaWriteWhileBusy := by
  have hbusy : s.periph.dmaTransfer.isSome = true := Option.isSome_iff_ne_none.mpr h
  simp only [List.mem_cons, List.not_mem_nil, or_false] at hr
  rcases hr with rfl | rfl | rfl | rfl <;> exact if_pos hbusy

theorem setDmaRegister_idle {s : State} (h : s.periph.dmaTransfer = none) (p : Periph) :
    setDmaRegister s p = .next (s.setPeriph p) := if_neg (by rw [h]; decide)

theorem dmaHeld_idle {s : State} (h : s.periph.dmaTransfer = none) (v : Word) : dmaHeld s v = (v, s) :=
  if_neg (by rw [h]; decide)

/-- Each register of the DMA controller stands at its address. -/
theorem dmaRegister_address {ea : Word} (h : ea ∈ [(0xFF0A : Word), 0xFF0C, 0xFF0E, 0xFF10]) :
    ∃ r ∈ [WordReg.dmaControl, .dmaLocal, .dmaRemote, .dmaCount], ea = r.address := by
  simp only [List.mem_cons, List.not_mem_nil, or_false] at h
  rcases h with rfl | rfl | rfl | rfl
  · exact ⟨.dmaControl, by decide, rfl⟩
  · exact ⟨.dmaLocal, by decide, rfl⟩
  · exact ⟨.dmaRemote, by decide, rfl⟩
  · exact ⟨.dmaCount, by decide, rfl⟩

/-- Settles O55: idle, the registers are written and read like any other; busy, writes stop and reads answer
free values. -/
theorem dmaRegistersHoldTheParameters : Obligations.DmaRegistersHoldTheParameters := by
  unfold Obligations.DmaRegistersHoldTheParameters
  intro s d a n
  refine ⟨fun hidle => ⟨fun hea => ⟨?_, ?_⟩, fun hea => ⟨?_, ?_⟩, fun hea => ?_⟩, fun ea hmem hea => ?_⟩
  · exact exec_stAt_wordReg (r := .dmaLocal) hea (setDmaRegister_idle hidle _)
  · obtain ⟨t, ht, hval, -, hpc, -⟩ := exec_ldAt_wordReg (r := .dmaLocal) hea d
    exact ⟨t, ht, by rw [hval, readWordReg, dmaHeld_idle hidle], hpc⟩
  · exact exec_stAt_wordReg (r := .dmaRemote) hea (setDmaRegister_idle hidle _)
  · obtain ⟨t, ht, hval, -, hpc, -⟩ := exec_ldAt_wordReg (r := .dmaRemote) hea d
    exact ⟨t, ht, by rw [hval, readWordReg, dmaHeld_idle hidle], hpc⟩
  · exact exec_stAt_wordReg (r := .dmaCount) hea (setDmaRegister_idle hidle _)
  · obtain ⟨r, hr, rfl⟩ := dmaRegister_address hmem
    obtain ⟨t, ht, -, hread⟩ := exec_ldAt_wordReg hea d
    exact ⟨fun hbusy => exec_stAt_fault hea (writeWordReg_dmaBusy hr hbusy _), t, ht, hread⟩

/-! ### Starting a transfer -/

/-- The type is the word modulo 8 (60_exceptions.md R231). -/
theorem dmaType_toNat (v : Word) : (v.extractLsb' 0 3).toNat = v.toNat % 8 := by rw [extract_toNat]; omega

/-- The two types that are not reserved (60_exceptions.md R235). -/
theorem dmaDirOf_eq_some {v : Word} {dir : DmaDir}
    (h : (dir, v.toNat % 8) ∈ [(DmaDir.toExternal, 0), (.toLocal, 1)]) :
    dmaDirOf (v.extractLsb' 0 3) = some dir := by
  simp only [List.mem_cons, List.not_mem_nil, or_false, Prod.mk.injEq, ← dmaType_toNat] at h
  rcases h with ⟨rfl, h⟩ | ⟨rfl, h⟩
  · rw [BitVec.eq_of_toNat_eq (y := 0) h]; rfl
  · rw [BitVec.eq_of_toNat_eq (y := 1) h]; rfl

theorem dmaDirOf_eq_none {v : Word} (h : 2 ≤ v.toNat % 8) : dmaDirOf (v.extractLsb' 0 3) = none := by
  have hne {k : BitVec 3} (hk : k.toNat < 2) : v.extractLsb' 0 3 ≠ k := by
    rintro rfl
    rw [dmaType_toNat] at hk
    omega
  rw [dmaDirOf, if_neg (hne (by decide)), if_neg (hne (by decide))]

theorem startDma_reserved {s : State} {v : Word} (hidle : s.periph.dmaTransfer = none)
    (h : dmaDirOf (v.extractLsb' 0 3) = none) : startDma s v = .fault .dmaReservedType := by
  simp only [startDma, hidle, h, Option.isSome_none, Bool.false_eq_true, if_false]

/-- A start whose parameters 60_exceptions.md R234, R236 or R237 excludes, or whose range leaves the fitted
RAM (log 12), stops at the first check that fails. -/
theorem startDma_illegal {s : State} {v : Word} {dir : DmaDir} (hidle : s.periph.dmaTransfer = none)
    (hdir : dmaDirOf (v.extractLsb' 0 3) = some dir)
    (h : s.periph.dmaLocal.toNat % 2 = 1 ∨ s.periph.dmaCount.toNat = 0 ∨ s.periph.dmaCount.toNat % 2 = 1 ∨
      0xFF00 < s.periph.dmaLocal.toNat + s.periph.dmaCount.toNat ∨
      s.cfg.ramSize < s.periph.dmaLocal.toNat + s.periph.dmaCount.toNat) :
    ∃ f ∈ [Fault.dmaOddLocal, .dmaBadCount, .dmaBadRange, .noMemory], startDma s v = .fault f := by
  simp only [startDma, hidle, hdir, Option.isSome_none, Bool.false_eq_true, if_false]
  split_ifs with hodd hcount hrange hram
  · exact ⟨_, by decide, rfl⟩
  · exact ⟨_, by decide, rfl⟩
  · exact ⟨_, by decide, rfl⟩
  · exact ⟨_, by decide, rfl⟩
  · omega

/-- Settles O56: the checks of the start are those the statement lists, and the external start is
DMA_REMOTE_ADDRESS above the open bits (log 13). -/
theorem dmaControlStartsATransfer : Obligations.DmaControlStartsATransfer := by
  unfold Obligations.DmaControlStartsATransfer
  intro s d a n hea hidle
  refine ⟨fun dir hmem => ⟨fun heven hpos hcount htop hram => ?_, fun hbad => ?_⟩, fun htype => ?_⟩
  · have hstart := startDma_of hidle (dmaDirOf_eq_some hmem) heven hpos hcount htop hram
    obtain ⟨t, ht, hp, hrest⟩ := exec_stAt_wordReg (r := .dmaControl) hea hstart
    exact ⟨t, ht, hp, extBase_div _, hrest⟩
  · obtain ⟨f, hf, hstop⟩ := startDma_illegal hidle (dmaDirOf_eq_some hmem) hbad
    exact ⟨f, exec_stAt_fault (r := .dmaControl) hea hstop, hf⟩
  · exact exec_stAt_fault (r := .dmaControl) hea (startDma_reserved hidle (dmaDirOf_eq_none htype))

/-! ### DMA_CONTROL when read -/

/-- Under the default DMA_BUSY_ENCODING the status is zero just when no transfer runs. -/
theorem dmaStatusBits_eq_zero_iff {s : State} (h : s.cfg.dmaBusyEncoding = .nonzeroWhenBusy) :
    (dmaStatusBits s).toNat = 0 ↔ s.periph.dmaTransfer = none := by
  rw [dmaStatusBits, h]
  cases s.periph.dmaTransfer with
  | none => exact iff_of_true rfl rfl
  | some x =>
    have hcode := (Config.freeBusyCode s.draws).isLt
    simp only [Option.isSome_some, if_true, BitVec.toNat_ofNat, reduceCtorEq, iff_false]
    omega

/-- Settles O57: bits 0 to 2 of the word read are the status bits. -/
theorem dmaControlReportsATransfer : Obligations.DmaControlReportsATransfer := by
  unfold Obligations.DmaControlReportsATransfer
  intro s d a n hea henc
  obtain ⟨t, ht, hval, hrest⟩ := exec_ldAt_wordReg (r := .dmaControl) hea d
  have hlow : (t.reg d).toNat % 8 = (dmaStatusBits s).toNat := by
    rw [hval, readWordReg, append_toNat]
    omega
  exact ⟨t, ht, by rw [hlow]; exact dmaStatusBits_eq_zero_iff henc, hrest⟩

end Sys2Proof.Machine
end

section
/-! PROOFS. Moves of the peripheral agents in sequence (70_reset_and_hazards.md R263): the timer
(60_exceptions.md R221), the UART's streams (R218) and a DMA transfer (R237 to R239). -/

namespace Sys2Proof.Machine

/-! ### The timer -/

theorem timerTick_timer (s : State) : (timerTick s).periph.timer.toNat = s.periph.timer.toNat - 1 := by
  rcases timerTick_cases s with ⟨h0, he⟩ | ⟨hpos, he⟩ <;> rw [he]
  · rw [h0]; rfl
  · rw [State.setPeriph_periph]
    bv_omega

theorem agentMove_timer_other {m : AgentMove} (h : m ≠ .timerTick) (s : State) :
    (agentMove s m).periph.timer = s.periph.timer := by
  cases m with
  | timerTick => exact absurd rfl h
  | uartReceive b =>
    rw [agentMove]
    rcases uartReceive_cases s b with ⟨-, he⟩ | ⟨-, he⟩ <;> rw [he, State.setPeriph_periph]
  | uartTransmit =>
    rw [agentMove]
    rcases uartTransmit_cases s with ⟨-, he⟩ | ⟨b, rest, -, he⟩ <;> rw [he]
    rfl
  | dmaCopy i =>
    rw [agentMove]
    rcases dmaCopy_cases s i with he | ⟨x, -, -, -, he⟩ <;> rw [he]
    rfl
  | dmaFinish =>
    rw [agentMove]
    rcases dmaFinish_cases s with he | ⟨x, -, -, he⟩ <;> rw [he]
    rfl

/-- Settles O59, by induction on the moves: a tick counts down unless at zero, and no other move counts. -/
theorem timerCountsDownToZero : Obligations.TimerCountsDownToZero := by
  unfold Obligations.TimerCountsDownToZero
  intro s ms
  induction ms generalizing s with
  | nil => rfl
  | cons m ms ih =>
    rw [agentMoves, ih]
    by_cases hm : m = .timerTick
    · rw [hm, agentMove, timerTick_timer, List.count_cons_self]
      omega
    · rw [agentMove_timer_other hm, List.count_cons_of_ne hm]

/-! ### The UART's streams -/

theorem dmaMoveByte_output (s : State) (x : Transfer) (i : Nat) : (dmaMoveByte s x i).output = s.output := by
  rcases dmaMoveByte_cases s x i with ⟨-, b, -, he⟩ | ⟨-, -, he⟩ | ⟨-, k, -, he⟩ | ⟨-, -, he⟩ <;> rw [he]
  · exact State.storeExt_output ..
  · exact State.storeExt_output ..
  · rfl
  · rfl

/-- A byte sent joins the end of what was sent. -/
theorem uartSent_emit (s : State) (b : Byte) : uartSent (s.emit (.uart b)) = uartSent s ++ [b] :=
  List.filterMap_append

/-- What has been sent, then what is still queued. -/
def transmitStream (s : State) : List Byte := uartSent s ++ s.periph.uartTx

theorem transmitStream_eq {s t : State} (ho : t.output = s.output)
    (htx : t.periph.uartTx = s.periph.uartTx) : transmitStream t = transmitStream s := by
  rw [transmitStream, transmitStream, uartSent, uartSent, ho, htx]

/-- The transmitter moves a byte from the queue to the end of what was sent. -/
theorem uartTransmit_transmitStream (s : State) : transmitStream (uartTransmit s) = transmitStream s := by
  rcases uartTransmit_cases s with ⟨-, he⟩ | ⟨b, rest, htx, he⟩ <;> rw [he]
  calc transmitStream ((s.setPeriph { s.periph with uartTx := rest }).emit (.uart b))
      = (uartSent s ++ [b]) ++ rest := congrArg (· ++ rest) (uartSent_emit _ b)
    _ = transmitStream s := by rw [transmitStream, htx, List.append_assoc, List.singleton_append]

theorem agentMove_transmitStream (s : State) (m : AgentMove) :
    transmitStream (agentMove s m) = transmitStream s := by
  cases m with
  | uartTransmit => exact uartTransmit_transmitStream s
  | uartReceive b =>
    rw [agentMove]
    rcases uartReceive_cases s b with ⟨-, he⟩ | ⟨-, he⟩ <;> rw [he] <;> exact transmitStream_eq rfl rfl
  | timerTick =>
    rw [agentMove]
    rcases timerTick_cases s with ⟨-, he⟩ | ⟨-, he⟩ <;> rw [he]
    exact transmitStream_eq rfl rfl
  | dmaCopy i =>
    rw [agentMove]
    rcases dmaCopy_cases s i with he | ⟨x, -, -, -, he⟩ <;> rw [he]
    exact transmitStream_eq (dmaMoveByte_output s x i) rfl
  | dmaFinish =>
    rw [agentMove]
    rcases dmaFinish_cases s with he | ⟨x, -, -, he⟩ <;> rw [he]
    exact transmitStream_eq rfl rfl

/-- Settles O60: every move keeps the transmit stream, and a byte that arrives is one move of the receiver. -/
theorem uartKeepsItsStreams : Obligations.UartKeepsItsStreams := by
  unfold Obligations.UartKeepsItsStreams
  refine ⟨fun s ms => ?_, fun s b => ?_⟩
  · exact agentMoves_induct (P := fun t => transmitStream t = transmitStream s)
      (fun t m h => (agentMove_transmitStream t m).trans h) rfl ms
  · rw [agentMoves, agentMoves, agentMove]
    rcases uartReceive_cases s b with ⟨hroom, he⟩ | ⟨hfull, he⟩ <;> rw [he, State.setPeriph_periph]
    · exact ⟨fun _ => rfl, fun h => by omega⟩
    · exact ⟨fun h => by omega, fun _ => rfl⟩

/-! ### What a transfer has copied -/

/-- From `s` to `t` the bytes numbered `c` of transfer `x` have come in from the external DRAM, where its
address is within the width (log 13), and no other byte has changed. -/
structure CopiedIn (s : State) (x : Transfer) (c : List Nat) (t : State) : Prop where
  copied : ∀ k ∈ c, x.extStart + k < 2 ^ extWidth →
    t.ramByte (x.localStart.toNat + k) = some (s.extByte (x.extStart + k))
  ram : ∀ a, (∀ k ∈ c, a ≠ x.localStart.toNat + k) → t.ramByte a = s.ramByte a
  ext : ∀ a, t.extByte a = s.extByte a

/-- From `s` to `t` the bytes numbered `c` of transfer `x` have gone out to the external DRAM, those of them
that RAM held (log 11), and no other byte has changed. -/
structure CopiedOut (s : State) (x : Transfer) (c : List Nat) (t : State) : Prop where
  copied : x.extStart + x.count.toNat ≤ 2 ^ extWidth → ∀ k ∈ c, ∀ b,
    s.ramByte (x.localStart.toNat + k) = some b → t.extByte (x.extStart + k) = b
  ext : x.extStart + x.count.toNat ≤ 2 ^ extWidth → ∀ a, (∀ k ∈ c, a ≠ x.extStart + k) →
    t.extByte a = s.extByte a
  ram : ∀ a, t.ramByte a = s.ramByte a

/-- What transfer `x` has done from `s` to `t` with the bytes numbered `c` copied. -/
structure Copied (s : State) (x : Transfer) (c : List Nat) (t : State) : Prop where
  toLocal : x.dir = .toLocal → CopiedIn s x c t
  toExternal : x.dir = .toExternal → CopiedOut s x c t

/-- An address within the width is written at itself. -/
theorem State.extByte_storeExt {a : Nat} (ha : a < 2 ^ extWidth) (s : State) (b : Byte) (k : Nat) :
    (s.storeExt a b).extByte k = if k = a then b else s.extByte k := by
  rw [State.storeExt, extAddress_of_lt ha, State.extByte_setExt]

section Copies
variable {s t u : State} {x : Transfer} {c : List Nat}

theorem Copied.nil (s : State) (x : Transfer) : Copied s x [] s :=
  ⟨fun _ => ⟨by simp, fun _ _ => rfl, fun _ => rfl⟩, fun _ => ⟨by simp, fun _ _ _ => rfl, fun _ => rfl⟩⟩

theorem Copied.of_in (hdir : x.dir = .toLocal) (h : CopiedIn s x c t) : Copied s x c t :=
  ⟨fun _ => h, fun hout => absurd (hdir.symm.trans hout) (by decide)⟩

theorem Copied.of_out (hdir : x.dir = .toExternal) (h : CopiedOut s x c t) : Copied s x c t :=
  ⟨fun hin => absurd (hdir.symm.trans hin) (by decide), fun _ => h⟩

theorem Copied.of_memories (h : Copied s x c t) (hram : ∀ a, u.ramByte a = t.ramByte a)
    (hext : ∀ a, u.extByte a = t.extByte a) : Copied s x c u where
  toLocal hdir := by
    obtain ⟨hcopied, hother, hsame⟩ := h.toLocal hdir
    exact ⟨fun k hk hw => (hram _).trans (hcopied k hk hw), fun a ha => (hram a).trans (hother a ha),
      fun a => (hext a).trans (hsame a)⟩
  toExternal hdir := by
    obtain ⟨hcopied, hother, hsame⟩ := h.toExternal hdir
    exact ⟨fun hfits k hk b hb => (hext _).trans (hcopied hfits k hk b hb),
      fun hfits a ha => (hext a).trans (hother hfits a ha), fun a => (hram a).trans (hsame a)⟩

/-- One more byte comes in. -/
theorem CopiedIn.cons (h : CopiedIn s x c t) {i : Nat} {b : Byte}
    (hb : x.extStart + i < 2 ^ extWidth → b = s.extByte (x.extStart + i)) :
    CopiedIn s x (i :: c) (t.setRam (x.localStart.toNat + i) b) where
  copied k hk hw := by
    rw [State.ramByte_setRam]
    split
    next heq =>
      obtain rfl : k = i := Nat.add_left_cancel heq
      rw [hb hw]
    next hne => exact h.copied k ((List.mem_cons.mp hk).resolve_left (by rintro rfl; exact hne rfl)) hw
  ram a ha := by
    obtain ⟨hi, hc⟩ := List.forall_mem_cons.mp ha
    rw [State.ramByte_setRam, if_neg hi]
    exact h.ram a hc
  ext a := by rw [State.extByte_setRam]; exact h.ext a

/-- One more byte goes out. -/
theorem CopiedOut.cons (h : CopiedOut s x c t) {i : Nat} {b : Byte} (hi : i < x.count.toNat)
    (hb : ∀ b', s.ramByte (x.localStart.toNat + i) = some b' → b = b') :
    CopiedOut s x (i :: c) (t.storeExt (x.extStart + i) b) where
  copied hfits k hk b' hb' := by
    rw [State.extByte_storeExt (by omega)]
    split
    next heq =>
      obtain rfl : k = i := Nat.add_left_cancel heq
      exact hb b' hb'
    next hne =>
      exact h.copied hfits k ((List.mem_cons.mp hk).resolve_left (by rintro rfl; exact hne rfl)) b' hb'
  ext hfits a ha := by
    obtain ⟨hi', hc⟩ := List.forall_mem_cons.mp ha
    rw [State.extByte_storeExt (by omega), if_neg hi']
    exact h.ext hfits a hc
  ram a := by rw [State.ramByte_storeExt]; exact h.ram a

/-- The source of a copy is as it was at the start, so moving byte `i` copies that byte. -/
theorem Copied.moveByte (h : Copied s x c t) {i : Nat} (hi : i < x.count.toNat) :
    Copied s x (i :: c) (dmaMoveByte t { x with copied := c } i) := by
  rcases dmaMoveByte_cases t { x with copied := c } i with
    ⟨hdir, b, hb, he⟩ | ⟨hdir, hb, he⟩ | ⟨hdir, k, hk, he⟩ | ⟨hdir, hk, he⟩ <;> rw [he]
  · have hout := h.toExternal hdir
    rw [hout.ram] at hb
    exact .of_out hdir (hout.cons hi fun b' hb' => Option.some.inj (hb.symm.trans hb'))
  · have hout := h.toExternal hdir
    rw [hout.ram] at hb
    have hcopied := Copied.of_out (x := x) hdir
      (hout.cons (b := Config.freeByte t.draws) hi fun b' hb' => nomatch hb.symm.trans hb')
    exact hcopied.of_memories (fun _ => rfl) fun _ => rfl
  · have hin := h.toLocal hdir
    refine .of_in hdir (hin.cons fun hw => ?_)
    obtain rfl := Option.some.inj ((extAddress_of_lt hw).symm.trans hk)
    exact hin.ext _
  · have hin := h.toLocal hdir
    have hcopied := Copied.of_in (x := x) hdir
      (hin.cons (b := Config.freeByte t.draws) fun hw => nomatch (extAddress_of_lt hw).symm.trans hk)
    exact hcopied.of_memories (fun _ => rfl) fun _ => rfl

end Copies

/-! ### How far a transfer has come -/

/-- Transfer `x`, started in `s`, has copied the bytes numbered `c` and still runs in `t`, or it has copied
as many as it has and is over, with DMA_LOCAL_ADDRESS just past its range (60_exceptions.md R239). -/
structure TransferReached (s : State) (x : Transfer) (c : List Nat) (t : State) : Prop where
  nodup : c.Nodup
  lt : ∀ i ∈ c, i < x.count.toNat
  copied : Copied s x c t
  stage : t.periph.dmaTransfer = some { x with copied := c } ∨
    (t.periph.dmaTransfer = none ∧ c.length = x.count.toNat ∧
      t.periph.dmaLocal = x.localStart + x.count)

/-- What the moves of the UART and the timer leave alone. -/
structure DmaKept (t u : State) : Prop where
  ram : ∀ a, u.ramByte a = t.ramByte a
  ext : ∀ a, u.extByte a = t.extByte a
  transfer : u.periph.dmaTransfer = t.periph.dmaTransfer
  dmaLocal : u.periph.dmaLocal = t.periph.dmaLocal

theorem DmaKept.refl (t : State) : DmaKept t t := ⟨fun _ => rfl, fun _ => rfl, rfl, rfl⟩

theorem uartReceive_dmaKept (t : State) (b : Byte) : DmaKept t (uartReceive t b) := by
  rcases uartReceive_cases t b with ⟨-, he⟩ | ⟨-, he⟩ <;> rw [he] <;>
    exact ⟨fun _ => rfl, fun _ => rfl, rfl, rfl⟩

theorem uartTransmit_dmaKept (t : State) : DmaKept t (uartTransmit t) := by
  rcases uartTransmit_cases t with ⟨-, he⟩ | ⟨b, rest, -, he⟩ <;> rw [he]
  · exact .refl t
  · exact ⟨fun _ => rfl, fun _ => rfl, rfl, rfl⟩

theorem timerTick_dmaKept (t : State) : DmaKept t (timerTick t) := by
  rcases timerTick_cases t with ⟨-, he⟩ | ⟨-, he⟩ <;> rw [he]
  · exact .refl t
  · exact ⟨fun _ => rfl, fun _ => rfl, rfl, rfl⟩

section Reached
variable {s t u : State} {x y : Transfer} {c : List Nat}

theorem TransferReached.start (h : s.periph.dmaTransfer = some x) (hx : x.copied = []) :
    TransferReached s x [] s where
  nodup := List.nodup_nil
  lt := by simp
  copied := .nil s x
  stage := .inl (by rw [h, ← hx])

theorem TransferReached.of_kept (h : TransferReached s x c t) (hk : DmaKept t u) :
    TransferReached s x c u where
  nodup := h.nodup
  lt := h.lt
  copied := h.copied.of_memories hk.ram hk.ext
  stage := by rw [hk.transfer, hk.dmaLocal]; exact h.stage

/-- A transfer found in flight is the one that was started. -/
theorem TransferReached.transfer_eq (h : TransferReached s x c t) (hy : t.periph.dmaTransfer = some y) :
    y = { x with copied := c } := by
  rcases h.stage with hx | ⟨hnone, -⟩
  · rw [hx] at hy
    exact (Option.some.inj hy).symm
  · rw [hnone] at hy
    cases hy

theorem TransferReached.dmaCopy (h : TransferReached s x c t) (i : Nat) :
    ∃ c', TransferReached s x c' (dmaCopy t i) := by
  rcases dmaCopy_cases t i with he | ⟨y, hy, hi, hnew, he⟩ <;> rw [he]
  · exact ⟨c, h⟩
  · obtain rfl := h.transfer_eq hy
    exact ⟨i :: c, List.nodup_cons.mpr ⟨hnew, h.nodup⟩, List.forall_mem_cons.mpr ⟨hi, h.lt⟩,
      (h.copied.moveByte hi).of_memories (fun _ => rfl) fun _ => rfl, .inl rfl⟩

theorem TransferReached.dmaFinish (h : TransferReached s x c t) : TransferReached s x c (dmaFinish t) := by
  rcases dmaFinish_cases t with he | ⟨y, hy, hlen, he⟩ <;> rw [he]
  · exact h
  · obtain rfl := h.transfer_eq hy
    exact ⟨h.nodup, h.lt, h.copied.of_memories (fun _ => rfl) fun _ => rfl, .inr ⟨rfl, hlen, rfl⟩⟩

theorem TransferReached.agentMove (h : TransferReached s x c t) (m : AgentMove) :
    ∃ c', TransferReached s x c' (agentMove t m) := by
  cases m with
  | uartReceive b => exact ⟨c, h.of_kept (uartReceive_dmaKept t b)⟩
  | uartTransmit => exact ⟨c, h.of_kept (uartTransmit_dmaKept t)⟩
  | timerTick => exact ⟨c, h.of_kept (timerTick_dmaKept t)⟩
  | dmaCopy i => exact h.dmaCopy i
  | dmaFinish => exact ⟨c, h.dmaFinish⟩

/-- As many different numbers below the count as the count is are all of them. -/
theorem TransferReached.mem_of_length (h : TransferReached s x c t) (hlen : c.length = x.count.toNat)
    {k : Nat} (hk : k < x.count.toNat) : k ∈ c := by
  have hsub : c ⊆ List.range x.count.toNat := fun i hi => List.mem_range.mpr (h.lt i hi)
  have hperm : c.Perm (List.range x.count.toNat) :=
    (List.subperm_of_subset h.nodup hsub).perm_of_length_le (by rw [List.length_range, hlen])
  exact hperm.mem_iff.mpr (List.mem_range.mpr hk)

end Reached

/-- Settles O58: the moves keep an account of the bytes copied; at the end these are all bytes of the
range, and the account says the rest is as it was. -/
theorem finishedDmaTransferCopiedItsRange : Obligations.FinishedDmaTransferCopiedItsRange := by
  unfold Obligations.FinishedDmaTransferCopiedItsRange
  intro s x ms hx hnone _ hend
  obtain ⟨c, h⟩ := agentMoves_induct (P := fun t => ∃ c, TransferReached s x c t)
    (fun _ m ⟨_, h⟩ => h.agentMove m) ⟨[], .start hx hnone⟩ ms
  generalize agentMoves s ms = t at hend h ⊢
  obtain ⟨-, hlen, hlocal⟩ := h.stage.resolve_left (by rw [hend]; exact nofun)
  refine ⟨fun hdir => ?_, fun hdir => ?_, by rw [hlocal, BitVec.toNat_add]⟩
  · obtain ⟨hcopied, hother, hext⟩ := h.copied.toLocal hdir
    exact ⟨fun k hk => hcopied k (h.mem_of_length hlen hk),
      fun a ha => hother a fun k hk => by have := h.lt k hk; omega, hext⟩
  · obtain ⟨hcopied, hother, hram⟩ := h.copied.toExternal hdir
    exact ⟨fun hfits => ⟨fun k b hk => hcopied hfits k (h.mem_of_length hlen hk) b,
      fun a ha => hother hfits a fun k hk => by have := h.lt k hk; omega⟩, hram⟩

end Sys2Proof.Machine
end

section
/-! PROOFS. A step as fetch, decode and exec, then the agents' moves (70_reset_and_hazards.md R263), a jump to
itself (R266), and loads of RAM that nothing has written (10_state.md R31). -/

namespace Sys2Proof.Machine

/-! ### A step whose fetches are known -/

section Steps
variable {s : State} {w imm : Word}

theorem step_of_short {i : Instr} (hw : fetchWord s s.pc = .next w) (hi : decodeHead s.cfg w = .short i) :
    step s = andThen (exec i s) fun t => .next (runAgents t) := by
  simp only [step, instruction, hw, andThen_next, hi]

theorem step_of_long {k : Word → Instr} (hw : fetchWord s s.pc = .next w)
    (hk : decodeHead s.cfg w = .long k) (himm : fetchWord s (s.pc + 2) = .next imm) :
    step s = andThen (exec (k imm) s) fun t => .next (runAgents t) := by
  simp only [step, instruction, hw, andThen_next, hk, himm]

/-! ### Bytes of code -/

/-- The first byte of the code at an address is a written byte of fitted RAM, and the others follow it. -/
theorem codeBytes_cons {a n : Nat} {b : Byte} {l : List Byte} (h : codeBytes s a n = b :: l) :
    a < s.cfg.ramSize ∧ s.ramByte a = some b ∧ ∃ m, codeBytes s (a + 1) m = l := by
  cases n with
  | zero => cases h
  | succ m =>
    rw [codeBytes] at h
    by_cases ha : a < s.cfg.ramSize
    · rw [if_pos ha] at h
      cases hb : s.ramByte a with
      | none => rw [hb] at h; cases h
      | some b' =>
        rw [hb] at h
        obtain ⟨rfl, rfl⟩ := List.cons.inj h
        exact ⟨ha, rfl, m, rfl⟩
    · rw [if_neg ha] at h
      cases h

/-- IFETCH_COHERENT lets the word at `a` be fetched if its setting is yes or the processor has written
neither byte (20_memory.md R60). -/
theorem fetchCoherent_of {a : Word}
    (h : s.cfg.ifetchCoherent = .yes ∨ a.toNat ∉ s.selfWritten ∧ a.toNat + 1 ∉ s.selfWritten) :
    fetchCoherent s a = true := by
  unfold fetchCoherent
  rcases h with h | ⟨h0, h1⟩
  · rw [h]
  · cases s.cfg.ifetchCoherent <;> simp [h0, h1]

/-- A word that stands first in the code at an even address is fetched there, and the rest of the code
follows it. -/
theorem fetchWord_of_codeBytes {a : Word} {n : Nat} {l : List Byte} (hcfg : s.cfg.Wf) (heven : a.toNat % 2 = 0)
    (hcode : codeBytes s a.toNat n = wordBytes s.cfg.byteOrder w ++ l)
    (hc : s.cfg.ifetchCoherent = .yes ∨ a.toNat ∉ s.selfWritten ∧ a.toNat + 1 ∉ s.selfWritten) :
    fetchWord s a = .next w ∧ ∃ m, codeBytes s (a.toNat + 2) m = l := by
  obtain ⟨ha, hb0, m, hrest⟩ := codeBytes_cons hcode
  obtain ⟨-, hb1, m', hrest'⟩ := codeBytes_cons hrest
  obtain ⟨-, -, hsize⟩ := hcfg
  have hword : ramWord s a = some w := by
    simp only [ramWord, hb0, hb1, wordOfBytes_wordBytes]
  exact ⟨fetchWord_ram ⟨heven, ha, by omega⟩ hword (fetchCoherent_of hc), m', hrest'⟩

end Steps

/-- Settles O6: the bytes at the pc are the one or two words of the instruction, and the fetches of a step
find these. -/
theorem stepRunsTheDecodedInstruction : Obligations.StepRunsTheDecodedInstruction := by
  unfold Obligations.StepRunsTheDecodedInstruction
  intro s i rest hcfg heven hdecode hc
  obtain ⟨w, imms, hgives, hbytes⟩ := gives_of_decode hdecode
  have hwords := (decodeHead_gives_iff.mp hgives).2
  rw [encode, hwords] at hc
  rw [List.flatMap_cons, List.append_assoc] at hbytes
  obtain ⟨hw, m, hrest⟩ := fetchWord_of_codeBytes hcfg heven hbytes.symm
    (hc.imp_right fun h => ⟨h 0 (by simp [wordBytes]), h 1 (by simp [wordBytes])⟩)
  cases hhead : decodeHead s.cfg w with
  | reserved r => rw [hhead] at hgives; exact hgives.elim
  | short j =>
    rw [hhead] at hgives
    obtain ⟨rfl, rfl⟩ := hgives
    exact step_of_short hw hhead
  | long k =>
    rw [hhead] at hgives
    obtain ⟨imm, rfl, rfl⟩ := hgives
    have hpc := pc_add_two_toNat hw
    rw [← hpc, List.flatMap_cons, List.append_assoc] at hrest
    obtain ⟨himm, -⟩ := fetchWord_of_codeBytes hcfg (by omega) hrest
      (hc.imp_right fun h => ⟨by rw [hpc]; exact h 2 (by simp [wordBytes]),
        by rw [hpc]; exact h 3 (by simp [wordBytes])⟩)
    exact step_of_long hw hhead himm

/-! ### A jump to itself -/

/-- The instruction of a step that stands at a JMP.AL to its own address. -/
theorem atSelfJump_step {s : State} (h : atSelfJump s = true) :
    ∃ o, o.value s = s.pc ∧ s.pc.toNat % 2 = 0 ∧
      step s = andThen (exec (jmpAt .al o) s) fun t => .next (runAgents t) := by
  unfold atSelfJump at h
  cases hw : fetchWord s s.pc <;> simp only [hw, Bool.false_eq_true] at h
  case next w =>
    obtain ⟨⟨heven, -⟩, -⟩ := fetchWord_next hw
    cases hhead : decodeHead s.cfg w <;> simp only [hhead, Bool.false_eq_true] at h
    case short i =>
      split at h
      next r => exact ⟨.reg r, of_decide_eq_true h, heven, step_of_short hw hhead⟩
      next => cases h
    case long k =>
      cases himm : fetchWord s (s.pc + 2) <;> simp only [himm, Bool.false_eq_true] at h
      case next imm =>
        refine ⟨.imm s.pc, rfl, heven, ?_⟩
        rw [step_of_long hw hhead himm, of_decide_eq_true h]
        rfl

/-- Settles O8: the jump is taken, to the pc it starts from, so the instruction changes nothing. -/
theorem selfJumpMakesNoProgress : Obligations.SelfJumpMakesNoProgress := by
  unfold Obligations.SelfJumpMakesNoProgress
  intro s h
  obtain ⟨o, ho, heven, hstep⟩ := atSelfJump_step h
  have hsame : s.setPc s.pc = s := rfl
  have htaken : CondExpr s.cfg s.flags .al := trivial
  rw [hstep, exec_jmp_taken htaken, ho, jumpTo_even s heven, hsame, andThen_next]

/-! ### Loads of RAM that nothing has written -/

theorem readByte_unwritten {s : State} {a : Word} (h : InRam s a) (hb : s.ramByte a.toNat = none) :
    readByte s a = .fault .neverWritten := by
  obtain ⟨hlow, hhigh⟩ := h
  rw [readByte, if_neg (by omega), if_neg (by omega), hb]

theorem ramWord_unwritten {s : State} {a : Word}
    (h : s.ramByte a.toNat = none ∨ s.ramByte (a.toNat + 1) = none) : ramWord s a = none := by
  unfold ramWord
  rcases h with h | h <;> rw [h]
  cases s.ramByte a.toNat <;> rfl

theorem readWord_unwritten {s : State} {a : Word} (ha : WordInRam s a)
    (h : s.ramByte a.toNat = none ∨ s.ramByte (a.toNat + 1) = none) :
    readWord s a = .fault .neverWritten := by
  obtain ⟨heven, hlow, hhigh⟩ := ha
  rw [readWord, if_neg (by omega), if_neg (by omega), if_neg (by omega), ramWord_unwritten h]

/-- Settles O40: a load stops where its read does, and RAM has no value for a byte nothing has written. -/
theorem loadsOfUnwrittenRamFault : Obligations.LoadsOfUnwrittenRamFault := by
  unfold Obligations.LoadsOfUnwrittenRamFault
  intro s i ea hload
  refine ⟨fun haddr hin hnone => ?_, fun haddr hin hnone => ?_⟩
  · rcases exec_wordAccess haddr with ⟨-, g, he⟩ | ⟨hstore, -⟩
    · rw [he, andThen_total_eq_fault]
      exact readWord_unwritten hin hnone
    · rw [hload] at hstore; cases hstore
  · rcases exec_byteAccess haddr with ⟨-, g, he⟩ | ⟨hstore, -⟩
    · rw [he, andThen_total_eq_fault]
      exact readByte_unwritten hin hnone
    · rw [hload] at hstore; cases hstore

end Sys2Proof.Machine
end
